-- ==== Sys2Proof/Word.lean ====
section
/-! DEFINITION. The machine's word types (00_scope rules R8, R12). -/

namespace Sys2Proof

/-- XLEN is 32: a general register, `pc`, `next_pc`, `instruction_word` and every address (R8). -/
abbrev Word := BitVec 32

/-- The byte is 8 bits (R8). -/
abbrev Byte := BitVec 8

/-- A register index is 5 bits, so every index names a register that exists (10_state R20). -/
abbrev RegIdx := BitVec 5

/-- The instruction counter is 64 bits (R8, 10_state R30). -/
abbrev Count := BitVec 64

end Sys2Proof
end

