-- ==== Sys2Proof/Syntax.lean ====
section
/-! DEFINITION. The 48 instructions, one constructor for each row of spec/opcode_table.json. An immediate is kept at the
width its format gives it (30_encoding R96 to R101); the operands are named as in 30_encoding R92. -/

namespace Sys2Proof

/-- The instruction set (00_scope R1, 30_encoding R105). -/
inductive Instr where
  -- Upper immediate (41_upper_immediate): `imm` is `iw[31:12]`, the 20-bit value the assembler writes (R120).
  /-- LUI (R160). -/
  | lui (rd : RegIdx) (imm : BitVec 20)
  /-- AUIPC (R161). -/
  | auipc (rd : RegIdx) (imm : BitVec 20)
  -- Jumps (42_jumps): JAL's `offset` is the signed byte offset, 21 bits with bit 0 zero (R100).
  /-- JAL (R171). -/
  | jal (rd : RegIdx) (offset : BitVec 21)
  /-- JALR (R172). -/
  | jalr (rd rs1 : RegIdx) (imm : BitVec 12)
  -- Branches (43_branches): `offset` is the signed byte offset, 13 bits with bit 0 zero (R98).
  /-- BEQ (R181). -/
  | beq (rs1 rs2 : RegIdx) (offset : BitVec 13)
  /-- BNE (R182). -/
  | bne (rs1 rs2 : RegIdx) (offset : BitVec 13)
  /-- BLT (R183). -/
  | blt (rs1 rs2 : RegIdx) (offset : BitVec 13)
  /-- BGE (R184). -/
  | bge (rs1 rs2 : RegIdx) (offset : BitVec 13)
  /-- BLTU (R185). -/
  | bltu (rs1 rs2 : RegIdx) (offset : BitVec 13)
  /-- BGEU (R186). -/
  | bgeu (rs1 rs2 : RegIdx) (offset : BitVec 13)
  -- Loads (44_loads).
  /-- LB (R197). -/
  | lb (rd rs1 : RegIdx) (imm : BitVec 12)
  /-- LH (R198). -/
  | lh (rd rs1 : RegIdx) (imm : BitVec 12)
  /-- LW (R199). -/
  | lw (rd rs1 : RegIdx) (imm : BitVec 12)
  /-- LBU (R200). -/
  | lbu (rd rs1 : RegIdx) (imm : BitVec 12)
  /-- LHU (R201). -/
  | lhu (rd rs1 : RegIdx) (imm : BitVec 12)
  -- Stores (45_stores): `rs1` is the base, `rs2` the data.
  /-- SB (R212). -/
  | sb (rs1 rs2 : RegIdx) (imm : BitVec 12)
  /-- SH (R213). -/
  | sh (rs1 rs2 : RegIdx) (imm : BitVec 12)
  /-- SW (R214). -/
  | sw (rs1 rs2 : RegIdx) (imm : BitVec 12)
  -- ALU with immediate (46_alu_immediate).
  /-- ADDI (R221). -/
  | addi (rd rs1 : RegIdx) (imm : BitVec 12)
  /-- SLTI (R222). -/
  | slti (rd rs1 : RegIdx) (imm : BitVec 12)
  /-- SLTIU (R223). -/
  | sltiu (rd rs1 : RegIdx) (imm : BitVec 12)
  /-- XORI (R224). -/
  | xori (rd rs1 : RegIdx) (imm : BitVec 12)
  /-- ORI (R225). -/
  | ori (rd rs1 : RegIdx) (imm : BitVec 12)
  /-- ANDI (R226). -/
  | andi (rd rs1 : RegIdx) (imm : BitVec 12)
  /-- SLLI (R227). -/
  | slli (rd rs1 : RegIdx) (shamt : BitVec 5)
  /-- SRLI (R228). -/
  | srli (rd rs1 : RegIdx) (shamt : BitVec 5)
  /-- SRAI (R229). -/
  | srai (rd rs1 : RegIdx) (shamt : BitVec 5)
  -- ALU with registers (47_alu_register).
  /-- ADD (R242). -/
  | add (rd rs1 rs2 : RegIdx)
  /-- SUB (R243). -/
  | sub (rd rs1 rs2 : RegIdx)
  /-- SLL (R244). -/
  | sll (rd rs1 rs2 : RegIdx)
  /-- SLT (R245). -/
  | slt (rd rs1 rs2 : RegIdx)
  /-- SLTU (R246). -/
  | sltu (rd rs1 rs2 : RegIdx)
  /-- XOR (R247). -/
  | xor (rd rs1 rs2 : RegIdx)
  /-- SRL (R248). -/
  | srl (rd rs1 rs2 : RegIdx)
  /-- SRA (R249). -/
  | sra (rd rs1 rs2 : RegIdx)
  /-- OR (R250). -/
  | or (rd rs1 rs2 : RegIdx)
  /-- AND (R251). -/
  | and (rd rs1 rs2 : RegIdx)
  -- Multiply, divide, remainder (48_muldiv).
  /-- MUL (R261). -/
  | mul (rd rs1 rs2 : RegIdx)
  /-- MULH (R262). -/
  | mulh (rd rs1 rs2 : RegIdx)
  /-- MULHSU (R263). -/
  | mulhsu (rd rs1 rs2 : RegIdx)
  /-- MULHU (R264). -/
  | mulhu (rd rs1 rs2 : RegIdx)
  /-- DIV (R265). -/
  | div (rd rs1 rs2 : RegIdx)
  /-- DIVU (R266). -/
  | divu (rd rs1 rs2 : RegIdx)
  /-- REM (R267). -/
  | rem (rd rs1 rs2 : RegIdx)
  /-- REMU (R269). -/
  | remu (rd rs1 rs2 : RegIdx)
  -- FENCE keeps the bits the hardware ignores (R280; log entry 20), so that an instruction is its word; ECALL and EBREAK are one word each.
  /-- FENCE (R280). -/
  | fence (ignoredRd ignoredRs1 : RegIdx) (ignoredImm : BitVec 12)
  /-- ECALL (R282). -/
  | ecall
  /-- EBREAK (R285). -/
  | ebreak
  deriving DecidableEq, Repr

end Sys2Proof
end

