-- ==== Sys2Proof/WellFormed.lean ====
section
/-! DEFINITION. Which instruction terms stand for an instruction word. Register indices, shift amounts and the I, S and U
immediates are well formed at every value of their types; a branch or JAL offset has its lowest bit zero. -/

namespace Sys2Proof

/-- A branch offset's lowest bit is zero (30_encoding R98). -/
def evenOffset13 (offset : BitVec 13) : Bool := !offset.getLsbD 0

/-- A JAL offset's lowest bit is zero (30_encoding R100). -/
def evenOffset21 (offset : BitVec 21) : Bool := !offset.getLsbD 0

/-- The terms that some instruction word stands for. -/
def Instr.wf : Instr → Bool
  | .lui _ _ => true
  | .auipc _ _ => true
  | .jal _ offset => evenOffset21 offset
  | .jalr _ _ _ => true
  | .beq _ _ offset => evenOffset13 offset
  | .bne _ _ offset => evenOffset13 offset
  | .blt _ _ offset => evenOffset13 offset
  | .bge _ _ offset => evenOffset13 offset
  | .bltu _ _ offset => evenOffset13 offset
  | .bgeu _ _ offset => evenOffset13 offset
  | .lb _ _ _ => true
  | .lh _ _ _ => true
  | .lw _ _ _ => true
  | .lbu _ _ _ => true
  | .lhu _ _ _ => true
  | .sb _ _ _ => true
  | .sh _ _ _ => true
  | .sw _ _ _ => true
  | .addi _ _ _ => true
  | .slti _ _ _ => true
  | .sltiu _ _ _ => true
  | .xori _ _ _ => true
  | .ori _ _ _ => true
  | .andi _ _ _ => true
  | .slli _ _ _ => true
  | .srli _ _ _ => true
  | .srai _ _ _ => true
  | .add _ _ _ => true
  | .sub _ _ _ => true
  | .sll _ _ _ => true
  | .slt _ _ _ => true
  | .sltu _ _ _ => true
  | .xor _ _ _ => true
  | .srl _ _ _ => true
  | .sra _ _ _ => true
  | .or _ _ _ => true
  | .and _ _ _ => true
  | .mul _ _ _ => true
  | .mulh _ _ _ => true
  | .mulhsu _ _ _ => true
  | .mulhu _ _ _ => true
  | .div _ _ _ => true
  | .divu _ _ _ => true
  | .rem _ _ _ => true
  | .remu _ _ _ => true
  | .fence _ _ _ => true
  | .ecall => true
  | .ebreak => true

end Sys2Proof
end

