-- ==== Sys2Proof/Decode.lean ====
section
/-! DEFINITION. From bits to instructions and back: byte order (20_memory R59), field extraction (30_encoding R92), the
immediates (R96 to R102), the dispatch (R105 to R113, 40_cycle R144), the encoder written from the same tables, and the
opcode table's rows as data (R117). All numeric encodings follow the spec's rules; most of them the spec takes from general
knowledge (93_implementation_defined G1 to G5; log entry 6). -/

namespace Sys2Proof

/-! ### Byte order (R59) -/

/-- The word whose bytes, from the lowest address up, are `b0` to `b3`: the lowest address holds the least significant. -/
def wordOfBytes (b0 b1 b2 b3 : Byte) : Word := b3 ++ b2 ++ b1 ++ b0

/-- Byte `i` of a word, byte 0 the least significant. -/
def byteOfWord (w : Word) (i : Nat) : Byte := w.extractLsb' (8 * i) 8

/-- A word as the four bytes memory holds, the lowest address first. -/
def bytesOfWord (w : Word) : List Byte := [byteOfWord w 0, byteOfWord w 1, byteOfWord w 2, byteOfWord w 3]

/-! ### Fields (R92): every field is extracted from every word -/

def opcodeOf (iw : Word) : BitVec 7 := iw.extractLsb' 0 7
def rdOf (iw : Word) : RegIdx := iw.extractLsb' 7 5
def funct3Of (iw : Word) : BitVec 3 := iw.extractLsb' 12 3
def rs1Of (iw : Word) : RegIdx := iw.extractLsb' 15 5
def rs2Of (iw : Word) : RegIdx := iw.extractLsb' 20 5
def funct7Of (iw : Word) : BitVec 7 := iw.extractLsb' 25 7
def shamtOf (iw : Word) : BitVec 5 := iw.extractLsb' 20 5

/-! ### Immediates at their own widths -/

/-- `iw[31:20]` (R96). -/
def immIField (iw : Word) : BitVec 12 := iw.extractLsb' 20 12

/-- `iw[31:25] ++ iw[11:7]` (R97). -/
def immSField (iw : Word) : BitVec 12 := iw.extractLsb' 25 7 ++ iw.extractLsb' 7 5

/-- `iw[31] ++ iw[7] ++ iw[30:25] ++ iw[11:8] ++ 0` (R98, the layout by D4). -/
def offsetBField (iw : Word) : BitVec 13 :=
  iw.extractLsb' 31 1 ++ iw.extractLsb' 7 1 ++ iw.extractLsb' 25 6 ++ iw.extractLsb' 8 4 ++ 0#1

/-- `iw[31:12]` (R99). -/
def immUField (iw : Word) : BitVec 20 := iw.extractLsb' 12 20

/-- `iw[31] ++ iw[19:12] ++ iw[20] ++ iw[30:21] ++ 0` (R100, the layout by D4). -/
def offsetJField (iw : Word) : BitVec 21 :=
  iw.extractLsb' 31 1 ++ iw.extractLsb' 12 8 ++ iw.extractLsb' 20 1 ++ iw.extractLsb' 21 10 ++ 0#1

/-! ### The five immediates as 32-bit values, defined for every word (R102) -/

def immI (iw : Word) : Word := (immIField iw).signExtend 32
def immS (iw : Word) : Word := (immSField iw).signExtend 32
def immB (iw : Word) : Word := (offsetBField iw).signExtend 32
def immU (iw : Word) : Word := immUField iw ++ 0#12
def immJ (iw : Word) : Word := (offsetJField iw).signExtend 32

/-! ### The decoder -/

/-- Why a word is an illegal encoding (R112, R113), or why bytes hold no word. -/
inductive Illegal where
  /-- Fewer than four bytes: no instruction word. Only the byte decoder answers it; a fetch always has a whole word
  (log entry 23). -/
  | truncated
  /-- `iw[6:0]` is none of the eleven groups. -/
  | unknownOpcode
  /-- JALR group, `funct3` not `000`. -/
  | jalrFunct3
  /-- BRANCH group, `funct3` `010` or `011`. -/
  | branchFunct3
  /-- LOAD group, `funct3` `011`, `110` or `111`. -/
  | loadFunct3
  /-- STORE group, `funct3` `011` to `111`. -/
  | storeFunct3
  /-- OP-IMM group, a shift whose `iw[31:25]` is not the one of R101. -/
  | shiftFunct7
  /-- OP group, `funct7` and `funct3` of no row of R110. -/
  | opFunct7
  /-- MISC-MEM group, `funct3` not `000`. -/
  | miscMemFunct3
  /-- SYSTEM group, neither of the two words of R111. -/
  | systemWord
  deriving DecidableEq, Repr

/-- BRANCH (R106). -/
def decodeBranch (iw : Word) : Except Illegal Instr :=
  match funct3Of iw with
  | 0b000#3 => .ok (.beq (rs1Of iw) (rs2Of iw) (offsetBField iw))
  | 0b001#3 => .ok (.bne (rs1Of iw) (rs2Of iw) (offsetBField iw))
  | 0b100#3 => .ok (.blt (rs1Of iw) (rs2Of iw) (offsetBField iw))
  | 0b101#3 => .ok (.bge (rs1Of iw) (rs2Of iw) (offsetBField iw))
  | 0b110#3 => .ok (.bltu (rs1Of iw) (rs2Of iw) (offsetBField iw))
  | 0b111#3 => .ok (.bgeu (rs1Of iw) (rs2Of iw) (offsetBField iw))
  | _ => .error .branchFunct3

/-- LOAD (R106). -/
def decodeLoad (iw : Word) : Except Illegal Instr :=
  match funct3Of iw with
  | 0b000#3 => .ok (.lb (rdOf iw) (rs1Of iw) (immIField iw))
  | 0b001#3 => .ok (.lh (rdOf iw) (rs1Of iw) (immIField iw))
  | 0b010#3 => .ok (.lw (rdOf iw) (rs1Of iw) (immIField iw))
  | 0b100#3 => .ok (.lbu (rdOf iw) (rs1Of iw) (immIField iw))
  | 0b101#3 => .ok (.lhu (rdOf iw) (rs1Of iw) (immIField iw))
  | _ => .error .loadFunct3

/-- STORE (R106). -/
def decodeStore (iw : Word) : Except Illegal Instr :=
  match funct3Of iw with
  | 0b000#3 => .ok (.sb (rs1Of iw) (rs2Of iw) (immSField iw))
  | 0b001#3 => .ok (.sh (rs1Of iw) (rs2Of iw) (immSField iw))
  | 0b010#3 => .ok (.sw (rs1Of iw) (rs2Of iw) (immSField iw))
  | _ => .error .storeFunct3

/-- OP-IMM with `funct3 = 101`: SRLI and SRAI differ in `iw[31:25]` (R101, R109). -/
def decodeShiftRight (iw : Word) : Except Illegal Instr :=
  match funct7Of iw with
  | 0b0000000#7 => .ok (.srli (rdOf iw) (rs1Of iw) (shamtOf iw))
  | 0b0100000#7 => .ok (.srai (rdOf iw) (rs1Of iw) (shamtOf iw))
  | _ => .error .shiftFunct7

/-- OP-IMM with `funct3 = 001` (R101, R109). -/
def decodeShiftLeft (iw : Word) : Except Illegal Instr :=
  match funct7Of iw with
  | 0b0000000#7 => .ok (.slli (rdOf iw) (rs1Of iw) (shamtOf iw))
  | _ => .error .shiftFunct7

/-- OP-IMM (R109). -/
def decodeOpImm (iw : Word) : Except Illegal Instr :=
  match funct3Of iw with
  | 0b000#3 => .ok (.addi (rdOf iw) (rs1Of iw) (immIField iw))
  | 0b001#3 => decodeShiftLeft iw
  | 0b010#3 => .ok (.slti (rdOf iw) (rs1Of iw) (immIField iw))
  | 0b011#3 => .ok (.sltiu (rdOf iw) (rs1Of iw) (immIField iw))
  | 0b100#3 => .ok (.xori (rdOf iw) (rs1Of iw) (immIField iw))
  | 0b101#3 => decodeShiftRight iw
  | 0b110#3 => .ok (.ori (rdOf iw) (rs1Of iw) (immIField iw))
  | 0b111#3 => .ok (.andi (rdOf iw) (rs1Of iw) (immIField iw))

/-- OP with `funct7 = 0000000` (R110). -/
def decodeOpBase (iw : Word) : Except Illegal Instr :=
  match funct3Of iw with
  | 0b000#3 => .ok (.add (rdOf iw) (rs1Of iw) (rs2Of iw))
  | 0b001#3 => .ok (.sll (rdOf iw) (rs1Of iw) (rs2Of iw))
  | 0b010#3 => .ok (.slt (rdOf iw) (rs1Of iw) (rs2Of iw))
  | 0b011#3 => .ok (.sltu (rdOf iw) (rs1Of iw) (rs2Of iw))
  | 0b100#3 => .ok (.xor (rdOf iw) (rs1Of iw) (rs2Of iw))
  | 0b101#3 => .ok (.srl (rdOf iw) (rs1Of iw) (rs2Of iw))
  | 0b110#3 => .ok (.or (rdOf iw) (rs1Of iw) (rs2Of iw))
  | 0b111#3 => .ok (.and (rdOf iw) (rs1Of iw) (rs2Of iw))

/-- OP with `funct7 = 0100000` (R110). -/
def decodeOpAlt (iw : Word) : Except Illegal Instr :=
  match funct3Of iw with
  | 0b000#3 => .ok (.sub (rdOf iw) (rs1Of iw) (rs2Of iw))
  | 0b101#3 => .ok (.sra (rdOf iw) (rs1Of iw) (rs2Of iw))
  | _ => .error .opFunct7

/-- OP with `funct7 = 0000001` (R110). -/
def decodeMulDiv (iw : Word) : Except Illegal Instr :=
  match funct3Of iw with
  | 0b000#3 => .ok (.mul (rdOf iw) (rs1Of iw) (rs2Of iw))
  | 0b001#3 => .ok (.mulh (rdOf iw) (rs1Of iw) (rs2Of iw))
  | 0b010#3 => .ok (.mulhsu (rdOf iw) (rs1Of iw) (rs2Of iw))
  | 0b011#3 => .ok (.mulhu (rdOf iw) (rs1Of iw) (rs2Of iw))
  | 0b100#3 => .ok (.div (rdOf iw) (rs1Of iw) (rs2Of iw))
  | 0b101#3 => .ok (.divu (rdOf iw) (rs1Of iw) (rs2Of iw))
  | 0b110#3 => .ok (.rem (rdOf iw) (rs1Of iw) (rs2Of iw))
  | 0b111#3 => .ok (.remu (rdOf iw) (rs1Of iw) (rs2Of iw))

/-- OP (R110). -/
def decodeOp (iw : Word) : Except Illegal Instr :=
  match funct7Of iw with
  | 0b0000000#7 => decodeOpBase iw
  | 0b0100000#7 => decodeOpAlt iw
  | 0b0000001#7 => decodeMulDiv iw
  | _ => .error .opFunct7

/-- JALR (R106). -/
def decodeJalr (iw : Word) : Except Illegal Instr :=
  match funct3Of iw with
  | 0b000#3 => .ok (.jalr (rdOf iw) (rs1Of iw) (immIField iw))
  | _ => .error .jalrFunct3

/-- MISC-MEM (R106, R280, R281). -/
def decodeMiscMem (iw : Word) : Except Illegal Instr :=
  match funct3Of iw with
  | 0b000#3 => .ok (.fence (rdOf iw) (rs1Of iw) (immIField iw))
  | _ => .error .miscMemFunct3

/-- SYSTEM: the match is on all 32 bits (R111, R284). -/
def decodeSystem (iw : Word) : Except Illegal Instr :=
  if iw = 0x00000073#32 then .ok .ecall
  else if iw = 0x00100073#32 then .ok .ebreak
  else .error .systemWord

/-- Dispatch (40_cycle R144): first by `iw[6:0]` into one of the eleven groups of R105, then inside the group. Total: a word
is one of the 48 operations or is illegal, by name (R94, R112). -/
def decodeWord (iw : Word) : Except Illegal Instr :=
  match opcodeOf iw with
  | 0b0110111#7 => .ok (.lui (rdOf iw) (immUField iw))
  | 0b0010111#7 => .ok (.auipc (rdOf iw) (immUField iw))
  | 0b1101111#7 => .ok (.jal (rdOf iw) (offsetJField iw))
  | 0b1100111#7 => decodeJalr iw
  | 0b1100011#7 => decodeBranch iw
  | 0b0000011#7 => decodeLoad iw
  | 0b0100011#7 => decodeStore iw
  | 0b0010011#7 => decodeOpImm iw
  | 0b0110011#7 => decodeOp iw
  | 0b0001111#7 => decodeMiscMem iw
  | 0b1110011#7 => decodeSystem iw
  | _ => .error .unknownOpcode

/-- The decoder on any bytes: the instruction of the first four, little-endian, and the bytes after them (R59, R90, R116). -/
def decode : List Byte → Except Illegal (Instr × List Byte)
  | b0 :: b1 :: b2 :: b3 :: rest =>
    match decodeWord (wordOfBytes b0 b1 b2 b3) with
    | .ok i => .ok (i, rest)
    | .error e => .error e
  | _ => .error .truncated

/-- The instruction the decoder reads from the bits `w`, numbered as spec/opcode_table.json numbers them, laid out as memory
holds them. Every bit from `nbits` up is zero. -/
def decodeTableWord (nbits w : Nat) : Option Instr :=
  match decode (bytesOfWord (BitVec.ofNat 32 (w % 2 ^ nbits))) with
  | .ok (i, _) => some i
  | .error _ => none

/-! ### The encoder: the formats of R91 -/

def encodeR (funct7 : BitVec 7) (rs2 rs1 : RegIdx) (funct3 : BitVec 3) (rd : RegIdx) (opcode : BitVec 7) : Word :=
  funct7 ++ rs2 ++ rs1 ++ funct3 ++ rd ++ opcode

def encodeI (imm : BitVec 12) (rs1 : RegIdx) (funct3 : BitVec 3) (rd : RegIdx) (opcode : BitVec 7) : Word :=
  imm ++ rs1 ++ funct3 ++ rd ++ opcode

def encodeS (imm : BitVec 12) (rs2 rs1 : RegIdx) (funct3 : BitVec 3) (opcode : BitVec 7) : Word :=
  imm.extractLsb' 5 7 ++ rs2 ++ rs1 ++ funct3 ++ imm.extractLsb' 0 5 ++ opcode

/-- Bit 0 of the offset has no place in the word. -/
def encodeB (offset : BitVec 13) (rs2 rs1 : RegIdx) (funct3 : BitVec 3) (opcode : BitVec 7) : Word :=
  offset.extractLsb' 12 1 ++ offset.extractLsb' 5 6 ++ rs2 ++ rs1 ++ funct3 ++ offset.extractLsb' 1 4 ++
    offset.extractLsb' 11 1 ++ opcode

def encodeU (imm : BitVec 20) (rd : RegIdx) (opcode : BitVec 7) : Word := imm ++ rd ++ opcode

/-- Bit 0 of the offset has no place in the word. -/
def encodeJ (offset : BitVec 21) (rd : RegIdx) (opcode : BitVec 7) : Word :=
  offset.extractLsb' 20 1 ++ offset.extractLsb' 1 10 ++ offset.extractLsb' 11 1 ++ offset.extractLsb' 12 8 ++ rd ++ opcode

/-- The word of an instruction. -/
def encode : Instr → Word
  | .lui rd imm => encodeU imm rd 0b0110111#7
  | .auipc rd imm => encodeU imm rd 0b0010111#7
  | .jal rd offset => encodeJ offset rd 0b1101111#7
  | .jalr rd rs1 imm => encodeI imm rs1 0b000#3 rd 0b1100111#7
  | .beq rs1 rs2 offset => encodeB offset rs2 rs1 0b000#3 0b1100011#7
  | .bne rs1 rs2 offset => encodeB offset rs2 rs1 0b001#3 0b1100011#7
  | .blt rs1 rs2 offset => encodeB offset rs2 rs1 0b100#3 0b1100011#7
  | .bge rs1 rs2 offset => encodeB offset rs2 rs1 0b101#3 0b1100011#7
  | .bltu rs1 rs2 offset => encodeB offset rs2 rs1 0b110#3 0b1100011#7
  | .bgeu rs1 rs2 offset => encodeB offset rs2 rs1 0b111#3 0b1100011#7
  | .lb rd rs1 imm => encodeI imm rs1 0b000#3 rd 0b0000011#7
  | .lh rd rs1 imm => encodeI imm rs1 0b001#3 rd 0b0000011#7
  | .lw rd rs1 imm => encodeI imm rs1 0b010#3 rd 0b0000011#7
  | .lbu rd rs1 imm => encodeI imm rs1 0b100#3 rd 0b0000011#7
  | .lhu rd rs1 imm => encodeI imm rs1 0b101#3 rd 0b0000011#7
  | .sb rs1 rs2 imm => encodeS imm rs2 rs1 0b000#3 0b0100011#7
  | .sh rs1 rs2 imm => encodeS imm rs2 rs1 0b001#3 0b0100011#7
  | .sw rs1 rs2 imm => encodeS imm rs2 rs1 0b010#3 0b0100011#7
  | .addi rd rs1 imm => encodeI imm rs1 0b000#3 rd 0b0010011#7
  | .slti rd rs1 imm => encodeI imm rs1 0b010#3 rd 0b0010011#7
  | .sltiu rd rs1 imm => encodeI imm rs1 0b011#3 rd 0b0010011#7
  | .xori rd rs1 imm => encodeI imm rs1 0b100#3 rd 0b0010011#7
  | .ori rd rs1 imm => encodeI imm rs1 0b110#3 rd 0b0010011#7
  | .andi rd rs1 imm => encodeI imm rs1 0b111#3 rd 0b0010011#7
  | .slli rd rs1 shamt => encodeR 0b0000000#7 shamt rs1 0b001#3 rd 0b0010011#7
  | .srli rd rs1 shamt => encodeR 0b0000000#7 shamt rs1 0b101#3 rd 0b0010011#7
  | .srai rd rs1 shamt => encodeR 0b0100000#7 shamt rs1 0b101#3 rd 0b0010011#7
  | .add rd rs1 rs2 => encodeR 0b0000000#7 rs2 rs1 0b000#3 rd 0b0110011#7
  | .sub rd rs1 rs2 => encodeR 0b0100000#7 rs2 rs1 0b000#3 rd 0b0110011#7
  | .sll rd rs1 rs2 => encodeR 0b0000000#7 rs2 rs1 0b001#3 rd 0b0110011#7
  | .slt rd rs1 rs2 => encodeR 0b0000000#7 rs2 rs1 0b010#3 rd 0b0110011#7
  | .sltu rd rs1 rs2 => encodeR 0b0000000#7 rs2 rs1 0b011#3 rd 0b0110011#7
  | .xor rd rs1 rs2 => encodeR 0b0000000#7 rs2 rs1 0b100#3 rd 0b0110011#7
  | .srl rd rs1 rs2 => encodeR 0b0000000#7 rs2 rs1 0b101#3 rd 0b0110011#7
  | .sra rd rs1 rs2 => encodeR 0b0100000#7 rs2 rs1 0b101#3 rd 0b0110011#7
  | .or rd rs1 rs2 => encodeR 0b0000000#7 rs2 rs1 0b110#3 rd 0b0110011#7
  | .and rd rs1 rs2 => encodeR 0b0000000#7 rs2 rs1 0b111#3 rd 0b0110011#7
  | .mul rd rs1 rs2 => encodeR 0b0000001#7 rs2 rs1 0b000#3 rd 0b0110011#7
  | .mulh rd rs1 rs2 => encodeR 0b0000001#7 rs2 rs1 0b001#3 rd 0b0110011#7
  | .mulhsu rd rs1 rs2 => encodeR 0b0000001#7 rs2 rs1 0b010#3 rd 0b0110011#7
  | .mulhu rd rs1 rs2 => encodeR 0b0000001#7 rs2 rs1 0b011#3 rd 0b0110011#7
  | .div rd rs1 rs2 => encodeR 0b0000001#7 rs2 rs1 0b100#3 rd 0b0110011#7
  | .divu rd rs1 rs2 => encodeR 0b0000001#7 rs2 rs1 0b101#3 rd 0b0110011#7
  | .rem rd rs1 rs2 => encodeR 0b0000001#7 rs2 rs1 0b110#3 rd 0b0110011#7
  | .remu rd rs1 rs2 => encodeR 0b0000001#7 rs2 rs1 0b111#3 rd 0b0110011#7
  | .fence rd rs1 imm => encodeI imm rs1 0b000#3 rd 0b0001111#7
  | .ecall => 0x00000073#32
  | .ebreak => 0x00100073#32

/-- The bytes of an instruction, the lowest address first (R59). -/
def encodeBytes (i : Instr) : List Byte := bytesOfWord (encode i)

/-! ### The opcode table as data (R117) -/

/-- The mnemonic of an instruction's row. -/
def Instr.mnemonic : Instr → String
  | .lui _ _ => "LUI"
  | .auipc _ _ => "AUIPC"
  | .jal _ _ => "JAL"
  | .jalr _ _ _ => "JALR"
  | .beq _ _ _ => "BEQ"
  | .bne _ _ _ => "BNE"
  | .blt _ _ _ => "BLT"
  | .bge _ _ _ => "BGE"
  | .bltu _ _ _ => "BLTU"
  | .bgeu _ _ _ => "BGEU"
  | .lb _ _ _ => "LB"
  | .lh _ _ _ => "LH"
  | .lw _ _ _ => "LW"
  | .lbu _ _ _ => "LBU"
  | .lhu _ _ _ => "LHU"
  | .sb _ _ _ => "SB"
  | .sh _ _ _ => "SH"
  | .sw _ _ _ => "SW"
  | .addi _ _ _ => "ADDI"
  | .slti _ _ _ => "SLTI"
  | .sltiu _ _ _ => "SLTIU"
  | .xori _ _ _ => "XORI"
  | .ori _ _ _ => "ORI"
  | .andi _ _ _ => "ANDI"
  | .slli _ _ _ => "SLLI"
  | .srli _ _ _ => "SRLI"
  | .srai _ _ _ => "SRAI"
  | .add _ _ _ => "ADD"
  | .sub _ _ _ => "SUB"
  | .sll _ _ _ => "SLL"
  | .slt _ _ _ => "SLT"
  | .sltu _ _ _ => "SLTU"
  | .xor _ _ _ => "XOR"
  | .srl _ _ _ => "SRL"
  | .sra _ _ _ => "SRA"
  | .or _ _ _ => "OR"
  | .and _ _ _ => "AND"
  | .mul _ _ _ => "MUL"
  | .mulh _ _ _ => "MULH"
  | .mulhsu _ _ _ => "MULHSU"
  | .mulhu _ _ _ => "MULHU"
  | .div _ _ _ => "DIV"
  | .divu _ _ _ => "DIVU"
  | .rem _ _ _ => "REM"
  | .remu _ _ _ => "REMU"
  | .fence _ _ _ => "FENCE"
  | .ecall => "ECALL"
  | .ebreak => "EBREAK"

/-- A row of spec/opcode_table.json: a word `iw` matches it when `iw & mask = bits`. -/
structure OpcodeRow where
  mnemonic : String
  mask : Word
  bits : Word
  deriving DecidableEq, Repr

def OpcodeRow.fits (r : OpcodeRow) (iw : Word) : Bool := iw &&& r.mask == r.bits

/-- The rows of the upper immediates, jumps and branches. -/
def opcodeRowsControl : List OpcodeRow :=
  [⟨"LUI", 0x0000007f#32, 0x00000037#32⟩,
   ⟨"AUIPC", 0x0000007f#32, 0x00000017#32⟩,
   ⟨"JAL", 0x0000007f#32, 0x0000006f#32⟩,
   ⟨"JALR", 0x0000707f#32, 0x00000067#32⟩,
   ⟨"BEQ", 0x0000707f#32, 0x00000063#32⟩,
   ⟨"BNE", 0x0000707f#32, 0x00001063#32⟩,
   ⟨"BLT", 0x0000707f#32, 0x00004063#32⟩,
   ⟨"BGE", 0x0000707f#32, 0x00005063#32⟩,
   ⟨"BLTU", 0x0000707f#32, 0x00006063#32⟩,
   ⟨"BGEU", 0x0000707f#32, 0x00007063#32⟩]

/-- The rows of the loads and stores. -/
def opcodeRowsMemory : List OpcodeRow :=
  [⟨"LB", 0x0000707f#32, 0x00000003#32⟩,
   ⟨"LH", 0x0000707f#32, 0x00001003#32⟩,
   ⟨"LW", 0x0000707f#32, 0x00002003#32⟩,
   ⟨"LBU", 0x0000707f#32, 0x00004003#32⟩,
   ⟨"LHU", 0x0000707f#32, 0x00005003#32⟩,
   ⟨"SB", 0x0000707f#32, 0x00000023#32⟩,
   ⟨"SH", 0x0000707f#32, 0x00001023#32⟩,
   ⟨"SW", 0x0000707f#32, 0x00002023#32⟩]

/-- The rows of the ALU with immediate. -/
def opcodeRowsImmediate : List OpcodeRow :=
  [⟨"ADDI", 0x0000707f#32, 0x00000013#32⟩,
   ⟨"SLTI", 0x0000707f#32, 0x00002013#32⟩,
   ⟨"SLTIU", 0x0000707f#32, 0x00003013#32⟩,
   ⟨"XORI", 0x0000707f#32, 0x00004013#32⟩,
   ⟨"ORI", 0x0000707f#32, 0x00006013#32⟩,
   ⟨"ANDI", 0x0000707f#32, 0x00007013#32⟩,
   ⟨"SLLI", 0xfe00707f#32, 0x00001013#32⟩,
   ⟨"SRLI", 0xfe00707f#32, 0x00005013#32⟩,
   ⟨"SRAI", 0xfe00707f#32, 0x40005013#32⟩]

/-- The rows of the ALU with registers. -/
def opcodeRowsRegister : List OpcodeRow :=
  [⟨"ADD", 0xfe00707f#32, 0x00000033#32⟩,
   ⟨"SUB", 0xfe00707f#32, 0x40000033#32⟩,
   ⟨"SLL", 0xfe00707f#32, 0x00001033#32⟩,
   ⟨"SLT", 0xfe00707f#32, 0x00002033#32⟩,
   ⟨"SLTU", 0xfe00707f#32, 0x00003033#32⟩,
   ⟨"XOR", 0xfe00707f#32, 0x00004033#32⟩,
   ⟨"SRL", 0xfe00707f#32, 0x00005033#32⟩,
   ⟨"SRA", 0xfe00707f#32, 0x40005033#32⟩,
   ⟨"OR", 0xfe00707f#32, 0x00006033#32⟩,
   ⟨"AND", 0xfe00707f#32, 0x00007033#32⟩]

/-- The rows of the multiply, divide, remainder and the last three. -/
def opcodeRowsMulDivSystem : List OpcodeRow :=
  [⟨"MUL", 0xfe00707f#32, 0x02000033#32⟩,
   ⟨"MULH", 0xfe00707f#32, 0x02001033#32⟩,
   ⟨"MULHSU", 0xfe00707f#32, 0x02002033#32⟩,
   ⟨"MULHU", 0xfe00707f#32, 0x02003033#32⟩,
   ⟨"DIV", 0xfe00707f#32, 0x02004033#32⟩,
   ⟨"DIVU", 0xfe00707f#32, 0x02005033#32⟩,
   ⟨"REM", 0xfe00707f#32, 0x02006033#32⟩,
   ⟨"REMU", 0xfe00707f#32, 0x02007033#32⟩,
   ⟨"FENCE", 0x0000707f#32, 0x0000000f#32⟩,
   ⟨"ECALL", 0xffffffff#32, 0x00000073#32⟩,
   ⟨"EBREAK", 0xffffffff#32, 0x00100073#32⟩]

/-- The 48 rows, in the table's order. -/
def opcodeTable : List OpcodeRow :=
  opcodeRowsControl ++ opcodeRowsMemory ++ opcodeRowsImmediate ++ opcodeRowsRegister ++
    opcodeRowsMulDivSystem

end Sys2Proof
end

