-- ==== Sys2Proof/Config.lean ====
section
/-! DEFINITION. The platform parameters and their constraints (00_scope rules R9, R10). Every point the spec's source
leaves open and a step depends on is decided by a rule of the spec, so the model needs no free value. -/

namespace Sys2Proof

/-- The three platform parameters of R9. The model takes them as data, so that nothing rests on the reference values. -/
structure Platform where
  /-- `MEMORY_BASE`, the first byte address of RAM. -/
  memoryBase : Word
  /-- `MEMORY_SIZE`, the length of RAM in bytes. -/
  memorySize : Nat
  /-- `CONSOLE_BASE`, the first byte address of the console window. -/
  consoleBase : Word
  deriving DecidableEq, Repr

/-- The console window's length is fixed and is no parameter (R9). -/
def consoleLength : Nat := 12

/-- The constraints of R10: RAM and the console window do not run past `2^32`, they do not overlap, and RAM is a
non-empty whole number of aligned words. -/
abbrev Platform.wf (p : Platform) : Prop :=
  p.memoryBase.toNat + p.memorySize ≤ 2 ^ 32 ∧
  p.consoleBase.toNat + consoleLength ≤ 2 ^ 32 ∧
  (p.consoleBase.toNat + consoleLength ≤ p.memoryBase.toNat ∨
    p.memoryBase.toNat + p.memorySize ≤ p.consoleBase.toNat) ∧
  p.memoryBase.toNat % 4 = 0 ∧ p.memorySize % 4 = 0 ∧ 0 < p.memorySize

/-- The reference configuration, the one the source gives (R9). -/
def Platform.reference : Platform where
  memoryBase := 0x80000000#32
  memorySize := 0x02000000
  consoleBase := 0x10000000#32

end Sys2Proof
end

