-- ==== Sys2Proof/Machine/State.lean ====
section
/-! DEFINITION. The state of the machine as plain data (10_state; 20_memory R52; 60_exceptions R304, R320), the reasons a
step can stop, and the state after reset (10_state R36). -/

namespace Sys2Proof.Machine

/-- The kinds of report record (60_exceptions R302). -/
inductive ReportKind where
  | fetchFault
  | decodeError
  | loadFault
  | storeFault
  deriving DecidableEq, Repr

/-- The error a report names (60_exceptions R301, R302). -/
inductive ReportError where
  | outOfRange
  | misaligned
  | unknownOpcode
  deriving DecidableEq, Repr

/-- A record of the report stream (60_exceptions R304): `pc` is the `pc` of the step, `info` the failing address or, for a
DecodeError, the illegal word (R302). -/
structure Report where
  kind : ReportKind
  error : ReportError
  pc : Word
  info : Word
  deriving DecidableEq, Repr

/-- RAM: the bytes that are not zero, by address, the addresses strictly rising. An address not listed reads zero, which is
what RAM holds where no image byte lies and no store has been (20_memory R53). -/
abbrev Memory := List Host.Cell

/-- Everything the spec gives the machine (10_state R20 to R30, 00_scope R19 item 2). -/
structure State where
  /-- The platform parameters, fixed for a run (00_scope R9; log entry 1). -/
  platform : Platform
  /-- Address of the instruction being fetched and executed (10_state R24). -/
  pc : Word
  /-- Address the commit copies into `pc` (10_state R25). -/
  nextPc : Word
  /-- The most recently fetched word (10_state R28). -/
  instructionWord : Word
  /-- `x[0]` to `x[31]` (10_state R20). Slot 0 is never read and never written (R21; log entry 14). -/
  regs : Vector Word 32
  /-- `false` is `Running`, `true` is `Halted` (10_state R29, 40_cycle R140). -/
  halted : Bool
  /-- The retired-instruction counter (10_state R30). -/
  instructionsExecuted : Count
  /-- RAM (20_memory R52). -/
  mem : Memory
  /-- The console output stream, the oldest byte first (60_exceptions R320). -/
  console : List Byte
  /-- The report stream, the oldest record first (60_exceptions R304). -/
  reports : List Report
  deriving DecidableEq, Repr

/-- Why the machine stops. -/
inductive Fault where
  /-- Raised by `step` in a state that is already `Halted`: the spec gives that state no successor (40_cycle R148). Safe: the
  state is frozen in the hardware, and the model claims nothing after it (log entry 3). -/
  | halted
  deriving DecidableEq, Repr

/-- What the model claims nothing about. -/
inductive Refusal where
  /-- An instruction without a meaning yet. No arm raises it: all 48 have their meaning. Safe. -/
  | notModelled (mnemonic : String)
  /-- Raised by `step` and `boot` for a configuration that breaks a constraint of 00_scope R10, which asks the model to
  refuse it. Safe: nothing is claimed (log entry 2). -/
  | platformOutsideSpec
  /-- Raised by `boot` for an image longer than RAM, for which no run exists (70_reset R345). Safe (log entry 16). -/
  | imageTooLarge
  deriving DecidableEq, Repr

/-- The state after reset in a given configuration, with no image loaded (10_state R36; log entry 5). -/
def State.resetFor (p : Platform) : State where
  platform := p
  pc := p.memoryBase
  nextPc := p.memoryBase
  instructionWord := 0#32
  regs := Vector.replicate 32 0#32
  halted := false
  instructionsExecuted := 0#64
  mem := []
  console := []
  reports := []

/-- The state after reset in the reference configuration (00_scope R9). -/
def State.reset : State := State.resetFor Platform.reference

end Sys2Proof.Machine
end

