-- ==== Sys2Proof/Machine/Memory.lean ====
section
/-! DEFINITION. RAM as a canonical list of cells: reading and writing one byte, little-endian values of several bytes
(20_memory R58, R59, R62), and an image's bytes (20_memory R53, 70_reset R345). -/

namespace Sys2Proof.Machine

/-- What RAM reads where nothing has been written and no image byte lies (20_memory R53). -/
def unlistedByte : Byte := 0#8

/-- The byte at an address. -/
def Memory.read : Memory → Nat → Byte
  | [], _ => unlistedByte
  | (k, c) :: rest, a => if k = a then c else Memory.read rest a

/-- Cell `(a, b)` in front of `m`, left out when an unlisted address reads `b` anyway. -/
def Memory.push (m : Memory) (a : Nat) (b : Byte) : Memory := if b = unlistedByte then m else (a, b) :: m

/-- Put `b` at address `a`, keeping the canonical form. -/
def Memory.write : Memory → Nat → Byte → Memory
  | [], a, b => Memory.push [] a b
  | (k, c) :: rest, a, b =>
    if a < k then Memory.push ((k, c) :: rest) a b
    else if a = k then Memory.push rest a b
    else (k, c) :: Memory.write rest a b

/-- Every address of the list is above `lo`, the addresses rise strictly, and no byte is the unlisted one. -/
def Memory.risesFrom : Nat → Memory → Bool
  | _, [] => true
  | lo, (k, c) :: rest => decide (lo ≤ k) && c != unlistedByte && Memory.risesFrom (k + 1) rest

/-- The canonical form. -/
def Memory.wf (m : Memory) : Bool := Memory.risesFrom 0 m

/-- Every listed address lies in `[lo, hi)`. -/
def Memory.within (lo hi : Nat) (m : Memory) : Bool := m.all fun c => decide (lo ≤ c.1) && decide (c.1 < hi)

/-- Write bytes at consecutive addresses from `a` up. -/
def Memory.writeBytes : Memory → Nat → List Byte → Memory
  | m, _, [] => m
  | m, a, b :: bs => Memory.writeBytes (Memory.write m a b) (a + 1) bs

/-- The widths of an access (20_memory R54). -/
inductive Width where
  | byte
  | half
  | word
  deriving DecidableEq, Repr

/-- How many bytes an access touches (R54). -/
def Width.bytes : Width → Nat
  | .byte => 1
  | .half => 2
  | .word => 4

/-- The little-endian value at `a`, zero-extended (20_memory R58, R59). -/
def Memory.load (m : Memory) (a : Nat) : Width → Word
  | .byte => (m.read a).zeroExtend 32
  | .half => (m.read (a + 1) ++ m.read a).zeroExtend 32
  | .word => wordOfBytes (m.read a) (m.read (a + 1)) (m.read (a + 2)) (m.read (a + 3))

/-- The low bytes of a value, the lowest address first (20_memory R62). -/
def storedBytes (w : Width) (v : Word) : List Byte :=
  match w with
  | .byte => [byteOfWord v 0]
  | .half => [byteOfWord v 0, byteOfWord v 1]
  | .word => bytesOfWord v

/-- The memory with the low bytes of a value stored at `a` (20_memory R62). -/
def Memory.store (m : Memory) (a : Nat) (w : Width) (v : Word) : Memory := m.writeBytes a (storedBytes w v)

end Sys2Proof.Machine
end

