-- ==== Sys2Proof/Machine/Ops.lean ====
section
/-! DEFINITION. The named operations on registers, the address map, checked memory accesses, the console device, reports and
halting: what the spec's pseudocode primitives (00_scope R15) do. `raise` is this machine's whole way of taking an exception:
there is no trap entry and no trap return (60_exceptions R312, R313). -/

namespace Sys2Proof.Machine

/-! ### Registers -/

/-- `x[r]`: register 0 reads 0 (10_state R21). -/
def State.readReg (s : State) (r : RegIdx) : Word := if r = 0#5 then 0#32 else s.regs[r.toNat]

/-- The register file after `x[r] <- v`: a write to register 0 is discarded (10_state R21). -/
def writtenRegs (regs : Vector Word 32) (r : RegIdx) (v : Word) : Vector Word 32 :=
  if r = 0#5 then regs else regs.set r.toNat v

/-- `x[r] <- v`. -/
def State.writeReg (s : State) (r : RegIdx) (v : Word) : State := { s with regs := writtenRegs s.regs r v }

/-- `next_pc <- t` (10_state R25). -/
def State.setNextPc (s : State) (t : Word) : State := { s with nextPc := t }

/-! ### The address map (20_memory R51) -/

/-- The three kinds of address. -/
inductive Region where
  | console
  | ram
  | unmapped
  deriving DecidableEq, Repr

/-- The kind of an address, decided by the address alone, the console window first; unsigned comparisons without wrap. -/
def regionOf (p : Platform) (a : Word) : Region :=
  if p.consoleBase.toNat ≤ a.toNat ∧ a.toNat < p.consoleBase.toNat + consoleLength then .console
  else if p.memoryBase.toNat ≤ a.toNat ∧ a.toNat < p.memoryBase.toNat + p.memorySize then .ram
  else .unmapped

/-- Natural alignment (20_memory R60). -/
def aligned (a : Word) : Width → Bool
  | .byte => true
  | .half => a.extractLsb' 0 1 == 0#1
  | .word => a.extractLsb' 0 2 == 0#2

/-- The two ways an access fails (60_exceptions R301). -/
inductive AccessError where
  | outOfRange
  | misaligned
  deriving DecidableEq, Repr

/-- An access error as the error of a report. -/
def AccessError.toReport : AccessError → ReportError
  | .outOfRange => .outOfRange
  | .misaligned => .misaligned

/-- What the checks say of an access that is not in the console window: the range, then the alignment (20_memory R55). -/
inductive Checked where
  /-- In the console window: neither range-checked nor alignment-checked. -/
  | console
  /-- In RAM and aligned. -/
  | ram
  /-- The access fails. -/
  | fails (e : AccessError)
  deriving DecidableEq, Repr

/-- The checks of every access, read or write, in the order of 20_memory R55. -/
def checkAccess (p : Platform) (a : Word) (w : Width) : Checked :=
  match regionOf p a with
  | .console => .console
  | .unmapped => .fails .outOfRange
  | .ram => if aligned a w then .ram else .fails .misaligned

/-! ### Reads and writes -/

/-- `MemRead(addr, n)` (20_memory R58). -/
def memRead (s : State) (a : Word) (w : Width) : Except AccessError Word :=
  match checkAccess s.platform a w with
  | .console => .ok 0#32
  | .fails e => .error e
  | .ram => .ok (s.mem.load a.toNat w)

/-- The digits of `n` in base `base`, most significant first, no leading zero, at most `fuel` of them. -/
def digits (base : Nat) : Nat → Nat → List Nat
  | 0, _ => []
  | fuel + 1, n => if n < base then [n] else digits base fuel (n / base) ++ [n % base]

/-- The ASCII code of a digit, `0` to `9` and then `a` to `f`. -/
def digitCode (d : Nat) : Byte := if d < 10 then BitVec.ofNat 8 (48 + d) else BitVec.ofNat 8 (87 + d)

/-- `Char(v)`: the low byte (60_exceptions R321). -/
def charText (v : Word) : List Byte := [byteOfWord v 0]

/-- The decimal digits of a number below `10^10`. -/
def decimalDigits (n : Nat) : List Byte := (digits 10 10 n).map digitCode

/-- `Decimal(v)`: the value read as signed, a leading `-` when negative (60_exceptions R322). -/
def decimalText (v : Word) : List Byte :=
  if v.toInt < 0 then 45#8 :: decimalDigits v.toInt.natAbs else decimalDigits v.toInt.natAbs

/-- `Hex(v)`: lowercase, no leading zeros, no prefix (60_exceptions R323). -/
def hexText (v : Word) : List Byte := (digits 16 8 v.toNat).map digitCode

/-- What a write of `v` at offset `o` of the console window appends to the console stream (60_exceptions R320). -/
def consoleText (o : Nat) (v : Word) : List Byte :=
  if o = 0 then charText v
  else if o = 4 then decimalText v
  else if o = 8 then hexText v
  else []

/-- `ConsoleWrite(o, v)` (60_exceptions R320). -/
def State.consoleWrite (s : State) (o : Nat) (v : Word) : State := { s with console := s.console ++ consoleText o v }

/-- The low bytes of `v` stored in RAM at `a`. -/
def State.ramWrite (s : State) (a : Word) (w : Width) (v : Word) : State := { s with mem := s.mem.store a.toNat w v }

/-- `MemWrite(addr, n, v)` (20_memory R62). The console sees the whole value (R62, 45_stores R210; log entry 8). -/
def memWrite (s : State) (a : Word) (w : Width) (v : Word) : Except AccessError State :=
  match checkAccess s.platform a w with
  | .console => .ok (s.consoleWrite (a.toNat - s.platform.consoleBase.toNat) v)
  | .fails e => .error e
  | .ram => .ok (s.ramWrite a w v)

/-! ### Reports and halting -/

/-- `report K(info)`: append one record (60_exceptions R304). The record's `pc` is the `pc` of the step (R302). -/
def State.report (s : State) (k : ReportKind) (e : ReportError) (info : Word) : State :=
  { s with reports := s.reports ++ [{ kind := k, error := e, pc := s.pc, info := info }] }

/-- `halt`: set `halted`, no report; the step then makes no commit (49_fence_system R283). -/
def State.halt (s : State) : State := { s with halted := true }

/-- `raise K(info)`: report, then halt (60_exceptions R305). -/
def State.raise (s : State) (k : ReportKind) (e : ReportError) (info : Word) : State := (s.report k e info).halt

/-! ### The parts of a step (40_cycle R141) -/

/-- The fetch is a Word read at `pc` (40_cycle R142). -/
def State.fetch (s : State) : Except AccessError Word := memRead s s.pc .word

/-- A failed fetch: `halted` and a FetchFault record, nothing else (40_cycle R142, 60_exceptions R306). -/
def State.fetchFault (s : State) (e : AccessError) : State := s.raise .fetchFault e.toReport s.pc

/-- After a successful fetch: `instruction_word` holds the word and `next_pc` is `pc + 4` (40_cycle R141, R143). -/
def State.fetched (s : State) (iw : Word) : State := { s with instructionWord := iw, nextPc := s.pc + 4#32 }

/-- An illegal encoding: DecodeError and halt (40_cycle R145, 60_exceptions R303). Every illegal word has the one error
UnknownOpcode, whatever makes it illegal. -/
def State.decodeError (s : State) (iw : Word) : State := s.raise .decodeError .unknownOpcode iw

/-- The commit (40_cycle R146). `x[0]` needs no enforcing: no write to it is ever made. -/
def State.commit (s : State) : State :=
  { s with pc := s.nextPc, instructionsExecuted := s.instructionsExecuted + 1#64 }

/-- The end of a step: an instruction that halted makes no commit (40_cycle R147). -/
def State.retire (s : State) : State := if s.halted then s else s.commit

/-! ### Shared shapes of the meanings -/

/-- What a meaning answers: it always completes. -/
abbrev Result := Host.Outcome State Fault Refusal

/-- A load: on failure a LoadFault record and no register write, else the extended value (44_loads R195, R196). -/
def State.loadInto (s : State) (w : Width) (ext : Word → Word) (rd : RegIdx) (a : Word) : State :=
  match memRead s a w with
  | .ok v => s.writeReg rd (ext v)
  | .error e => s.report .loadFault e.toReport a

/-- A store: on failure a StoreFault record and no other effect (45_stores R210, R211). -/
def State.storeTo (s : State) (w : Width) (a v : Word) : State :=
  match memWrite s a w v with
  | .ok t => t
  | .error e => s.report .storeFault e.toReport a

end Sys2Proof.Machine
end

