-- ==== Sys2Proof/Machine/Boot.lean ====
section
/-! DEFINITION. What the host does to the machine: the image load (20_memory R53, R70; 70_reset R345), the cold start and the
warm reset (70_reset R340, R341), and placing one word where the next fetch reads. -/

namespace Sys2Proof.Machine

/-- `load_program`: the image's bytes at RAM offset 0 and up, verbatim (20_memory R53). -/
def State.loadImage (s : State) (image : List Byte) : State :=
  { s with mem := s.mem.writeBytes s.platform.memoryBase.toNat image }

/-- The cold start, the one kind of run the spec defines (70_reset R341): RAM zero and then the image, reset released. A
configuration outside 00_scope R10 and an image longer than RAM are refused. -/
def boot (p : Platform) (image : List Byte) : Result :=
  if p.wf then
    if image.length ≤ p.memorySize then .next ((State.resetFor p).loadImage image)
    else .refused .imageTooLarge
  else .refused .platformOutsideSpec

/-- Reset of a machine in use: the six registers of the block take their reset values; RAM and the two streams keep their
contents (70_reset R341; log entry 17). -/
def State.warmReset (s : State) : State :=
  { State.resetFor s.platform with mem := s.mem, console := s.console, reports := s.reports }

/-- Whether a fetch at `pc` reads a word of RAM. -/
def State.pcInRam (s : State) : Bool := checkAccess s.platform s.pc .word == .ram

/-- The word `iw` where the next step fetches it. A machine that is halted is set running, and a `pc` that reads no RAM word
is set to the entry point, since otherwise no word could be fetched (log entry 15). -/
def State.placeFetchWord (s : State) (iw : Word) : State :=
  let at_ := if s.pcInRam then s.pc else s.platform.memoryBase
  { s with pc := at_, halted := false, mem := s.mem.store at_.toNat .word iw }

end Sys2Proof.Machine
end

