-- ==== Sys2Proof/Machine/Operands.lean ====
section
/-! DEFINITION. The operand forms: sign-extended and upper immediates (30_encoding R96 to R100), shift amounts (R101,
47_alu_register R240), the one addressing mode (44_loads R195, 45_stores R210), and jump and branch targets. -/

namespace Sys2Proof.Machine

/-- A 12-bit immediate sign-extended to 32 bits (R96, R97). -/
def imm12 (imm : BitVec 12) : Word := imm.signExtend 32

/-- A U-immediate: the 20 bits on top, the low 12 zero (R99). -/
def imm20 (imm : BitVec 20) : Word := imm ++ 0#12

/-- A branch offset sign-extended to 32 bits (R98). -/
def offset13 (offset : BitVec 13) : Word := offset.signExtend 32

/-- A JAL offset sign-extended to 32 bits (R100). -/
def offset21 (offset : BitVec 21) : Word := offset.signExtend 32

/-- The amount of a shift by a register: the low 5 bits of its value (47_alu_register R240). -/
def shiftAmount (v : Word) : BitVec 5 := v.extractLsb' 0 5

/-- Base register plus signed displacement, modulo `2^32` (44_loads R195, 45_stores R210). -/
def State.address (s : State) (rs1 : RegIdx) (imm : BitVec 12) : Word := s.readReg rs1 + imm12 imm

/-- The link value of a jump, `pc + 4` (42_jumps R170). -/
def State.link (s : State) : Word := s.pc + 4#32

/-- JALR's target: only bit 0 of the sum is cleared (42_jumps R172). -/
def State.jalrTarget (s : State) (rs1 : RegIdx) (imm : BitVec 12) : Word := s.address rs1 imm &&& 0xFFFFFFFE#32

/-- `x[rd] <- f(x[rs1], operand)` with an operand from the instruction (46_alu_immediate R220). -/
def aluImm (f : Word → Word → Word) (rd rs1 : RegIdx) (operand : Word) (s : State) : State :=
  s.writeReg rd (f (s.readReg rs1) operand)

/-- A shift by an immediate amount (46_alu_immediate R220). -/
def shiftImm (f : Word → BitVec 5 → Word) (rd rs1 : RegIdx) (shamt : BitVec 5) (s : State) : State :=
  s.writeReg rd (f (s.readReg rs1) shamt)

/-- `x[rd] <- f(x[rs1], x[rs2])` (47_alu_register R241, 48_muldiv R260). -/
def aluReg (f : Word → Word → Word) (rd rs1 rs2 : RegIdx) (s : State) : State :=
  s.writeReg rd (f (s.readReg rs1) (s.readReg rs2))

/-- A branch: `next_pc <- pc + offset` when the condition holds of the two registers, else nothing (43_branches R180). -/
def branchIf (cond : Word → Word → Bool) (rs1 rs2 : RegIdx) (offset : BitVec 13) (s : State) : State :=
  if cond (s.readReg rs1) (s.readReg rs2) then s.setNextPc (s.pc + offset13 offset) else s

end Sys2Proof.Machine
end

