-- ==== Sys2Proof/Machine/Flags.lean ====
section
/-! DEFINITION. The hardware has no flags and no condition codes (10_state R31). What stands in their place: the comparisons
that branches and the set-less-than instructions make on two whole values (47_alu_register R240). -/

namespace Sys2Proof.Machine

/-- All 32 bits equal (43_branches R181). -/
def equal (a b : Word) : Bool := a == b

/-- `a <s b`: exact, on the two's-complement values (00_scope R13). -/
def lessSigned (a b : Word) : Bool := decide (a.toInt < b.toInt)

/-- `a <u b`: exact, on the unsigned values (00_scope R13). -/
def lessUnsigned (a b : Word) : Bool := decide (a.toNat < b.toNat)

/-- The result of a set-less-than: the 32-bit value 1 or 0 (47_alu_register R245, 93_implementation_defined G6). -/
def flagWord (b : Bool) : Word := if b then 1#32 else 0#32

/-- Set if less than, signed (46_alu_immediate R222, 47_alu_register R245). -/
def setLess (a b : Word) : Word := flagWord (lessSigned a b)

/-- Set if less than, unsigned (46_alu_immediate R223, 47_alu_register R246). -/
def setLessUnsigned (a b : Word) : Word := flagWord (lessUnsigned a b)

end Sys2Proof.Machine
end

