-- ==== Sys2Proof/Machine/Shifts.lean ====
section
/-! DEFINITION. The three shifts by an amount of 5 bits (00_scope R13, 47_alu_register R240). -/

namespace Sys2Proof.Machine

/-- Shift left, zeros in from the right (00_scope R13). -/
def shiftLeft (a : Word) (n : BitVec 5) : Word := a <<< n.toNat

/-- Shift right, zeros in from the left (00_scope R13). -/
def shiftRightLogical (a : Word) (n : BitVec 5) : Word := a >>> n.toNat

/-- Shift right, copies of bit 31 in from the left (00_scope R13). -/
def shiftRightArith (a : Word) (n : BitVec 5) : Word := a.sshiftRight n.toNat

end Sys2Proof.Machine
end

