-- ==== Sys2Proof/Machine/AluImmediate.lean ====
section
/-! DEFINITION. The nine ALU operations with an immediate (46_alu_immediate R220 to R229). -/

namespace Sys2Proof.Machine

/-- ADDI (R221). -/
def execAddi (rd rs1 : RegIdx) (imm : BitVec 12) (s : State) : Result :=
  .next (aluImm (· + ·) rd rs1 (imm12 imm) s)

/-- SLTI (R222). -/
def execSlti (rd rs1 : RegIdx) (imm : BitVec 12) (s : State) : Result :=
  .next (aluImm setLess rd rs1 (imm12 imm) s)

/-- SLTIU (R223). -/
def execSltiu (rd rs1 : RegIdx) (imm : BitVec 12) (s : State) : Result :=
  .next (aluImm setLessUnsigned rd rs1 (imm12 imm) s)

/-- XORI (R224). -/
def execXori (rd rs1 : RegIdx) (imm : BitVec 12) (s : State) : Result :=
  .next (aluImm (· ^^^ ·) rd rs1 (imm12 imm) s)

/-- ORI (R225). -/
def execOri (rd rs1 : RegIdx) (imm : BitVec 12) (s : State) : Result :=
  .next (aluImm (· ||| ·) rd rs1 (imm12 imm) s)

/-- ANDI (R226). -/
def execAndi (rd rs1 : RegIdx) (imm : BitVec 12) (s : State) : Result :=
  .next (aluImm (· &&& ·) rd rs1 (imm12 imm) s)

/-- SLLI (R227). -/
def execSlli (rd rs1 : RegIdx) (shamt : BitVec 5) (s : State) : Result :=
  .next (shiftImm shiftLeft rd rs1 shamt s)

/-- SRLI (R228). -/
def execSrli (rd rs1 : RegIdx) (shamt : BitVec 5) (s : State) : Result :=
  .next (shiftImm shiftRightLogical rd rs1 shamt s)

/-- SRAI (R229). -/
def execSrai (rd rs1 : RegIdx) (shamt : BitVec 5) (s : State) : Result :=
  .next (shiftImm shiftRightArith rd rs1 shamt s)

end Sys2Proof.Machine
end

