-- ==== Sys2Proof/Machine/AluRegister.lean ====
section
/-! DEFINITION. The ten ALU operations on two registers (47_alu_register R240 to R251). -/

namespace Sys2Proof.Machine

/-- ADD (R242). -/
def execAdd (rd rs1 rs2 : RegIdx) (s : State) : Result :=
  .next (aluReg (· + ·) rd rs1 rs2 s)

/-- SUB (R243). -/
def execSub (rd rs1 rs2 : RegIdx) (s : State) : Result :=
  .next (aluReg (· - ·) rd rs1 rs2 s)

/-- SLL (R244). -/
def execSll (rd rs1 rs2 : RegIdx) (s : State) : Result :=
  .next (aluReg (fun a b => shiftLeft a (shiftAmount b)) rd rs1 rs2 s)

/-- SLT (R245). -/
def execSlt (rd rs1 rs2 : RegIdx) (s : State) : Result :=
  .next (aluReg setLess rd rs1 rs2 s)

/-- SLTU (R246). -/
def execSltu (rd rs1 rs2 : RegIdx) (s : State) : Result :=
  .next (aluReg setLessUnsigned rd rs1 rs2 s)

/-- XOR (R247). -/
def execXor (rd rs1 rs2 : RegIdx) (s : State) : Result :=
  .next (aluReg (· ^^^ ·) rd rs1 rs2 s)

/-- SRL (R248). -/
def execSrl (rd rs1 rs2 : RegIdx) (s : State) : Result :=
  .next (aluReg (fun a b => shiftRightLogical a (shiftAmount b)) rd rs1 rs2 s)

/-- SRA (R249). -/
def execSra (rd rs1 rs2 : RegIdx) (s : State) : Result :=
  .next (aluReg (fun a b => shiftRightArith a (shiftAmount b)) rd rs1 rs2 s)

/-- OR (R250). -/
def execOr (rd rs1 rs2 : RegIdx) (s : State) : Result :=
  .next (aluReg (· ||| ·) rd rs1 rs2 s)

/-- AND (R251). -/
def execAnd (rd rs1 rs2 : RegIdx) (s : State) : Result :=
  .next (aluReg (· &&& ·) rd rs1 rs2 s)

end Sys2Proof.Machine
end

