-- ==== Sys2Proof/Machine/Branches.lean ====
section
/-! DEFINITION. The six conditional branches (43_branches R180 to R186). -/

namespace Sys2Proof.Machine

/-- BEQ (R181): branch if equal. -/
def execBeq (rs1 rs2 : RegIdx) (offset : BitVec 13) (s : State) : Result :=
  .next (branchIf equal rs1 rs2 offset s)

/-- BNE (R182): branch if not equal. -/
def execBne (rs1 rs2 : RegIdx) (offset : BitVec 13) (s : State) : Result :=
  .next (branchIf (fun a b => !equal a b) rs1 rs2 offset s)

/-- BLT (R183): branch if less than, signed. -/
def execBlt (rs1 rs2 : RegIdx) (offset : BitVec 13) (s : State) : Result :=
  .next (branchIf lessSigned rs1 rs2 offset s)

/-- BGE (R184): branch if greater than or equal, signed: the negation of BLT's condition. -/
def execBge (rs1 rs2 : RegIdx) (offset : BitVec 13) (s : State) : Result :=
  .next (branchIf (fun a b => !lessSigned a b) rs1 rs2 offset s)

/-- BLTU (R185): branch if less than, unsigned. -/
def execBltu (rs1 rs2 : RegIdx) (offset : BitVec 13) (s : State) : Result :=
  .next (branchIf lessUnsigned rs1 rs2 offset s)

/-- BGEU (R186): branch if greater than or equal, unsigned: the negation of BLTU's condition. -/
def execBgeu (rs1 rs2 : RegIdx) (offset : BitVec 13) (s : State) : Result :=
  .next (branchIf (fun a b => !lessUnsigned a b) rs1 rs2 offset s)

end Sys2Proof.Machine
end

