-- ==== Sys2Proof/Machine/FenceSystem.lean ====
section
/-! DEFINITION. FENCE, ECALL and EBREAK (49_fence_system R280 to R285). -/

namespace Sys2Proof.Machine

/-- FENCE (R280): no effect, whatever the ignored bits. The step retires it. -/
def execFence (_ignoredRd _ignoredRs1 : RegIdx) (_ignoredImm : BitVec 12) (s : State) : Result := .next s

/-- ECALL (R282): halt, no report. -/
def execEcall (s : State) : Result := .next s.halt

/-- EBREAK (R285): halt, no report. -/
def execEbreak (s : State) : Result := .next s.halt

end Sys2Proof.Machine
end

