-- ==== Sys2Proof/Machine/Jumps.lean ====
section
/-! DEFINITION. JAL and JALR (42_jumps). The target is not checked here (R170). -/

namespace Sys2Proof.Machine

/-- JAL (R171). -/
def execJal (rd : RegIdx) (offset : BitVec 21) (s : State) : Result :=
  .next ((s.writeReg rd s.link).setNextPc (s.pc + offset21 offset))

/-- JALR (R172): the target is computed from the old `x[rs1]`, before `rd` is written. -/
def execJalr (rd rs1 : RegIdx) (imm : BitVec 12) (s : State) : Result :=
  .next ((s.writeReg rd s.link).setNextPc (s.jalrTarget rs1 imm))

end Sys2Proof.Machine
end

