-- ==== Sys2Proof/Machine/Loads.lean ====
section
/-! DEFINITION. The five loads (44_loads R195 to R201): base register plus displacement, the read, the extension. -/

namespace Sys2Proof.Machine

/-- `sext_8` (00_scope R14). -/
def signExtend8 (v : Word) : Word := (v.extractLsb' 0 8).signExtend 32

/-- `sext_16` (00_scope R14). -/
def signExtend16 (v : Word) : Word := (v.extractLsb' 0 16).signExtend 32

/-- `zext_8` (00_scope R14). -/
def zeroExtend8 (v : Word) : Word := (v.extractLsb' 0 8).zeroExtend 32

/-- `zext_16` (00_scope R14). -/
def zeroExtend16 (v : Word) : Word := (v.extractLsb' 0 16).zeroExtend 32

/-- LB (R197): load byte, signed. -/
def execLb (rd rs1 : RegIdx) (imm : BitVec 12) (s : State) : Result :=
  .next (s.loadInto .byte signExtend8 rd (s.address rs1 imm))

/-- LH (R198): load half-word, signed. -/
def execLh (rd rs1 : RegIdx) (imm : BitVec 12) (s : State) : Result :=
  .next (s.loadInto .half signExtend16 rd (s.address rs1 imm))

/-- LW (R199): load word. -/
def execLw (rd rs1 : RegIdx) (imm : BitVec 12) (s : State) : Result :=
  .next (s.loadInto .word id rd (s.address rs1 imm))

/-- LBU (R200): load byte, unsigned. -/
def execLbu (rd rs1 : RegIdx) (imm : BitVec 12) (s : State) : Result :=
  .next (s.loadInto .byte zeroExtend8 rd (s.address rs1 imm))

/-- LHU (R201): load half-word, unsigned. -/
def execLhu (rd rs1 : RegIdx) (imm : BitVec 12) (s : State) : Result :=
  .next (s.loadInto .half zeroExtend16 rd (s.address rs1 imm))

end Sys2Proof.Machine
end

