-- ==== Sys2Proof/Machine/MulDiv.lean ====
section
/-! DEFINITION. Multiply, divide and remainder (48_muldiv R260 to R270): operands read as integers, the exact result narrowed at
the end. -/

namespace Sys2Proof.Machine

/-- `INT_MIN`, the dividend of the overflow pair (48_muldiv R268). -/
def mostNegative : Word := 0x80000000#32

/-- The all-ones word, -1 (48_muldiv R265, R266). -/
def allOnes : Word := 0xFFFFFFFF#32

/-- Bits 63 to 32 of an exact product (48_muldiv R262). -/
def highWord (product : Int) : Word := (BitVec.ofInt 64 product).extractLsb' 32 32

/-- The low word of the product (R261). -/
def mulLow (a b : Word) : Word := a * b

/-- Signed by signed (R262). -/
def mulHigh (a b : Word) : Word := highWord (a.toInt * b.toInt)

/-- Signed by unsigned (R263); which operand is signed is the spec's G8 (log entry 24). -/
def mulHighSignedUnsigned (a b : Word) : Word := highWord (a.toInt * b.toNat)

/-- Unsigned by unsigned (R264). -/
def mulHighUnsigned (a b : Word) : Word := highWord (a.toNat * b.toNat)

/-- Signed quotient rounded toward zero; all ones for a zero divisor; the overflow pair wraps (R265, R268; log entry 9). -/
def divSigned (a b : Word) : Word :=
  if b = 0#32 then allOnes
  else if a = mostNegative ∧ b = allOnes then mostNegative
  else BitVec.ofInt 32 (a.toInt.tdiv b.toInt)

/-- Unsigned quotient; all ones for a zero divisor (R266). -/
def divUnsigned (a b : Word) : Word := if b = 0#32 then allOnes else BitVec.ofNat 32 (a.toNat / b.toNat)

/-- Signed remainder, `a - b * trunc(a / b)`; the dividend for a zero divisor; the overflow pair gives 0 (R267, R268; log
entry 9). -/
def remSigned (a b : Word) : Word :=
  if b = 0#32 then a
  else if a = mostNegative ∧ b = allOnes then 0#32
  else BitVec.ofInt 32 (a.toInt - b.toInt * a.toInt.tdiv b.toInt)

/-- Unsigned remainder; the dividend for a zero divisor (R269). -/
def remUnsigned (a b : Word) : Word := if b = 0#32 then a else BitVec.ofNat 32 (a.toNat % b.toNat)

/-- MUL (R261). -/
def execMul (rd rs1 rs2 : RegIdx) (s : State) : Result :=
  .next (aluReg mulLow rd rs1 rs2 s)

/-- MULH (R262). -/
def execMulh (rd rs1 rs2 : RegIdx) (s : State) : Result :=
  .next (aluReg mulHigh rd rs1 rs2 s)

/-- MULHSU (R263). -/
def execMulhsu (rd rs1 rs2 : RegIdx) (s : State) : Result :=
  .next (aluReg mulHighSignedUnsigned rd rs1 rs2 s)

/-- MULHU (R264). -/
def execMulhu (rd rs1 rs2 : RegIdx) (s : State) : Result :=
  .next (aluReg mulHighUnsigned rd rs1 rs2 s)

/-- DIV (R265). -/
def execDiv (rd rs1 rs2 : RegIdx) (s : State) : Result :=
  .next (aluReg divSigned rd rs1 rs2 s)

/-- DIVU (R266). -/
def execDivu (rd rs1 rs2 : RegIdx) (s : State) : Result :=
  .next (aluReg divUnsigned rd rs1 rs2 s)

/-- REM (R267). -/
def execRem (rd rs1 rs2 : RegIdx) (s : State) : Result :=
  .next (aluReg remSigned rd rs1 rs2 s)

/-- REMU (R269). -/
def execRemu (rd rs1 rs2 : RegIdx) (s : State) : Result :=
  .next (aluReg remUnsigned rd rs1 rs2 s)

end Sys2Proof.Machine
end

