-- ==== Sys2Proof/Machine/Stores.lean ====
section
/-! DEFINITION. The three stores (45_stores R210 to R214). The whole register is handed to the write (R210). -/

namespace Sys2Proof.Machine

/-- SB (R212): store byte. -/
def execSb (rs1 rs2 : RegIdx) (imm : BitVec 12) (s : State) : Result :=
  .next (s.storeTo .byte (s.address rs1 imm) (s.readReg rs2))

/-- SH (R213): store half-word. -/
def execSh (rs1 rs2 : RegIdx) (imm : BitVec 12) (s : State) : Result :=
  .next (s.storeTo .half (s.address rs1 imm) (s.readReg rs2))

/-- SW (R214): store word. -/
def execSw (rs1 rs2 : RegIdx) (imm : BitVec 12) (s : State) : Result :=
  .next (s.storeTo .word (s.address rs1 imm) (s.readReg rs2))

end Sys2Proof.Machine
end

