-- ==== Sys2Proof/Machine/UpperImmediate.lean ====
section
/-! DEFINITION. LUI and AUIPC (41_upper_immediate). -/

namespace Sys2Proof.Machine

/-- LUI (R160). -/
def execLui (rd : RegIdx) (imm : BitVec 20) (s : State) : Result := .next (s.writeReg rd (imm20 imm))

/-- AUIPC (R161): `pc` is the address of the AUIPC itself. -/
def execAuipc (rd : RegIdx) (imm : BitVec 20) (s : State) : Result := .next (s.writeReg rd (s.pc + imm20 imm))

end Sys2Proof.Machine
end

