-- ==== Sys2Proof/Machine/Step.lean ====
section
/-! DEFINITION. The step (40_cycle R141) and the placing of an instruction for it. -/

namespace Sys2Proof.Machine

/-- Dispatch, execution and the end of a step, for the word just fetched (40_cycle R144 to R147). -/
def stepWord (s : State) (iw : Word) : Host.Outcome State Fault Refusal :=
  match decodeWord iw with
  | .error _ => .next ((s.fetched iw).decodeError iw)
  | .ok i =>
    match exec i (s.fetched iw) with
    | .next t => .next t.retire
    | .fault f => .fault f
    | .refused r => .refused r

/-- One step (40_cycle R141). A configuration outside 00_scope R10 is refused; `Halted` has no step (R148). The step
takes no input from outside and no time (log entries 17, 19, 22); `exec` is its Execute part alone (log entry 21). -/
def step (s : State) : Host.Outcome State Fault Refusal :=
  if s.platform.wf then
    if s.halted then .fault .halted
    else
      match s.fetch with
      | .error e => .next (s.fetchFault e)
      | .ok iw => stepWord s iw
  else .refused .platformOutsideSpec

/-- `s` with the instruction whose bits are `w` (numbered as spec/opcode_table.json numbers them, every bit from `nbits` up
zero) where `step` fetches next. -/
def State.withFetchWord (s : State) (nbits w : Nat) : State := s.placeFetchWord (BitVec.ofNat 32 (w % 2 ^ nbits))

end Sys2Proof.Machine
end

