-- ==== Sys2Proof/Machine/Ports.lean ====
section
/-! DEFINITION. The block's interfaces as functions of an access, a report or a state (40_cycle R150, R151). The spec lets a
model take `MemRead`, `MemWrite` and the streams as they stand in Ops; this file says which requests they amount to. `clk`
has no meaning (R153) and `rst` is `State.resetFor` and `State.warmReset` (log entry 18). -/

namespace Sys2Proof.Machine

/-- A request on the RAM port: `ram_we`, `ram_width`, `ram_off`, `ram_wdata`. The spec gives `ram_wdata` as the store value
only, so what stands there on a read is open (see `ramReadRequest`). -/
structure RamRequest where
  we : Bool
  width : BitVec 2
  off : Word
  wdata : Word
  deriving DecidableEq, Repr

/-- A request on the console port: `con_sel`, `con_value`. -/
structure ConsoleRequest where
  sel : BitVec 2
  value : Word
  deriving DecidableEq, Repr

/-- A request on the report port: `rpt_kind`, `rpt_err`, `rpt_pc`, `rpt_info`. -/
structure ReportRequest where
  kind : BitVec 2
  err : BitVec 1
  pc : Word
  info : Word
  deriving DecidableEq, Repr

/-- The status interface: `halted`, `pc_o`, `instret_o`, `iw_o`, `x_o[1..31]`. -/
structure Status where
  halted : Bool
  pc : Word
  instret : Count
  iw : Word
  x : List Word
  deriving DecidableEq, Repr

/-- `ram_width`: `00` Byte, `01` Half, `10` Word. -/
def Width.code : Width → BitVec 2
  | .byte => 0b00#2
  | .half => 0b01#2
  | .word => 0b10#2

/-- The width a `ram_width` code stands for. `11` is never driven; that it is read as Word is the model's own (DESIGN CHOICE, log
entry 18). -/
def widthOfCode (c : BitVec 2) : Width := if c = 0b00#2 then .byte else if c = 0b01#2 then .half else .word

/-- The offset of an address in RAM, `addr - MEMORY_BASE`. -/
def ramOffset (p : Platform) (a : Word) : Word := a - p.memoryBase

/-- The RAM request of a read: only an access that passed all checks makes one. The spec leaves `ram_wdata` open for a read; that
it is 0 is the model's own (DESIGN CHOICE, log entry 18), and nothing reads it. -/
def ramReadRequest (p : Platform) (a : Word) (w : Width) : Option RamRequest :=
  match checkAccess p a w with
  | .ram => some { we := false, width := w.code, off := ramOffset p a, wdata := 0#32 }
  | _ => none

/-- The RAM request of a write. -/
def ramWriteRequest (p : Platform) (a : Word) (w : Width) (v : Word) : Option RamRequest :=
  match checkAccess p a w with
  | .ram => some { we := true, width := w.code, off := ramOffset p a, wdata := v }
  | _ => none

/-- The console request of a write: only the window's offsets 0, 4 and 8 make one. -/
def consoleRequest (p : Platform) (a v : Word) : Option ConsoleRequest :=
  if regionOf p a = .console then
    let o := a.toNat - p.consoleBase.toNat
    if o = 0 then some { sel := 0b00#2, value := v }
    else if o = 4 then some { sel := 0b01#2, value := v }
    else if o = 8 then some { sel := 0b10#2, value := v }
    else none
  else none

/-- What RAM answers to a read request, `ram_rdata`: little-endian, zero-extended. R151 gives `ram_rdata` as the bytes read only,
so its value on a write request is open; that it is then the bytes held at the offset before the write is the model's own
(DESIGN CHOICE, log entry 18), and nothing reads it. So is its value for an offset the block never drives: one outside RAM or
not aligned. -/
def ramRdata (p : Platform) (m : Memory) (r : RamRequest) : Word :=
  m.load (p.memoryBase.toNat + r.off.toNat) (widthOfCode r.width)

/-- What RAM holds after a request. What a write does at an offset the block never drives, one outside RAM or not aligned, R151
leaves open; that it lands at that offset is the model's own (DESIGN CHOICE, log entry 18). -/
def ramAfter (p : Platform) (m : Memory) : Option RamRequest → Memory
  | none => m
  | some r => if r.we then m.store (p.memoryBase.toNat + r.off.toNat) (widthOfCode r.width) r.wdata else m

/-- What the console sink receives for a request (60_exceptions R320). R151 gives `con_sel` the codes `00`, `01` and `10` only
and says nothing of `11`; that the sink receives nothing for it is the model's own (DESIGN CHOICE, log entry 18), and
`consoleRequest` never drives it. -/
def consoleEmitted : Option ConsoleRequest → List Byte
  | none => []
  | some r =>
    if r.sel = 0b00#2 then charText r.value
    else if r.sel = 0b01#2 then decimalText r.value
    else if r.sel = 0b10#2 then hexText r.value
    else []

/-- `rpt_kind` (60_exceptions R302). -/
def ReportKind.code : ReportKind → BitVec 2
  | .fetchFault => 0b00#2
  | .decodeError => 0b01#2
  | .loadFault => 0b10#2
  | .storeFault => 0b11#2

/-- `rpt_err` (60_exceptions R302). -/
def ReportError.code : ReportError → BitVec 1
  | .outOfRange => 0#1
  | .misaligned => 1#1
  | .unknownOpcode => 0#1

/-- A record as it leaves on the report port. For a pair of kind and error that R302 does not list, and no step reports, that
each is coded by itself is the model's own (DESIGN CHOICE, log entry 18). -/
def Report.request (r : Report) : ReportRequest :=
  { kind := r.kind.code, err := r.error.code, pc := r.pc, info := r.info }

/-- What the host reads after a halt (R151, 70_reset R347). -/
def State.status (s : State) : Status :=
  { halted := s.halted, pc := s.pc, instret := s.instructionsExecuted, iw := s.instructionWord,
    x := (List.range 31).map fun i => s.readReg (BitVec.ofNat 5 (i + 1)) }

end Sys2Proof.Machine
end

