-- ==== Sys2Proof/Machine/Run.lean ====
section
/-! DEFINITION. Runs (40_cycle R149, 70_reset R348). -/

namespace Sys2Proof.Machine

/-- A run from a state, under fuel (40_cycle R149): steps are taken until `halted` is set, the flag checked once before each
step. Nothing but `halted` and the fuel ends it: there is no interrupt and no timeout. It answers the state reached: if that
state is `Halted`, the run has ended there (70_reset R348); if it is `Running`, the fuel ended and the run has not (log entry
25). -/
def run : Nat → State → Result
  | 0, s => .next s
  | fuel + 1, s =>
    if s.halted then .next s
    else
      match step s with
      | .next t => run fuel t
      | .fault f => .fault f
      | .refused r => .refused r

/-- The run of an image: the cold start, the one kind of run the spec defines (70_reset R341), and then the steps. -/
def runImage (p : Platform) (image : List Byte) (fuel : Nat) : Result :=
  match boot p image with
  | .next s => run fuel s
  | .fault f => .fault f
  | .refused r => .refused r

end Sys2Proof.Machine
end

