-- ==== Sys2Proof/Safety.lean ====
section
/-! DEFINITION. The terms claims are stated in: where an address lies, what one instruction changes and leaves, the
invariant every step keeps, and what a program can observe. -/

namespace Sys2Proof.Machine

/-! ### Addresses -/

/-- `a` lies in the console window (20_memory R51). -/
abbrev InConsole (p : Platform) (a : Word) : Prop :=
  p.consoleBase.toNat ≤ a.toNat ∧ a.toNat < p.consoleBase.toNat + 12

/-- `a` lies in RAM (20_memory R51). -/
abbrev InRam (p : Platform) (a : Word) : Prop :=
  p.memoryBase.toNat ≤ a.toNat ∧ a.toNat < p.memoryBase.toNat + p.memorySize

/-- `a` lies in neither range. -/
abbrev Unmapped (p : Platform) (a : Word) : Prop := ¬ InConsole p a ∧ ¬ InRam p a

/-! ### Frames -/

/-- No register changes. -/
def SameRegs (s t : State) : Prop := ∀ r, t.readReg r = s.readReg r

/-- No byte of memory changes. -/
def SameBytes (s t : State) : Prop := ∀ a, t.mem.read a = s.mem.read a

/-- What no instruction but a halting one touches while it executes: the parameters, `pc`, `instruction_word`, `halted` and
the counter. -/
structure SameControl (s t : State) : Prop where
  platform : t.platform = s.platform
  pc : t.pc = s.pc
  instructionWord : t.instructionWord = s.instructionWord
  halted : t.halted = s.halted
  instructionsExecuted : t.instructionsExecuted = s.instructionsExecuted

/-- Neither stream changes. -/
structure SameStreams (s t : State) : Prop where
  console : t.console = s.console
  reports : t.reports = s.reports

/-- `t` is `s` with `x[rd]` at `v`, and with nothing else changed. For `rd = 0` no register changes. -/
structure WritesRegister (s t : State) (rd : RegIdx) (v : Word) : Prop where
  reg : ∀ r, t.readReg r = if r = rd ∧ r ≠ 0#5 then v else s.readReg r
  nextPc : t.nextPc = s.nextPc
  control : SameControl s t
  bytes : SameBytes s t
  streams : SameStreams s t

/-- `t` is `s` with `x[rd]` at `v` and `next_pc` at `target`, and with nothing else changed. -/
structure JumpsTo (s t : State) (rd : RegIdx) (v target : Word) : Prop where
  reg : ∀ r, t.readReg r = if r = rd ∧ r ≠ 0#5 then v else s.readReg r
  nextPc : t.nextPc = target
  control : SameControl s t
  bytes : SameBytes s t
  streams : SameStreams s t

/-- `t` is `s` with `next_pc` at `target`, and with nothing else changed. -/
structure SetsNextPc (s t : State) (target : Word) : Prop where
  regs : SameRegs s t
  nextPc : t.nextPc = target
  control : SameControl s t
  bytes : SameBytes s t
  streams : SameStreams s t

/-- `t` is `s` with the low `n` bytes of `v` stored at `a` and the addresses after it, least significant byte first, and with
every other byte and everything else unchanged. -/
structure StoresBytes (s t : State) (a : Word) (n : Nat) (v : Word) : Prop where
  stored : ∀ i, i < n → (t.mem.read (a.toNat + i)).toNat = v.toNat / 256 ^ i % 256
  others : ∀ b, b < a.toNat ∨ a.toNat + n ≤ b → t.mem.read b = s.mem.read b
  regs : SameRegs s t
  nextPc : t.nextPc = s.nextPc
  control : SameControl s t
  streams : SameStreams s t

/-- `t` is `s` with `text` appended to the console stream, and with nothing else changed. -/
structure Emits (s t : State) (text : List Byte) : Prop where
  console : t.console = s.console ++ text
  reports : t.reports = s.reports
  regs : SameRegs s t
  nextPc : t.nextPc = s.nextPc
  control : SameControl s t
  bytes : SameBytes s t

/-- `t` is `s` with one record appended to the report stream, and with nothing else changed. -/
structure Reports (s t : State) (k : ReportKind) (e : ReportError) (info : Word) : Prop where
  reports : t.reports = s.reports ++ [⟨k, e, s.pc, info⟩]
  console : t.console = s.console
  regs : SameRegs s t
  nextPc : t.nextPc = s.nextPc
  control : SameControl s t
  bytes : SameBytes s t

/-! ### The invariant -/

/-- What every step keeps: a legal configuration, RAM in canonical form and inside its range, the unused slot of the register
file at zero, even `pc` and `next_pc`, and `next_pc` equal to `pc` but after a halt past the fetch. -/
structure State.Inv (s : State) : Prop where
  platform : s.platform.wf
  memCanonical : s.mem.wf = true
  memInRam : s.mem.within s.platform.memoryBase.toNat (s.platform.memoryBase.toNat + s.platform.memorySize) = true
  zeroSlot : s.regs[0] = 0#32
  pcEven : s.pc.getLsbD 0 = false
  nextPcEven : s.nextPc.getLsbD 0 = false
  nextPcIs : s.nextPc = s.pc ∨ (s.halted = true ∧ s.nextPc = s.pc + 4#32)

/-! ### Observation -/

/-- The two states agree on everything a program can observe (10_state R34): configuration, `pc`, registers, RAM, and
whether the machine runs. They may differ in `next_pc`, `instruction_word`, the counter and the two streams. -/
structure SameVisible (s t : State) : Prop where
  platform : t.platform = s.platform
  pc : t.pc = s.pc
  regs : SameRegs s t
  bytes : SameBytes s t
  halted : t.halted = s.halted

/-! ### What halted the machine -/

/-- The report stream ends with a record of this kind whose `pc` is the state's own: what the host looks for in the final state
(60_exceptions R307). -/
def State.LastRecordIs (t : State) (k : ReportKind) : Prop := ∃ r, t.reports.getLast? = some r ∧ r.kind = k ∧ r.pc = t.pc

/-- No record that a halt makes stands in the report stream. -/
def State.NoHaltRecord (s : State) : Prop := ∀ r ∈ s.reports, r.kind ≠ .fetchFault ∧ r.kind ≠ .decodeError

/-- While the machine runs, its report stream holds no record that a halt makes. Every step keeps this and every boot gives it. A
warm reset keeps the stream (70_reset R341), so it can break it. -/
def State.HaltRecordsMeanHalted (s : State) : Prop := s.halted = false → s.NoHaltRecord

/-! ### Encodings -/

/-- Every word that matches the row decodes to the instruction built from its fields. -/
def RowDecodes (mask bits : Word) (build : Word → Instr) : Prop :=
  ∀ iw : Word, iw &&& mask = bits → decodeWord iw = .ok (build iw)

end Sys2Proof.Machine
end

