-- ==== Sys2Proof/Certificates/Slice0/Obligations.lean ====
section
/-! DEFINITION. The statements for the provers. Each docstring names the rules of the spec it formalises. Values are written in
integer arithmetic or from the instruction word's bits, not with the model's own operations. A statement that rests on a
decision of the spec (92_eei_decisions) says so. The `Row…` clauses state the encoding each rule gives; the spec takes most
opcode, funct3 and funct7 values and the scrambled offset layouts from general knowledge (93_implementation_defined G1 to G5;
log entry 6), and the value 1 or 0 of a set-less-than (G6). -/

namespace Sys2Proof.Machine

/-- The pc-relative target `pc + offset`, modulo `2^32`. -/
def relative (pc : Word) (offset : Int) : Word := BitVec.ofInt 32 (pc.toNat + offset)

/-- The effective address `x[rs1] + imm`, modulo `2^32` (44_loads R195, 45_stores R210). -/
def effective (s : State) (rs1 : RegIdx) (imm : BitVec 12) : Word := BitVec.ofInt 32 ((s.readReg rs1).toNat + imm.toInt)

/-- `iw[31] ++ iw[7] ++ iw[30:25] ++ iw[11:8] ++ 0` (30_encoding R98). -/
def branchOffsetBits (iw : Word) : BitVec 13 :=
  iw.extractLsb' 31 1 ++ iw.extractLsb' 7 1 ++ iw.extractLsb' 25 6 ++ iw.extractLsb' 8 4 ++ 0#1

/-- `iw[31] ++ iw[19:12] ++ iw[20] ++ iw[30:21] ++ 0` (30_encoding R100). -/
def jumpOffsetBits (iw : Word) : BitVec 21 :=
  iw.extractLsb' 31 1 ++ iw.extractLsb' 12 8 ++ iw.extractLsb' 20 1 ++ iw.extractLsb' 21 10 ++ 0#1

/-- Rows of the R format. -/
def RowR (bits : Word) (mk : RegIdx → RegIdx → RegIdx → Instr) : Prop :=
  RowDecodes 0xFE00707F#32 bits fun iw => mk (iw.extractLsb' 7 5) (iw.extractLsb' 15 5) (iw.extractLsb' 20 5)

/-- Rows of the I format with `rd`, `rs1` and `imm_i`. -/
def RowI (bits : Word) (mk : RegIdx → RegIdx → BitVec 12 → Instr) : Prop :=
  RowDecodes 0x0000707F#32 bits fun iw => mk (iw.extractLsb' 7 5) (iw.extractLsb' 15 5) (iw.extractLsb' 20 12)

/-- Rows of the S format. -/
def RowS (bits : Word) (mk : RegIdx → RegIdx → BitVec 12 → Instr) : Prop :=
  RowDecodes 0x0000707F#32 bits fun iw =>
    mk (iw.extractLsb' 15 5) (iw.extractLsb' 20 5) (iw.extractLsb' 25 7 ++ iw.extractLsb' 7 5)

/-- Rows of the B format. -/
def RowB (bits : Word) (mk : RegIdx → RegIdx → BitVec 13 → Instr) : Prop :=
  RowDecodes 0x0000707F#32 bits fun iw => mk (iw.extractLsb' 15 5) (iw.extractLsb' 20 5) (branchOffsetBits iw)

/-- A two-register operation completes in every state and writes `f(x[rs1], x[rs2])` to `x[rd]`, and nothing else. -/
def RegisterResult (mk : RegIdx → RegIdx → RegIdx → Instr) (f : Word → Word → Word) : Prop :=
  ∀ (s : State) (rd rs1 rs2 : RegIdx),
    ∃ t, exec (mk rd rs1 rs2) s = .next t ∧ WritesRegister s t rd (f (s.readReg rs1) (s.readReg rs2))

/-- An operation with a 12-bit immediate completes in every state and writes `f(x[rs1], imm)` to `x[rd]`, and nothing
else. -/
def ImmediateResult (mk : RegIdx → RegIdx → BitVec 12 → Instr) (f : Word → BitVec 12 → Word) : Prop :=
  ∀ (s : State) (rd rs1 : RegIdx) (imm : BitVec 12),
    ∃ t, exec (mk rd rs1 imm) s = .next t ∧ WritesRegister s t rd (f (s.readReg rs1) imm)

/-- A shift by an immediate amount completes in every state and writes `f(x[rs1], shamt)` to `x[rd]`, and nothing else. -/
def ShiftResult (mk : RegIdx → RegIdx → BitVec 5 → Instr) (f : Word → Nat → Word) : Prop :=
  ∀ (s : State) (rd rs1 : RegIdx) (shamt : BitVec 5),
    ∃ t, exec (mk rd rs1 shamt) s = .next t ∧ WritesRegister s t rd (f (s.readReg rs1) shamt.toNat)

/-- A branch completes in every state: `next_pc` is `pc + offset` when the condition holds and is left alone when not, and
nothing else changes (43_branches R180). -/
def BranchResult (mk : RegIdx → RegIdx → BitVec 13 → Instr) (cond : Word → Word → Prop) : Prop :=
  ∀ (s : State) (rs1 rs2 : RegIdx) (offset : BitVec 13),
    ∃ t, exec (mk rs1 rs2 offset) s = .next t ∧
      (cond (s.readReg rs1) (s.readReg rs2) → SetsNextPc s t (relative s.pc offset.toInt)) ∧
      (¬ cond (s.readReg rs1) (s.readReg rs2) → SetsNextPc s t s.nextPc)

/-- A load of `n` bytes completes in every legal configuration: from the console window it writes 0; from RAM, aligned, it
writes the value of the bytes at the address; and when the access fails it appends the LoadFault record and writes no
register (44_loads R195 to R201). -/
def LoadResult (mk : RegIdx → RegIdx → BitVec 12 → Instr) (n : Nat) (value : Memory → Nat → Word) : Prop :=
  ∀ (s : State) (rd rs1 : RegIdx) (imm : BitVec 12), s.platform.wf →
    ∃ t, exec (mk rd rs1 imm) s = .next t ∧
      (InConsole s.platform (effective s rs1 imm) → WritesRegister s t rd 0#32) ∧
      (InRam s.platform (effective s rs1 imm) → (effective s rs1 imm).toNat % n = 0 →
        WritesRegister s t rd (value s.mem (effective s rs1 imm).toNat)) ∧
      (InRam s.platform (effective s rs1 imm) → (effective s rs1 imm).toNat % n ≠ 0 →
        Reports s t .loadFault .misaligned (effective s rs1 imm)) ∧
      (Unmapped s.platform (effective s rs1 imm) → Reports s t .loadFault .outOfRange (effective s rs1 imm))

/-- A store of `n` bytes completes in every legal configuration: to RAM, aligned, it stores the low bytes of `x[rs2]` at the
effective address and leaves every other byte; in the console window it appends the low byte as a character at offset 0 and
nothing at the offsets other than 0, 4 and 8; and when the access fails it appends the StoreFault record and changes no
byte. -/
def StoreResult (mk : RegIdx → RegIdx → BitVec 12 → Instr) (n : Nat) : Prop :=
  ∀ (s : State) (rs1 rs2 : RegIdx) (imm : BitVec 12), s.platform.wf → s.mem.wf = true →
    ∃ t, exec (mk rs1 rs2 imm) s = .next t ∧
      (InRam s.platform (effective s rs1 imm) → (effective s rs1 imm).toNat % n = 0 →
        StoresBytes s t (effective s rs1 imm) n (s.readReg rs2)) ∧
      (InRam s.platform (effective s rs1 imm) → (effective s rs1 imm).toNat % n ≠ 0 →
        Reports s t .storeFault .misaligned (effective s rs1 imm)) ∧
      (Unmapped s.platform (effective s rs1 imm) → Reports s t .storeFault .outOfRange (effective s rs1 imm)) ∧
      (effective s rs1 imm = s.platform.consoleBase → Emits s t [(s.readReg rs2).extractLsb' 0 8]) ∧
      (∀ o : Nat, o < 12 → o ≠ 0 → o ≠ 4 → o ≠ 8 →
        (effective s rs1 imm).toNat = s.platform.consoleBase.toNat + o → Emits s t [])

/-- A store to the console window's offsets 4 and 8 completes and emits all of `x[rs2]` as a number, whatever its width. -/
def ConsoleNumber (mk : RegIdx → RegIdx → BitVec 12 → Instr) : Prop :=
  ∀ (s : State) (rs1 rs2 : RegIdx) (imm : BitVec 12), s.platform.wf →
    ∃ t, exec (mk rs1 rs2 imm) s = .next t ∧
      ((effective s rs1 imm).toNat = s.platform.consoleBase.toNat + 4 → Emits s t (decimalText (s.readReg rs2))) ∧
      ((effective s rs1 imm).toNat = s.platform.consoleBase.toNat + 8 → Emits s t (hexText (s.readReg rs2)))

/-- `pc` after the step of an instruction (the table of 10_state R26). -/
def pcAfter (s : State) : Instr → Word
  | .jal _ offset => relative s.pc offset.toInt
  | .jalr _ rs1 imm => BitVec.ofNat 32 ((effective s rs1 imm).toNat / 2 * 2)
  | .beq rs1 rs2 offset => if s.readReg rs1 = s.readReg rs2 then relative s.pc offset.toInt else s.pc + 4#32
  | .bne rs1 rs2 offset => if s.readReg rs1 ≠ s.readReg rs2 then relative s.pc offset.toInt else s.pc + 4#32
  | .blt rs1 rs2 offset =>
    if (s.readReg rs1).toInt < (s.readReg rs2).toInt then relative s.pc offset.toInt else s.pc + 4#32
  | .bge rs1 rs2 offset =>
    if (s.readReg rs2).toInt ≤ (s.readReg rs1).toInt then relative s.pc offset.toInt else s.pc + 4#32
  | .bltu rs1 rs2 offset =>
    if (s.readReg rs1).toNat < (s.readReg rs2).toNat then relative s.pc offset.toInt else s.pc + 4#32
  | .bgeu rs1 rs2 offset =>
    if (s.readReg rs2).toNat ≤ (s.readReg rs1).toNat then relative s.pc offset.toInt else s.pc + 4#32
  | .ecall => s.pc
  | .ebreak => s.pc
  | _ => s.pc + 4#32

/-- The immediate an instruction of the I, S or U format uses is the one of its word (30_encoding R96, R97, R99). -/
def usesImmediateOf (iw : Word) : Instr → Prop
  | .jalr _ _ imm | .lb _ _ imm | .lh _ _ imm | .lw _ _ imm | .lbu _ _ imm | .lhu _ _ imm | .addi _ _ imm
  | .slti _ _ imm | .sltiu _ _ imm | .xori _ _ imm | .ori _ _ imm | .andi _ _ imm => imm12 imm = immI iw
  | .sb _ _ imm | .sh _ _ imm | .sw _ _ imm => imm12 imm = immS iw
  | .lui _ imm | .auipc _ imm => imm20 imm = immU iw
  | _ => True

/-- The access of `n` bytes at `a` fails with the error of this code (60_exceptions R302): 0 OutOfRange, 1 Misaligned. -/
def AccessFails (p : Platform) (a : Word) (n : Nat) (err : BitVec 1) : Prop :=
  (err = 0#1 ∧ Unmapped p a) ∨ (err = 1#1 ∧ InRam p a ∧ a.toNat % n ≠ 0)

/-- What the final state `t` of a halting step from `s` tells of the cause (60_exceptions R307): a last record of kind
FetchFault or DecodeError with the final `pc` is there exactly when the fetch failed or the word was illegal; otherwise, and only
then, the word was ECALL or EBREAK, and `instruction_word` holds which. -/
def CauseReadFrom (s t : State) : Prop :=
  (t.LastRecordIs .fetchFault ↔ ∃ e, s.fetch = .error e) ∧
  (t.LastRecordIs .decodeError ↔ ∃ iw e, s.fetch = .ok iw ∧ decodeWord iw = .error e) ∧
  (¬ t.LastRecordIs .fetchFault ∧ ¬ t.LastRecordIs .decodeError ↔
    s.fetch = .ok 0x00000073#32 ∨ s.fetch = .ok 0x00100073#32) ∧
  (¬ t.LastRecordIs .fetchFault ∧ ¬ t.LastRecordIs .decodeError →
    s.fetch = .ok t.instructionWord ∧ (t.instructionWord = 0x00000073#32 ∨ t.instructionWord = 0x00100073#32))

end Sys2Proof.Machine

open Sys2Proof Sys2Proof.Machine

/-! ### Results, frames and completion of every instruction -/

/-- LUI and AUIPC (41_upper_immediate R160, R161; the opcode values by general knowledge, log entry 6). -/
def Obligations.UpperImmediateRules : Prop :=
  RowDecodes 0x0000007F#32 0x00000037#32 (fun iw => .lui (iw.extractLsb' 7 5) (iw.extractLsb' 12 20)) ∧
  RowDecodes 0x0000007F#32 0x00000017#32 (fun iw => .auipc (iw.extractLsb' 7 5) (iw.extractLsb' 12 20)) ∧
  (∀ (s : State) (rd : RegIdx) (imm : BitVec 20), ∃ t, exec (.lui rd imm) s = .next t ∧
    WritesRegister s t rd (BitVec.ofNat 32 (imm.toNat * 4096))) ∧
  (∀ (s : State) (rd : RegIdx) (imm : BitVec 20), ∃ t, exec (.auipc rd imm) s = .next t ∧
    WritesRegister s t rd (BitVec.ofNat 32 (s.pc.toNat + imm.toNat * 4096)))

/-- JAL and JALR; JALR's target is the even number at or below the sum, from the old `x[rs1]` (42_jumps R171, R172; the opcode
values and JAL's offset layout by general knowledge and the spec's decision D4, log entry 6). -/
def Obligations.JumpRules : Prop :=
  RowDecodes 0x0000007F#32 0x0000006F#32 (fun iw => .jal (iw.extractLsb' 7 5) (jumpOffsetBits iw)) ∧
  RowI 0x00000067#32 .jalr ∧
  (∀ (s : State) (rd : RegIdx) (offset : BitVec 21), ∃ t, exec (.jal rd offset) s = .next t ∧
    JumpsTo s t rd (BitVec.ofNat 32 (s.pc.toNat + 4)) (relative s.pc offset.toInt)) ∧
  (∀ (s : State) (rd rs1 : RegIdx) (imm : BitVec 12), ∃ t, exec (.jalr rd rs1 imm) s = .next t ∧
    JumpsTo s t rd (BitVec.ofNat 32 (s.pc.toNat + 4)) (BitVec.ofNat 32 ((effective s rs1 imm).toNat / 2 * 2)))

/-- The six branches (43_branches R181 to R186; the opcode values and the offset layout by general knowledge and the spec's
decision D4, log entry 6). -/
def Obligations.BranchRules : Prop :=
  (RowB 0x00000063#32 .beq ∧ BranchResult .beq fun a b => a = b) ∧
  (RowB 0x00001063#32 .bne ∧ BranchResult .bne fun a b => a ≠ b) ∧
  (RowB 0x00004063#32 .blt ∧ BranchResult .blt fun a b => a.toInt < b.toInt) ∧
  (RowB 0x00005063#32 .bge ∧ BranchResult .bge fun a b => b.toInt ≤ a.toInt) ∧
  (RowB 0x00006063#32 .bltu ∧ BranchResult .bltu fun a b => a.toNat < b.toNat) ∧
  (RowB 0x00007063#32 .bgeu ∧ BranchResult .bgeu fun a b => b.toNat ≤ a.toNat)

/-- The five loads (44_loads R195 to R201, 20_memory R56, 60_exceptions R302; the encodings by general knowledge and the spec's
decision D3, log entry 6; the form of the record its decision D14, log entry 11). -/
def Obligations.LoadRules : Prop :=
  (RowI 0x00000003#32 .lb ∧ LoadResult .lb 1 fun m a => BitVec.ofInt 32 (m.read a).toInt) ∧
  (RowI 0x00001003#32 .lh ∧ LoadResult .lh 2 fun m a => BitVec.ofInt 32 (m.read (a + 1) ++ m.read a).toInt) ∧
  (RowI 0x00002003#32 .lw ∧ LoadResult .lw 4 fun m a => BitVec.ofNat 32
    ((m.read a).toNat + 256 * (m.read (a + 1)).toNat + 65536 * (m.read (a + 2)).toNat +
      16777216 * (m.read (a + 3)).toNat)) ∧
  (RowI 0x00004003#32 .lbu ∧ LoadResult .lbu 1 fun m a => BitVec.ofNat 32 (m.read a).toNat) ∧
  (RowI 0x00005003#32 .lhu ∧ LoadResult .lhu 2 fun m a =>
    BitVec.ofNat 32 ((m.read a).toNat + 256 * (m.read (a + 1)).toNat))

/-- The three stores (45_stores R210 to R214, 20_memory R61, 60_exceptions R302, R320, R321; the encodings by general knowledge
and the spec's decision D3, log entry 6; the raw character at offset 0 its decision D19, log entry 10; the form of the record its
decision D14, log entry 11). -/
def Obligations.StoreRules : Prop :=
  (RowS 0x00000023#32 .sb ∧ StoreResult .sb 1) ∧
  (RowS 0x00001023#32 .sh ∧ StoreResult .sh 2) ∧
  (RowS 0x00002023#32 .sw ∧ StoreResult .sw 4)

/-- Stores of every width to the console window's offsets 4 and 8 emit the whole register: the spec's decision D12
(45_stores R210; log entry 8). -/
def Obligations.StoresToConsoleEmitTheWholeRegister : Prop :=
  ConsoleNumber .sb ∧ ConsoleNumber .sh ∧ ConsoleNumber .sw

/-- The six operations with a 12-bit immediate (46_alu_immediate R221 to R226; the opcode values and the 1 or 0 of SLTI and
SLTIU by general knowledge, log entry 6). -/
def Obligations.AluImmediateRules : Prop :=
  (RowI 0x00000013#32 .addi ∧ ImmediateResult .addi fun a imm => BitVec.ofInt 32 (a.toNat + imm.toInt)) ∧
  (RowI 0x00002013#32 .slti ∧ ImmediateResult .slti fun a imm => if a.toInt < imm.toInt then 1#32 else 0#32) ∧
  (RowI 0x00003013#32 .sltiu ∧ ImmediateResult .sltiu fun a imm =>
    if a.toNat < (BitVec.ofInt 32 imm.toInt).toNat then 1#32 else 0#32) ∧
  (RowI 0x00004013#32 .xori ∧ ImmediateResult .xori fun a imm => a ^^^ BitVec.ofInt 32 imm.toInt) ∧
  (RowI 0x00006013#32 .ori ∧ ImmediateResult .ori fun a imm => a ||| BitVec.ofInt 32 imm.toInt) ∧
  (RowI 0x00007013#32 .andi ∧ ImmediateResult .andi fun a imm => a &&& BitVec.ofInt 32 imm.toInt)

/-- The shifts by an immediate amount, as multiplication and division by a power of two. The strict encoding of
`iw[31:25]` is the spec's decision D5 (30_encoding R101; log entry 6). -/
def Obligations.ShiftImmediateRules : Prop :=
  (RowDecodes 0xFE00707F#32 0x00001013#32 (fun iw =>
      .slli (iw.extractLsb' 7 5) (iw.extractLsb' 15 5) (iw.extractLsb' 20 5)) ∧
    ShiftResult .slli fun a n => BitVec.ofNat 32 (a.toNat * 2 ^ n)) ∧
  (RowDecodes 0xFE00707F#32 0x00005013#32 (fun iw =>
      .srli (iw.extractLsb' 7 5) (iw.extractLsb' 15 5) (iw.extractLsb' 20 5)) ∧
    ShiftResult .srli fun a n => BitVec.ofNat 32 (a.toNat / 2 ^ n)) ∧
  (RowDecodes 0xFE00707F#32 0x40005013#32 (fun iw =>
      .srai (iw.extractLsb' 7 5) (iw.extractLsb' 15 5) (iw.extractLsb' 20 5)) ∧
    ShiftResult .srai fun a n => BitVec.ofInt 32 (a.toInt / 2 ^ n))

/-- The ten operations on two registers (47_alu_register R242 to R251; the opcode values, the 1 or 0 of SLT and SLTU and what
the shifts fill with by general knowledge, log entry 6). -/
def Obligations.AluRegisterRules : Prop :=
  (RowR 0x00000033#32 .add ∧ RegisterResult .add fun a b => BitVec.ofNat 32 (a.toNat + b.toNat)) ∧
  (RowR 0x40000033#32 .sub ∧ RegisterResult .sub fun a b => BitVec.ofInt 32 (a.toInt - b.toInt)) ∧
  (RowR 0x00001033#32 .sll ∧ RegisterResult .sll fun a b => BitVec.ofNat 32 (a.toNat * 2 ^ (b.toNat % 32))) ∧
  (RowR 0x00002033#32 .slt ∧ RegisterResult .slt fun a b => if a.toInt < b.toInt then 1#32 else 0#32) ∧
  (RowR 0x00003033#32 .sltu ∧ RegisterResult .sltu fun a b => if a.toNat < b.toNat then 1#32 else 0#32) ∧
  (RowR 0x00004033#32 .xor ∧ RegisterResult .xor fun a b => a ^^^ b) ∧
  (RowR 0x00005033#32 .srl ∧ RegisterResult .srl fun a b => BitVec.ofNat 32 (a.toNat / 2 ^ (b.toNat % 32))) ∧
  (RowR 0x40005033#32 .sra ∧ RegisterResult .sra fun a b => BitVec.ofInt 32 (a.toInt / 2 ^ (b.toNat % 32))) ∧
  (RowR 0x00006033#32 .or ∧ RegisterResult .or fun a b => a ||| b) ∧
  (RowR 0x00007033#32 .and ∧ RegisterResult .and fun a b => a &&& b)

/-- The four multiplications (48_muldiv R260 to R264); the low word is the same for the signed and the unsigned reading. That
MULHSU takes `rs1` as signed and `rs2` as unsigned is the spec's G8 (log entry 24); the encodings are by general knowledge and its
decision D3 (log entry 6). -/
def Obligations.MultiplyRules : Prop :=
  (RowR 0x02000033#32 .mul ∧ RegisterResult .mul (fun a b => BitVec.ofInt 32 (a.toInt * b.toInt)) ∧
    RegisterResult .mul fun a b => BitVec.ofNat 32 (a.toNat * b.toNat)) ∧
  (RowR 0x02001033#32 .mulh ∧ RegisterResult .mulh fun a b => BitVec.ofInt 32 (a.toInt * b.toInt / 2 ^ 32)) ∧
  (RowR 0x02002033#32 .mulhsu ∧ RegisterResult .mulhsu fun a b =>
    BitVec.ofInt 32 (a.toInt * (b.toNat : Int) / 2 ^ 32)) ∧
  (RowR 0x02003033#32 .mulhu ∧ RegisterResult .mulhu fun a b => BitVec.ofNat 32 (a.toNat * b.toNat / 2 ^ 32))

/-- DIVU and REMU (48_muldiv R260, R266, R269; the encodings by general knowledge and the spec's decision D3, log entry 6). -/
def Obligations.UnsignedDivisionRules : Prop :=
  (RowR 0x02005033#32 .divu ∧ RegisterResult .divu fun a b =>
    if b = 0#32 then 0xFFFFFFFF#32 else BitVec.ofNat 32 (a.toNat / b.toNat)) ∧
  (RowR 0x02007033#32 .remu ∧ RegisterResult .remu fun a b =>
    if b = 0#32 then a else BitVec.ofNat 32 (a.toNat % b.toNat))

/-- DIV and REM. The results for the overflow pair are the spec's decision D9 (48_muldiv R268; log entry 9); the rounding
toward zero and the remainder's sign it takes from general knowledge (93_implementation_defined G7). -/
def Obligations.SignedDivisionRules : Prop :=
  (RowR 0x02004033#32 .div ∧ RegisterResult .div fun a b =>
    if b = 0#32 then 0xFFFFFFFF#32
    else if a = 0x80000000#32 ∧ b = 0xFFFFFFFF#32 then 0x80000000#32
    else BitVec.ofInt 32 (a.toInt.tdiv b.toInt)) ∧
  (RowR 0x02006033#32 .rem ∧ RegisterResult .rem fun a b =>
    if b = 0#32 then a
    else if a = 0x80000000#32 ∧ b = 0xFFFFFFFF#32 then 0#32
    else BitVec.ofInt 32 (a.toInt.tmod b.toInt))

/-- FENCE completes with no effect, whatever its ignored bits, and so does every word of its row: the spec's decision D7
(49_fence_system R280; log entry 6). -/
def Obligations.FenceHasNoEffect : Prop :=
  RowI 0x0000000F#32 .fence ∧
  ∀ (s : State) (rd rs1 : RegIdx) (imm : BitVec 12), exec (.fence rd rs1 imm) s = .next s

/-- ECALL and EBREAK complete by setting `halted` and nothing else, and their step makes no commit and no report. That `pc`
stays is the spec's decision D10, the word of EBREAK its decision D8 (49_fence_system R282, R283, R285; log entry 4). -/
def Obligations.EcallAndEbreakHalt : Prop :=
  (∀ s : State, exec .ecall s = .next { s with halted := true }) ∧
  (∀ s : State, exec .ebreak s = .next { s with halted := true }) ∧
  (∀ (s : State) (iw : Word), s.platform.wf → s.halted = false → s.fetch = .ok iw →
    iw = 0x00000073#32 ∨ iw = 0x00100073#32 →
    step s = .next { s with instructionWord := iw, nextPc := s.pc + 4#32, halted := true })

/-- For a non-zero divisor the quotient and the remainder rebuild the dividend modulo `2^32`, signed (the overflow pair
included, the spec's decision D9) and unsigned; the remainder is smaller than the divisor and its sign is the dividend's
(48_muldiv, corner cases of REM; log entry 9). -/
def Obligations.QuotientAndRemainderRebuildTheDividend : Prop :=
  ∀ a b : Word, b ≠ 0#32 →
    divSigned a b * b + remSigned a b = a ∧
    (remSigned a b).toInt.natAbs < b.toInt.natAbs ∧
    (0 ≤ a.toInt → 0 ≤ (remSigned a b).toInt) ∧ (a.toInt ≤ 0 → (remSigned a b).toInt ≤ 0) ∧
    divUnsigned a b * b + remUnsigned a b = a ∧ (remUnsigned a b).toNat < b.toNat

/-- Register 0 reads 0 in every state, a write to it changes nothing, and an instruction of the ALU, upper-immediate or
multiply and divide groups with `rd = x0` completes with no effect (10_state R21, 30_encoding R114). -/
def Obligations.RegisterZeroIsHardwired : Prop :=
  (∀ s : State, s.readReg 0#5 = 0#32) ∧
  (∀ (s : State) (v : Word), s.writeReg 0#5 v = s) ∧
  (∀ (s : State) (imm : BitVec 20), exec (.lui 0#5 imm) s = .next s ∧ exec (.auipc 0#5 imm) s = .next s) ∧
  (∀ (s : State) (rs1 : RegIdx) (imm : BitVec 12),
    ∀ mk ∈ [Instr.addi, .slti, .sltiu, .xori, .ori, .andi], exec (mk 0#5 rs1 imm) s = .next s) ∧
  (∀ (s : State) (rs1 : RegIdx) (n : BitVec 5), ∀ mk ∈ [Instr.slli, .srli, .srai], exec (mk 0#5 rs1 n) s = .next s) ∧
  (∀ (s : State) (rs1 rs2 : RegIdx),
    ∀ mk ∈ [Instr.add, .sub, .sll, .slt, .sltu, .xor, .srl, .sra, .or, .and, .mul, .mulh, .mulhsu, .mulhu, .div, .divu,
      .rem, .remu], exec (mk 0#5 rs1 rs2) s = .next s)

/-! ### Memory -/

/-- R56, R58: what a read answers, in the order of the checks; the value is little-endian and zero-extended. -/
def Obligations.ReadRule : Prop :=
  ∀ (s : State) (a : Word) (w : Width), s.platform.wf →
    (InConsole s.platform a → memRead s a w = .ok 0#32) ∧
    (Unmapped s.platform a → memRead s a w = .error .outOfRange) ∧
    (InRam s.platform a → a.toNat % w.bytes ≠ 0 → memRead s a w = .error .misaligned) ∧
    (InRam s.platform a → a.toNat % w.bytes = 0 →
      ∃ v, memRead s a w = .ok v ∧
        v.toNat = ((List.range w.bytes).map fun i => (s.mem.read (a.toNat + i)).toNat * 256 ^ i).sum)

/-- What a write does, in the order of the checks (20_memory R55, R57, R61, R62). That a write of any width hands the console the
whole value is the spec's decision D12 (log entry 8). -/
def Obligations.WriteRule : Prop :=
  ∀ (s : State) (a : Word) (w : Width) (v : Word), s.platform.wf → s.mem.wf = true →
    (InConsole s.platform a → ∃ t, memWrite s a w v = .ok t ∧
      Emits s t (if a.toNat = s.platform.consoleBase.toNat then charText v
        else if a.toNat = s.platform.consoleBase.toNat + 4 then decimalText v
        else if a.toNat = s.platform.consoleBase.toNat + 8 then hexText v else [])) ∧
    (Unmapped s.platform a → memWrite s a w v = .error .outOfRange) ∧
    (InRam s.platform a → a.toNat % w.bytes ≠ 0 → memWrite s a w v = .error .misaligned) ∧
    (InRam s.platform a → a.toNat % w.bytes = 0 → ∃ t, memWrite s a w v = .ok t ∧ StoresBytes s t a w.bytes v)

/-- A word written is read back at every width, byte by byte and half by half (20_memory R64). -/
def Obligations.StoredWordReadsBackAtEveryWidth : Prop :=
  ∀ (s : State) (a v : Word), s.platform.wf → s.mem.wf = true → InRam s.platform a → a.toNat % 4 = 0 →
    ∃ t, memWrite s a .word v = .ok t ∧
      memRead t a .word = .ok v ∧
      memRead t a .half = .ok ((v.extractLsb' 0 16).zeroExtend 32) ∧
      memRead t (a + 2#32) .half = .ok ((v.extractLsb' 16 16).zeroExtend 32) ∧
      ∀ i, i < 4 → memRead t (a + BitVec.ofNat 32 i) .byte = .ok ((v.extractLsb' (8 * i) 8).zeroExtend 32)

/-- A write to RAM made twice leaves the same state as made once (20_memory R66). -/
def Obligations.RamWriteIsIdempotent : Prop :=
  ∀ (s t : State) (a : Word) (w : Width) (v : Word), s.platform.wf → s.mem.wf = true → InRam s.platform a →
    memWrite s a w v = .ok t → memWrite t a w v = .ok t

/-- An access that passes the checks ends inside RAM and does not wrap (20_memory R63, the spec's decision D15; log
entry 2). -/
def Obligations.CheckedAccessStaysInRam : Prop :=
  ∀ (p : Platform) (a : Word) (w : Width), p.wf → InRam p a → a.toNat % w.bytes = 0 →
    a.toNat + w.bytes ≤ p.memoryBase.toNat + p.memorySize ∧ a.toNat + w.bytes ≤ 2 ^ 32

/-- A word stored by SW is what the next fetch of that address reads: self-modifying code needs no synchronisation
(20_memory R78). -/
def Obligations.StoredWordIsFetched : Prop :=
  ∀ (s : State) (rs1 rs2 : RegIdx) (imm : BitVec 12), s.platform.wf → s.mem.wf = true →
    InRam s.platform (effective s rs1 imm) → (effective s rs1 imm).toNat % 4 = 0 →
    ∃ t, exec (.sw rs1 rs2 imm) s = .next t ∧
      State.fetch { t with pc := effective s rs1 imm } = .ok (s.readReg rs2)

/-- RAM and the console change and answer as the requests of the accesses on their ports say, and the requests are made for
nothing else (40_cycle R150, R151, the spec's decision D1; log entry 18). A RAM request, read or write, is made only for an
access that passed every check; it names the offset of an address of RAM, lies inside RAM, and has a driven width code and the
right write enable; a write's data is the stored value. A failed access makes no request, and an access in the console window
makes none on the RAM port. A console request is made only by a write, at offset 0, 4 or 8 of the window, and carries the whole
value. The report port is `RecordsLeaveOnTheReportPort`. -/
def Obligations.AccessesAreTheirPortRequests : Prop :=
  ∀ (s : State) (a : Word) (w : Width) (v : Word), s.platform.wf →
    (∀ t, memWrite s a w v = .ok t →
      t.mem = ramAfter s.platform s.mem (ramWriteRequest s.platform a w v) ∧
      t.console = s.console ++ consoleEmitted (consoleRequest s.platform a v)) ∧
    (∀ e, memWrite s a w v = .error e →
      ramWriteRequest s.platform a w v = none ∧ consoleRequest s.platform a v = none) ∧
    (∀ x, memRead s a w = .ok x →
      x = match ramReadRequest s.platform a w with
        | some r => ramRdata s.platform s.mem r
        | none => 0#32) ∧
    (∀ e, memRead s a w = .error e → ramReadRequest s.platform a w = none) ∧
    (InConsole s.platform a → ramReadRequest s.platform a w = none ∧ ramWriteRequest s.platform a w v = none ∧
      memRead s a w = .ok 0#32) ∧
    (∀ r, ramReadRequest s.platform a w = some r ∨ ramWriteRequest s.platform a w v = some r →
      InRam s.platform a ∧ a.toNat % w.bytes = 0 ∧ r.off.toNat = a.toNat - s.platform.memoryBase.toNat ∧
      r.off.toNat + w.bytes ≤ s.platform.memorySize ∧ r.width ≠ 0b11#2) ∧
    (∀ r, ramReadRequest s.platform a w = some r → r.we = false) ∧
    (∀ r, ramWriteRequest s.platform a w v = some r → r.we = true ∧ r.wdata = v) ∧
    (∀ r, consoleRequest s.platform a v = some r →
      r.value = v ∧ InConsole s.platform a ∧ r.sel ≠ 0b11#2 ∧
      a.toNat = s.platform.consoleBase.toNat + 4 * r.sel.toNat)

/-- The decimal and hexadecimal texts: digits of the value with no leading zero, `-` before a negative decimal, lowercase
hexadecimal digits, nothing else (60_exceptions R322, R323, the spec's decision D19; log entry 10). -/
def Obligations.ConsoleTextsSpellTheValue : Prop :=
  ∀ v : Word,
    (∃ ds : List Nat, ds ≠ [] ∧ (∀ d ∈ ds, d < 10) ∧ (ds.head? = some 0 → ds = [0]) ∧
      ds.foldl (fun n d => 10 * n + d) 0 = v.toInt.natAbs ∧
      decimalText v = (if v.toInt < 0 then [45#8] else []) ++ ds.map fun d => BitVec.ofNat 8 (48 + d)) ∧
    (∃ ds : List Nat, ds ≠ [] ∧ (∀ d ∈ ds, d < 16) ∧ (ds.head? = some 0 → ds = [0]) ∧
      ds.foldl (fun n d => 16 * n + d) 0 = v.toNat ∧
      hexText v = ds.map fun d => BitVec.ofNat 8 (if d < 10 then 48 + d else 87 + d))

/-! ### Reset and boot -/

/-- The state after reset in any configuration (the table of 10_state R36; every value but `pc`, `x[0]` and RAM is the spec's
decision D13, log entry 5). -/
def Obligations.ResetState : Prop :=
  ∀ p : Platform, ∃ s, State.resetFor p = s ∧ s.platform = p ∧ s.pc = p.memoryBase ∧ s.nextPc = p.memoryBase ∧
    s.instructionWord = 0#32 ∧ (∀ r, s.readReg r = 0#32) ∧ s.halted = false ∧ s.instructionsExecuted = 0#64 ∧
    (∀ a, s.mem.read a = 0#8) ∧ s.console = [] ∧ s.reports = []

/-- The reset of a used machine loads the registers of the block and keeps RAM and the streams; it leaves `Halted`
(70_reset R341, 10_state R29, the spec's decisions D13 and D18; log entry 17). -/
def Obligations.WarmResetKeepsRamAndStreams : Prop :=
  ∀ s : State, s.warmReset.halted = false ∧ s.warmReset.pc = s.platform.memoryBase ∧
    s.warmReset.nextPc = s.platform.memoryBase ∧ s.warmReset.instructionWord = 0#32 ∧
    s.warmReset.instructionsExecuted = 0#64 ∧ (∀ r, s.warmReset.readReg r = 0#32) ∧
    s.warmReset.platform = s.platform ∧ s.warmReset.mem = s.mem ∧ s.warmReset.console = s.console ∧
    s.warmReset.reports = s.reports

/-- At the first fetch RAM is the image from its base up and zero after it, whatever the image, and the first
instruction word is the image's first four bytes, little-endian (20_memory R53, 70_reset R345). An image longer than
RAM has no run: that `boot` refuses it by name is the model's own (DEDUCED, log entry 16). -/
def Obligations.BootLoadsTheImage : Prop :=
  ∀ (p : Platform) (image : List Byte), p.wf →
    (image.length ≤ p.memorySize → ∃ s, boot p image = .next s ∧ s.pc = p.memoryBase ∧
      (∀ i, s.mem.read (p.memoryBase.toNat + i) = image.getD i 0#8) ∧
      s.fetch = .ok (image.getD 3 0#8 ++ image.getD 2 0#8 ++ image.getD 1 0#8 ++ image.getD 0 0#8)) ∧
    (p.memorySize < image.length → boot p image = .refused .imageTooLarge)

/-- With an empty image the run is one step: a DecodeError of the zero word at the base of RAM (70_reset R346). -/
def Obligations.EmptyImageHaltsAtOnce : Prop :=
  ∀ p : Platform, p.wf → ∃ s t, boot p [] = .next s ∧ step s = .next t ∧ t.halted = true ∧ t.pc = p.memoryBase ∧
    t.instructionsExecuted = 0#64 ∧ t.reports = [⟨.decodeError, .unknownOpcode, p.memoryBase, 0#32⟩]

/-- The invariant holds after reset in every legal configuration. -/
def Obligations.ResetHasTheInvariant : Prop :=
  State.Inv State.reset ∧ ∀ p : Platform, p.wf → State.Inv (State.resetFor p)

/-- The invariant holds after every boot. -/
def Obligations.BootHasTheInvariant : Prop :=
  ∀ (p : Platform) (image : List Byte) (s : State), boot p image = .next s → State.Inv s

/-- A word placed for the next step is what the next step fetches, in every legal configuration (log entry 15). -/
def Obligations.PlacedWordIsFetched : Prop :=
  ∀ (s : State) (iw : Word), s.platform.wf → s.mem.wf = true →
    (s.withFetchWord 32 iw.toNat).fetch = .ok iw ∧ (s.withFetchWord 32 iw.toNat).halted = false ∧
    SameRegs s (s.withFetchWord 32 iw.toNat)

/-! ### The step -/

/-- When the bytes at `pc` decode to an instruction, the step is that instruction's meaning between the fetch
(`instruction_word`, `next_pc = pc + 4`) and the commit, which a halting instruction does not make (40_cycle R141). -/
def Obligations.StepRunsTheDecodedInstruction : Prop :=
  ∀ (s : State) (i : Instr), s.platform.wf → s.halted = false → InRam s.platform s.pc → s.pc.toNat % 4 = 0 →
    decode [s.mem.read s.pc.toNat, s.mem.read (s.pc.toNat + 1), s.mem.read (s.pc.toNat + 2),
      s.mem.read (s.pc.toNat + 3)] = .ok (i, []) →
    i.wf = true ∧
    ∃ t, exec i { s with instructionWord := encode i, nextPc := s.pc + 4#32 } = .next t ∧
      step s = .next (if t.halted then t
        else { t with pc := t.nextPc, instructionsExecuted := t.instructionsExecuted + 1#64 })

/-- A step is refused exactly outside the constraints of 00_scope R10 (the spec's decision D15), there is no step from
`Halted` (40_cycle R148; log entry 3), and every running machine's step completes (70_reset R351). -/
def Obligations.RunningStepAlwaysCompletes : Prop :=
  ∀ s : State,
    (¬ s.platform.wf → step s = .refused .platformOutsideSpec) ∧
    (s.platform.wf → s.halted = true → step s = .fault .halted) ∧
    (s.platform.wf → s.halted = false → ∃ t, step s = .next t)

/-- A failed fetch changes nothing but `halted` and the report stream (60_exceptions R306, 40_cycle R142). That `next_pc` and
`instruction_word` stay is the spec's decision D16 (log entry 4). -/
def Obligations.FetchFaultRule : Prop :=
  ∀ s : State, s.platform.wf → s.halted = false →
    (Unmapped s.platform s.pc → step s = .next { s with
      halted := true, reports := s.reports ++ [⟨.fetchFault, .outOfRange, s.pc, s.pc⟩] }) ∧
    (InRam s.platform s.pc → s.pc.toNat % 4 ≠ 0 → step s = .next { s with
      halted := true, reports := s.reports ++ [⟨.fetchFault, .misaligned, s.pc, s.pc⟩] })

/-- The step of a word that matches no row of the opcode table (40_cycle R145). That every such word has this outcome is the spec's
decision D6 (log entry 6), that `pc` stays and `next_pc` is `pc + 4` its decision D10 (log entry 4). -/
def Obligations.IllegalWordRule : Prop :=
  ∀ (s : State) (iw : Word), s.platform.wf → s.halted = false → s.fetch = .ok iw →
    (∀ r ∈ opcodeTable, iw &&& r.mask ≠ r.bits) →
    step s = .next { s with instructionWord := iw, nextPc := s.pc + 4#32, halted := true,
                            reports := s.reports ++ [⟨.decodeError, .unknownOpcode, s.pc, iw⟩] }

/-- A fetch from the console window, at any alignment, reads the word 0 and ends in a DecodeError (40_cycle R142,
93_implementation_defined U6). -/
def Obligations.FetchFromConsoleIsADecodeError : Prop :=
  ∀ s : State, s.platform.wf → s.halted = false → InConsole s.platform s.pc →
    step s = .next { s with instructionWord := 0#32, nextPc := s.pc + 4#32, halted := true,
                            reports := s.reports ++ [⟨.decodeError, .unknownOpcode, s.pc, 0#32⟩] }

/-- A step that does not halt commits: `pc` becomes `next_pc`, the counter goes up by one, and `x[0]` reads 0 (40_cycle R146). That
the counter wraps at `2^64` is the spec's decision D17 (10_state R30, log entry 12). -/
def Obligations.CommitRule : Prop :=
  ∀ s t : State, step s = .next t → t.halted = false →
    t.pc = t.nextPc ∧ t.instructionsExecuted.toNat = (s.instructionsExecuted.toNat + 1) % 2 ^ 64 ∧ t.readReg 0#5 = 0#32

/-- `pc` and the counter after the step of each instruction (10_state R26, R30). That ECALL and EBREAK leave `pc` is the
spec's decision D10, that a failed load or store counts its decision D11 (log entries 4 and 7). -/
def Obligations.PcAndCounterAfterEachInstruction : Prop :=
  ∀ (s t : State) (iw : Word) (i : Instr), s.fetch = .ok iw → decodeWord iw = .ok i → step s = .next t →
    t.pc = pcAfter s i ∧
    t.instructionsExecuted =
      if i = .ecall ∨ i = .ebreak then s.instructionsExecuted else s.instructionsExecuted + 1#64

/-- What takes the machine from `Running` to `Halted`, and that reset leads back (40_cycle R140, 10_state R29). Which words are
illegal is the spec's decision D6 and the EBREAK word its decision D8 (log entry 6), the way back by reset its decision D18; the
reset clause is about the model's warm reset (log entry 17, DEDUCED in part). -/
def Obligations.HaltCauses : Prop :=
  (∀ s t : State, step s = .next t →
    (t.halted = true ↔
      (∃ e, s.fetch = .error e) ∨ (∃ iw e, s.fetch = .ok iw ∧ decodeWord iw = .error e) ∨
      s.fetch = .ok 0x00000073#32 ∨ s.fetch = .ok 0x00100073#32)) ∧
  (∀ s t : State, s.halted = true → step s ≠ .next t) ∧
  (∀ s : State, s.warmReset.halted = false)

/-- The cause of a halt can be read off the final state alone (60_exceptions R307): after a halting step from a state whose stream
held no FetchFault and no DecodeError record, the premise `RunningHasNoHaltRecord` and `ResetHasNoHaltRecord` give, and so, as
the host sees it, after every run of an image that ends at a halt. Whatever the stream held, a halting step appends one such
record at the final `pc`, or none and then the word is ECALL's or EBREAK's. The record's form is the spec's decision D14 (log
entry 11), that `pc` stays at a halt D10 (log entry 4), which words are illegal D6 and EBREAK's word D8 (log entry 6); the fuel
of a run is log entry 25. -/
def Obligations.HaltCauseIsReadable : Prop :=
  (∀ s t : State, step s = .next t → t.halted = true →
    ((∃ r, t.reports = s.reports ++ [r] ∧ (r.kind = .fetchFault ∨ r.kind = .decodeError) ∧ r.pc = t.pc) ∨
      (t.reports = s.reports ∧ (t.instructionWord = 0x00000073#32 ∨ t.instructionWord = 0x00100073#32))) ∧
    (s.NoHaltRecord → CauseReadFrom s t)) ∧
  ∀ (p : Platform) (image : List Byte) (n : Nat) (t : State), runImage p image n = .next t → t.halted = true →
    ∃ (m : Nat) (s : State), m < n ∧ runImage p image m = .next s ∧ s.halted = false ∧ step s = .next t ∧ CauseReadFrom s t

/-- Both streams only grow; a step makes at most one record, and a step that makes one has no other effect on RAM or the
console; the configuration never changes (60_exceptions R304, R311; 20_memory R52, R75). -/
def Obligations.StreamsAreAppendOnly : Prop :=
  ∀ s t : State, step s = .next t →
    t.platform = s.platform ∧
    ∃ (text : List Byte) (records : List Report),
      t.console = s.console ++ text ∧ t.reports = s.reports ++ records ∧ records.length ≤ 1 ∧
      (records ≠ [] → text = [] ∧ t.mem = s.mem) ∧ ∀ r ∈ records, r.pc = s.pc

/-- A step changes no register but the one its word's `rd` field names, and none when the word is a branch, a store, a
MISC-MEM or SYSTEM word or no instruction, or when the fetch fails (10_state R23). -/
def Obligations.StepChangesOnlyTheDestinationRegister : Prop :=
  ∀ s t : State, step s = .next t →
    (∀ iw, s.fetch = .ok iw → ∀ r, r ≠ iw.extractLsb' 7 5 → t.readReg r = s.readReg r) ∧
    (∀ iw, s.fetch = .ok iw →
      (iw.extractLsb' 0 7 ∈ [0b1100011#7, 0b0100011#7, 0b0001111#7, 0b1110011#7] ∨ ∃ e, decodeWord iw = .error e) →
      SameRegs s t) ∧
    (∀ e, s.fetch = .error e → SameRegs s t)

/-- Only a word of the STORE group changes RAM or the console stream (20_memory R50, 90_conflicts C11). -/
def Obligations.OnlyStoresReachRamAndConsole : Prop :=
  ∀ s t : State, step s = .next t → (∀ iw, s.fetch = .ok iw → iw.extractLsb' 0 7 ≠ 0b0100011#7) →
    t.mem = s.mem ∧ t.console = s.console

/-- Every step keeps the invariant. -/
def Obligations.StepKeepsTheInvariant : Prop :=
  ∀ s t : State, State.Inv s → step s = .next t → State.Inv t

/-- What a program cannot observe has no influence: two running machines that agree on configuration, `pc`, registers and RAM
step to machines that agree again, emitting the same bytes and records, whatever `next_pc`, `instruction_word`, the counter
and the streams hold (10_state R34). -/
def Obligations.HiddenStateHasNoInfluence : Prop :=
  ∀ s t : State, SameVisible s t → s.platform.wf → s.halted = false → s.mem.wf = true → t.mem.wf = true →
    ∃ (s' t' : State) (text : List Byte) (records : List Report),
      step s = .next s' ∧ step t = .next t' ∧ SameVisible s' t' ∧
      s'.console = s.console ++ text ∧ t'.console = t.console ++ text ∧
      s'.reports = s.reports ++ records ∧ t'.reports = t.reports ++ records

/-! ### Encoding -/

/-- The decoder reads back every well-formed instruction from its word, and from its bytes whatever follows them. -/
def Obligations.DecodeOfEncode : Prop :=
  ∀ (i : Instr) (rest : List Byte), i.wf = true →
    decodeWord (encode i) = .ok i ∧ decode (encodeBytes i ++ rest) = .ok (i, rest)

/-- Every word that decodes is the encoding of a well-formed instruction: no bit of a word is dropped. For FENCE, whose other bits
the spec ignores (49_fence_system R280), that the term keeps them is the model's own choice (DESIGN CHOICE, log entry 20). -/
def Obligations.EncodeOfDecode : Prop :=
  ∀ (iw : Word) (i : Instr), decodeWord iw = .ok i → i.wf = true ∧ encode i = iw

/-- The decoder accepts exactly the words that match a row of the opcode table, and the row has the mnemonic of the
instruction decoded (30_encoding R112, R117; that every other word is illegal is the spec's decision D6, log entry 6). -/
def Obligations.DecoderAcceptsExactlyTheTable : Prop :=
  (∀ (iw : Word) (i : Instr), decodeWord iw = .ok i → ∃ r ∈ opcodeTable, iw &&& r.mask = r.bits ∧ r.mnemonic = i.mnemonic) ∧
  (∀ iw : Word, ∀ r ∈ opcodeTable, iw &&& r.mask = r.bits → ∃ i, decodeWord iw = .ok i ∧ i.mnemonic = r.mnemonic)

/-- No word matches two rows of the opcode table (30_encoding R117). -/
def Obligations.OpcodeRowsAreDisjoint : Prop :=
  ∀ iw : Word, opcodeTable.Pairwise fun r q => ¬ (iw &&& r.mask = r.bits ∧ iw &&& q.mask = q.bits)

/-- The illegal encodings inside the known groups and outside them, by name; LUI, AUIPC and JAL have none (30_encoding R112,
R113; the spec's decisions D5 to D8, log entry 6). -/
def Obligations.IllegalEncodingsByGroup : Prop :=
  ∀ (iw : Word) (op : BitVec 7) (f3 : BitVec 3) (f7 : BitVec 7),
    iw.extractLsb' 0 7 = op → iw.extractLsb' 12 3 = f3 → iw.extractLsb' 25 7 = f7 →
    (op ∉ [0x37#7, 0x17#7, 0x6F#7, 0x67#7, 0x63#7, 0x03#7, 0x23#7, 0x13#7, 0x33#7, 0x0F#7, 0x73#7] →
      decodeWord iw = .error .unknownOpcode) ∧
    (op ∈ [0x37#7, 0x17#7, 0x6F#7] → ∃ i, decodeWord iw = .ok i) ∧
    (op = 0x67#7 → f3 ≠ 0#3 → decodeWord iw = .error .jalrFunct3) ∧
    (op = 0x63#7 → f3 ∈ [2#3, 3#3] → decodeWord iw = .error .branchFunct3) ∧
    (op = 0x03#7 → f3 ∈ [3#3, 6#3, 7#3] → decodeWord iw = .error .loadFunct3) ∧
    (op = 0x23#7 → f3 ∈ [3#3, 4#3, 5#3, 6#3, 7#3] → decodeWord iw = .error .storeFunct3) ∧
    (op = 0x13#7 → f3 = 1#3 → f7 ≠ 0#7 → decodeWord iw = .error .shiftFunct7) ∧
    (op = 0x13#7 → f3 = 5#3 → f7 ∉ [0#7, 0x20#7] → decodeWord iw = .error .shiftFunct7) ∧
    (op = 0x33#7 → f7 ∉ [0#7, 0x20#7, 1#7] → decodeWord iw = .error .opFunct7) ∧
    (op = 0x33#7 → f7 = 0x20#7 → f3 ∉ [0#3, 5#3] → decodeWord iw = .error .opFunct7) ∧
    (op = 0x0F#7 → f3 ≠ 0#3 → decodeWord iw = .error .miscMemFunct3) ∧
    (op = 0x73#7 → iw ≠ 0x00000073#32 → iw ≠ 0x00100073#32 → decodeWord iw = .error .systemWord)

/-- R96, R97, R99: the I, S and U immediates, their ranges, and the instructions that use them. -/
def Obligations.ImmediateRules : Prop :=
  ∀ iw : Word,
    (immI iw).toInt = (iw.extractLsb' 20 12).toInt ∧ -2048 ≤ (immI iw).toInt ∧ (immI iw).toInt ≤ 2047 ∧
    (immS iw).toInt = (iw.extractLsb' 25 7 ++ iw.extractLsb' 7 5).toInt ∧
    -2048 ≤ (immS iw).toInt ∧ (immS iw).toInt ≤ 2047 ∧
    immU iw = iw &&& 0xFFFFF000#32 ∧
    ∀ i, decodeWord iw = .ok i → usesImmediateOf iw i

/-- The branch and JAL offsets as numbers: which bit of the word has which weight (30_encoding R98, R100; the layouts are the
spec's decision D4, log entry 6). -/
def Obligations.OffsetBitWeights : Prop :=
  ∀ iw : Word,
    (immB iw).toInt = -4096 * ((iw.extractLsb' 31 1).toNat : Int) + 2048 * (iw.extractLsb' 7 1).toNat +
      32 * (iw.extractLsb' 25 6).toNat + 2 * (iw.extractLsb' 8 4).toNat ∧
    (immJ iw).toInt = -1048576 * ((iw.extractLsb' 31 1).toNat : Int) + 4096 * (iw.extractLsb' 12 8).toNat +
      2048 * (iw.extractLsb' 20 1).toNat + 2 * (iw.extractLsb' 21 10).toNat ∧
    (∀ rs1 rs2 offset, decodeWord iw = .ok (.beq rs1 rs2 offset) → offset13 offset = immB iw) ∧
    (∀ rd offset, decodeWord iw = .ok (.jal rd offset) → offset21 offset = immJ iw)

/-- Words written out bit by bit from the encodings, one or more of each family (30_encoding R93 gives the first two). -/
def Obligations.SampleWordsDecode : Prop :=
  decodeWord 0b000000000101_00000_000_00001_0010011#32 = .ok (.addi 1#5 0#5 5#12) ∧
  decodeWord 0b000000000000_00000_000_00000_1110011#32 = .ok .ecall ∧
  decodeWord 0b00010010001101000101_00101_0110111#32 = .ok (.lui 5#5 0x12345#20) ∧
  decodeWord 0b1_1111111110_1_11111111_00001_1101111#32 = .ok (.jal 1#5 (-4#21)) ∧
  decodeWord 0b1_111111_00010_00001_001_1100_1_1100011#32 = .ok (.bne 1#5 2#5 (-8#13)) ∧
  decodeWord 0b000000000100_00110_010_00101_0000011#32 = .ok (.lw 5#5 6#5 4#12) ∧
  decodeWord 0b1111111_00101_00110_010_11100_0100011#32 = .ok (.sw 6#5 5#5 (-4#12)) ∧
  decodeWord 0b0100000_00100_00110_101_00101_0010011#32 = .ok (.srai 5#5 6#5 4#5) ∧
  decodeWord 0b0100000_00111_00110_000_00101_0110011#32 = .ok (.sub 5#5 6#5 7#5) ∧
  decodeWord 0b0000001_00111_00110_010_00101_0110011#32 = .ok (.mulhsu 5#5 6#5 7#5)

/-! ### Failed accesses, and runs -/

/-- R57: a read or a write at an address in neither range fails with OutOfRange, and has no effect: a load and a store of any width
that make one leave the registers, RAM and the console stream as they were. -/
def Obligations.NeitherRangeFailsWithoutEffect : Prop :=
  ∀ (s : State) (a : Word) (w : Width) (v : Word), Unmapped s.platform a →
    memRead s a w = .error .outOfRange ∧ memWrite s a w v = .error .outOfRange ∧
    (∀ (ext : Word → Word) (rd : RegIdx), SameRegs s (s.loadInto w ext rd a) ∧ SameBytes s (s.loadInto w ext rd a) ∧
      (s.loadInto w ext rd a).console = s.console) ∧
    SameRegs s (s.storeTo w a v) ∧ SameBytes s (s.storeTo w a v) ∧ (s.storeTo w a v).console = s.console

/-- A run (40_cycle R149, 70_reset R348; the fuel is log entry 25). It starts where reset leaves the machine with the image in RAM.
It takes the machine's steps and stops at the first halted state, whatever fuel is left. Fuel can be spent in parts. In a
legal configuration nothing but a halt ends it: with any fuel it arrives at a state, and a machine that at no point fetches from
a bad address, an illegal word, ECALL or EBREAK still runs after any fuel. -/
def Obligations.RunRule : Prop :=
  (∀ (p : Platform) (image : List Byte), p.wf → image.length ≤ p.memorySize →
    ∃ m, boot p image = .next { State.resetFor p with mem := m } ∧
      ∀ n, runImage p image n = run n { State.resetFor p with mem := m }) ∧
  (∀ s t : State, step s = .next t → ∀ n, run (n + 1) s = run n t) ∧
  (∀ s : State, s.halted = true → ∀ n, run n s = .next s) ∧
  (∀ (s t : State) (m n : Nat), run m s = .next t → run (m + n) s = run n t) ∧
  (∀ (s : State) (n : Nat), s.platform.wf → ∃ t, run n s = .next t) ∧
  (∀ s : State, s.platform.wf → s.halted = false →
    (∀ (n : Nat) (t : State), run n s = .next t →
      ∃ iw i, t.fetch = .ok iw ∧ decodeWord iw = .ok i ∧ i ≠ .ecall ∧ i ≠ .ebreak) →
    ∀ n, ∃ t, run n s = .next t ∧ t.halted = false)

/-- Where a run ends is the first halted state, and after `n` units of fuel a machine that still runs has retired exactly `n`
instructions (40_cycle R149, 70_reset R348, 10_state R30; the wrap of the counter is the spec's decision D17, log entry 12; that
failed loads and stores count its decision D11, log entry 7; the fuel is log entry 25). -/
def Obligations.RunEndsAtTheFirstHalt : Prop :=
  ∀ (s t : State) (n : Nat), run n s = .next t →
    (t.halted = true → ∃ m, m ≤ n ∧ run m s = .next t ∧ ∀ k u, k < m → run k s = .next u → u.halted = false) ∧
    (t.halted = false → t.instructionsExecuted = s.instructionsExecuted + BitVec.ofNat 64 n)

/-- The jump to itself, `JAL x0, 0`, runs for ever: after any fuel the machine still runs, at the same `pc`, with nothing changed but
the counter, `instruction_word` and `next_pc` (40_cycle R149 gives the example; its word is by general knowledge, log entry 6; the
fuel is the model's DESIGN CHOICE, log entry 25; the wrap of the counter is the spec's decision D17, log entry 12). -/
def Obligations.SelfJumpNeverHalts : Prop :=
  ∀ s : State, s.platform.wf → s.halted = false → s.fetch = .ok 0x0000006F#32 →
    ∀ n, ∃ t, run n s = .next t ∧ t.halted = false ∧ t.pc = s.pc ∧ SameRegs s t ∧ t.mem = s.mem ∧ t.console = s.console ∧
      t.reports = s.reports ∧ t.instructionsExecuted = s.instructionsExecuted + BitVec.ofNat 64 n

/-! ### Records and the cause of a halt -/

/-- The table of events (60_exceptions R302, 40_cycle R151): a step makes no record, or one, which leaves on the report port with
the step's `pc` and is a row of the table: FetchFault `00` of a failing `pc`, halting; DecodeError `01` with error 0 of an illegal
word, halting; LoadFault `10` of a load word's address and StoreFault `11` of a store word's, not halting, with the error the
access has at the width in `funct3`. The codes and the records' form are the spec's decision D14 (log entry 11), the word's fields
are by general knowledge and its illegality by D6 (log entry 6). -/
def Obligations.RecordsLeaveOnTheReportPort : Prop :=
  ∀ s t : State, step s = .next t →
    t.reports = s.reports ∨
    ∃ r, t.reports = s.reports ++ [r] ∧ r.request.pc = s.pc ∧
      ((r.request.kind = 0b00#2 ∧ r.request.info = s.pc ∧ t.halted = true ∧ AccessFails s.platform s.pc 4 r.request.err) ∨
       (r.request.kind = 0b01#2 ∧ r.request.err = 0#1 ∧ t.halted = true ∧
         ∃ e, s.fetch = .ok r.request.info ∧ decodeWord r.request.info = .error e) ∨
       (t.halted = false ∧ ∃ iw : Word, s.fetch = .ok iw ∧
         AccessFails s.platform r.request.info (2 ^ ((iw.extractLsb' 12 3).toNat % 4)) r.request.err ∧
         ((r.request.kind = 0b10#2 ∧ iw.extractLsb' 0 7 = 0b0000011#7 ∧
            r.request.info = effective s (iw.extractLsb' 15 5) (iw.extractLsb' 20 12)) ∨
          (r.request.kind = 0b11#2 ∧ iw.extractLsb' 0 7 = 0b0100011#7 ∧
            r.request.info = effective s (iw.extractLsb' 15 5) (iw.extractLsb' 25 7 ++ iw.extractLsb' 7 5)))))

/-- Every step keeps it: while the machine runs, no FetchFault and no DecodeError record stands in the stream (60_exceptions R303,
R305, R306, R308, R309). It is the premise under which the cause of a halt can be read off (R307). -/
def Obligations.RunningHasNoHaltRecord : Prop :=
  ∀ s t : State, s.HaltRecordsMeanHalted → step s = .next t → t.HaltRecordsMeanHalted

/-- It holds after reset in every configuration and after every boot, since the stream is then empty (60_exceptions R304). -/
def Obligations.ResetHasNoHaltRecord : Prop :=
  (∀ p : Platform, (State.resetFor p).HaltRecordsMeanHalted) ∧
  ∀ (p : Platform) (image : List Byte) (s : State), boot p image = .next s → s.HaltRecordsMeanHalted
end

