-- ==== Sys2Proof/Laws/Decode.lean ====
section
/-! SUPPORT. The fields of an encoded word, the word rebuilt from its fields, and what a row's mask says of the fields. -/

namespace Sys2Proof

set_option linter.unusedSimpArgs false

section Fields
variable (f7 : BitVec 7) (b a d : RegIdx) (f3 : BitVec 3) (op : BitVec 7) (i12 : BitVec 12) (i20 : BitVec 20)
  (i13 : BitVec 13) (i21 : BitVec 21)

/-! Format R -/

@[simp] theorem opcodeOf_encodeR : opcodeOf (encodeR f7 b a f3 d op) = op := by
  simp (disch := omega) only [opcodeOf, encodeR, BitVec.extractLsb'_append_eq_of_le,
    BitVec.extractLsb'_append_eq_of_add_le, Nat.reduceSub, Nat.sub_self, BitVec.extractLsb'_eq_self]

@[simp] theorem rdOf_encodeR : rdOf (encodeR f7 b a f3 d op) = d := by
  simp (disch := omega) only [rdOf, encodeR, BitVec.extractLsb'_append_eq_of_le,
    BitVec.extractLsb'_append_eq_of_add_le, Nat.reduceSub, Nat.sub_self, BitVec.extractLsb'_eq_self]

@[simp] theorem funct3Of_encodeR : funct3Of (encodeR f7 b a f3 d op) = f3 := by
  simp (disch := omega) only [funct3Of, encodeR, BitVec.extractLsb'_append_eq_of_le,
    BitVec.extractLsb'_append_eq_of_add_le, Nat.reduceSub, Nat.sub_self, BitVec.extractLsb'_eq_self]

@[simp] theorem rs1Of_encodeR : rs1Of (encodeR f7 b a f3 d op) = a := by
  simp (disch := omega) only [rs1Of, encodeR, BitVec.extractLsb'_append_eq_of_le,
    BitVec.extractLsb'_append_eq_of_add_le, Nat.reduceSub, Nat.sub_self, BitVec.extractLsb'_eq_self]

@[simp] theorem rs2Of_encodeR : rs2Of (encodeR f7 b a f3 d op) = b := by
  simp (disch := omega) only [rs2Of, encodeR, BitVec.extractLsb'_append_eq_of_le,
    BitVec.extractLsb'_append_eq_of_add_le, Nat.reduceSub, Nat.sub_self, BitVec.extractLsb'_eq_self]

@[simp] theorem shamtOf_encodeR : shamtOf (encodeR f7 b a f3 d op) = b := by
  simp (disch := omega) only [shamtOf, encodeR, BitVec.extractLsb'_append_eq_of_le,
    BitVec.extractLsb'_append_eq_of_add_le, Nat.reduceSub, Nat.sub_self, BitVec.extractLsb'_eq_self]

@[simp] theorem funct7Of_encodeR : funct7Of (encodeR f7 b a f3 d op) = f7 := by
  simp (disch := omega) only [funct7Of, encodeR, BitVec.extractLsb'_append_eq_of_le,
    BitVec.extractLsb'_append_eq_of_add_le, Nat.reduceSub, Nat.sub_self, BitVec.extractLsb'_eq_self]

/-! Format I -/

@[simp] theorem opcodeOf_encodeI : opcodeOf (encodeI i12 a f3 d op) = op := by
  simp (disch := omega) only [opcodeOf, encodeI, BitVec.extractLsb'_append_eq_of_le,
    BitVec.extractLsb'_append_eq_of_add_le, Nat.reduceSub, Nat.sub_self, BitVec.extractLsb'_eq_self]

@[simp] theorem rdOf_encodeI : rdOf (encodeI i12 a f3 d op) = d := by
  simp (disch := omega) only [rdOf, encodeI, BitVec.extractLsb'_append_eq_of_le,
    BitVec.extractLsb'_append_eq_of_add_le, Nat.reduceSub, Nat.sub_self, BitVec.extractLsb'_eq_self]

@[simp] theorem funct3Of_encodeI : funct3Of (encodeI i12 a f3 d op) = f3 := by
  simp (disch := omega) only [funct3Of, encodeI, BitVec.extractLsb'_append_eq_of_le,
    BitVec.extractLsb'_append_eq_of_add_le, Nat.reduceSub, Nat.sub_self, BitVec.extractLsb'_eq_self]

@[simp] theorem rs1Of_encodeI : rs1Of (encodeI i12 a f3 d op) = a := by
  simp (disch := omega) only [rs1Of, encodeI, BitVec.extractLsb'_append_eq_of_le,
    BitVec.extractLsb'_append_eq_of_add_le, Nat.reduceSub, Nat.sub_self, BitVec.extractLsb'_eq_self]

@[simp] theorem immIField_encodeI : immIField (encodeI i12 a f3 d op) = i12 := by
  simp (disch := omega) only [immIField, encodeI, BitVec.extractLsb'_append_eq_of_le,
    BitVec.extractLsb'_append_eq_of_add_le, Nat.reduceSub, Nat.sub_self, BitVec.extractLsb'_eq_self]

/-! Format S -/

@[simp] theorem opcodeOf_encodeS : opcodeOf (encodeS i12 b a f3 op) = op := by
  simp (disch := omega) only [opcodeOf, encodeS, BitVec.extractLsb'_append_eq_of_le,
    BitVec.extractLsb'_append_eq_of_add_le, Nat.reduceSub, Nat.sub_self, BitVec.extractLsb'_eq_self]

@[simp] theorem funct3Of_encodeS : funct3Of (encodeS i12 b a f3 op) = f3 := by
  simp (disch := omega) only [funct3Of, encodeS, BitVec.extractLsb'_append_eq_of_le,
    BitVec.extractLsb'_append_eq_of_add_le, Nat.reduceSub, Nat.sub_self, BitVec.extractLsb'_eq_self]

@[simp] theorem rs1Of_encodeS : rs1Of (encodeS i12 b a f3 op) = a := by
  simp (disch := omega) only [rs1Of, encodeS, BitVec.extractLsb'_append_eq_of_le,
    BitVec.extractLsb'_append_eq_of_add_le, Nat.reduceSub, Nat.sub_self, BitVec.extractLsb'_eq_self]

@[simp] theorem rs2Of_encodeS : rs2Of (encodeS i12 b a f3 op) = b := by
  simp (disch := omega) only [rs2Of, encodeS, BitVec.extractLsb'_append_eq_of_le,
    BitVec.extractLsb'_append_eq_of_add_le, Nat.reduceSub, Nat.sub_self, BitVec.extractLsb'_eq_self]

/-! Format B -/

@[simp] theorem opcodeOf_encodeB : opcodeOf (encodeB i13 b a f3 op) = op := by
  simp (disch := omega) only [opcodeOf, encodeB, BitVec.extractLsb'_append_eq_of_le,
    BitVec.extractLsb'_append_eq_of_add_le, Nat.reduceSub, Nat.sub_self, BitVec.extractLsb'_eq_self]

@[simp] theorem funct3Of_encodeB : funct3Of (encodeB i13 b a f3 op) = f3 := by
  simp (disch := omega) only [funct3Of, encodeB, BitVec.extractLsb'_append_eq_of_le,
    BitVec.extractLsb'_append_eq_of_add_le, Nat.reduceSub, Nat.sub_self, BitVec.extractLsb'_eq_self]

@[simp] theorem rs1Of_encodeB : rs1Of (encodeB i13 b a f3 op) = a := by
  simp (disch := omega) only [rs1Of, encodeB, BitVec.extractLsb'_append_eq_of_le,
    BitVec.extractLsb'_append_eq_of_add_le, Nat.reduceSub, Nat.sub_self, BitVec.extractLsb'_eq_self]

@[simp] theorem rs2Of_encodeB : rs2Of (encodeB i13 b a f3 op) = b := by
  simp (disch := omega) only [rs2Of, encodeB, BitVec.extractLsb'_append_eq_of_le,
    BitVec.extractLsb'_append_eq_of_add_le, Nat.reduceSub, Nat.sub_self, BitVec.extractLsb'_eq_self]

/-! Format U -/

@[simp] theorem opcodeOf_encodeU : opcodeOf (encodeU i20 d op) = op := by
  simp (disch := omega) only [opcodeOf, encodeU, BitVec.extractLsb'_append_eq_of_le,
    BitVec.extractLsb'_append_eq_of_add_le, Nat.reduceSub, Nat.sub_self, BitVec.extractLsb'_eq_self]

@[simp] theorem rdOf_encodeU : rdOf (encodeU i20 d op) = d := by
  simp (disch := omega) only [rdOf, encodeU, BitVec.extractLsb'_append_eq_of_le,
    BitVec.extractLsb'_append_eq_of_add_le, Nat.reduceSub, Nat.sub_self, BitVec.extractLsb'_eq_self]

@[simp] theorem immUField_encodeU : immUField (encodeU i20 d op) = i20 := by
  simp (disch := omega) only [immUField, encodeU, BitVec.extractLsb'_append_eq_of_le,
    BitVec.extractLsb'_append_eq_of_add_le, Nat.reduceSub, Nat.sub_self, BitVec.extractLsb'_eq_self]

/-! Format J -/

@[simp] theorem opcodeOf_encodeJ : opcodeOf (encodeJ i21 d op) = op := by
  simp (disch := omega) only [opcodeOf, encodeJ, BitVec.extractLsb'_append_eq_of_le,
    BitVec.extractLsb'_append_eq_of_add_le, Nat.reduceSub, Nat.sub_self, BitVec.extractLsb'_eq_self]

@[simp] theorem rdOf_encodeJ : rdOf (encodeJ i21 d op) = d := by
  simp (disch := omega) only [rdOf, encodeJ, BitVec.extractLsb'_append_eq_of_le,
    BitVec.extractLsb'_append_eq_of_add_le, Nat.reduceSub, Nat.sub_self, BitVec.extractLsb'_eq_self]

end Fields

/-! ### Immediates of the S, B and J formats -/

@[simp] theorem immSField_encodeS (i : BitVec 12) (b a : RegIdx) (f3 : BitVec 3) (op : BitVec 7) :
    immSField (encodeS i b a f3 op) = i := by
  simp (disch := omega) only [immSField, encodeS, BitVec.extractLsb'_append_eq_of_le,
    BitVec.extractLsb'_append_eq_of_add_le, Nat.reduceSub, Nat.sub_self, BitVec.extractLsb'_eq_self]
  ext k hk
  simp only [BitVec.getElem_append, BitVec.getElem_extractLsb']
  split
  · rw [Nat.zero_add, BitVec.getLsbD_eq_getElem]
  · rename_i h
    rw [show 5 + (k - 5) = k by omega, BitVec.getLsbD_eq_getElem]

/-- An offset whose bit 0 is zero is rebuilt from the bits the B format holds. -/
theorem offsetBField_encodeB {i : BitVec 13} (h : i.getLsbD 0 = false) (b a : RegIdx) (f3 : BitVec 3) (op : BitVec 7) :
    offsetBField (encodeB i b a f3 op) = i := by
  simp (disch := omega) only [offsetBField, encodeB, BitVec.extractLsb'_append_eq_of_le,
    BitVec.extractLsb'_append_eq_of_add_le, Nat.reduceSub, Nat.sub_self, BitVec.extractLsb'_eq_self]
  ext k hk
  have hb : k = 0 ∨ (1 ≤ k ∧ k < 5) ∨ (5 ≤ k ∧ k < 11) ∨ k = 11 ∨ k = 12 := by omega
  simp only [BitVec.getElem_append, BitVec.getElem_extractLsb', BitVec.getLsbD_extractLsb']
  obtain rfl | h' | h' | rfl | rfl := hb
  · simpa [BitVec.getLsbD_eq_getElem] using h.symm
  · rw [dif_neg (by omega), dif_pos (by omega), show 1 + (k - 1) = k by omega, BitVec.getLsbD_eq_getElem]
  · rw [dif_neg (by omega), dif_neg (by omega), dif_pos (by omega), show 5 + (k - 1 - 4) = k by omega,
      BitVec.getLsbD_eq_getElem]
  · simp [BitVec.getLsbD_eq_getElem]
  · simp [BitVec.getLsbD_eq_getElem]

/-- An offset whose bit 0 is zero is rebuilt from the bits the J format holds. -/
theorem offsetJField_encodeJ {i : BitVec 21} (h : i.getLsbD 0 = false) (d : RegIdx) (op : BitVec 7) :
    offsetJField (encodeJ i d op) = i := by
  simp (disch := omega) only [offsetJField, encodeJ, BitVec.extractLsb'_append_eq_of_le,
    BitVec.extractLsb'_append_eq_of_add_le, Nat.reduceSub, Nat.sub_self, BitVec.extractLsb'_eq_self]
  ext k hk
  have hb : k = 0 ∨ (1 ≤ k ∧ k < 11) ∨ k = 11 ∨ (12 ≤ k ∧ k < 20) ∨ k = 20 := by omega
  simp only [BitVec.getElem_append, BitVec.getElem_extractLsb', BitVec.getLsbD_extractLsb']
  obtain rfl | h' | rfl | h' | rfl := hb
  · simpa [BitVec.getLsbD_eq_getElem] using h.symm
  · rw [dif_neg (by omega), dif_pos (by omega), show 1 + (k - 1) = k by omega, BitVec.getLsbD_eq_getElem]
  · simp [BitVec.getLsbD_eq_getElem]
  · rw [dif_neg (by omega), dif_neg (by omega), dif_neg (by omega), dif_pos (by omega),
      show 12 + (k - 1 - 10 - 1) = k by omega, BitVec.getLsbD_eq_getElem]
  · simp [BitVec.getLsbD_eq_getElem]

/-- The decoder's branch offset is even. -/
@[simp] theorem offsetBField_even (iw : Word) : (offsetBField iw).getLsbD 0 = false := by
  rw [offsetBField, BitVec.getLsbD_append, if_pos (by omega)]
  rfl

/-- The decoder's JAL offset is even. -/
@[simp] theorem offsetJField_even (iw : Word) : (offsetJField iw).getLsbD 0 = false := by
  rw [offsetJField, BitVec.getLsbD_append, if_pos (by omega)]
  rfl

/-! ### A word is the encoding of its own fields -/

@[simp] theorem encodeR_fields (iw : Word) :
    encodeR (funct7Of iw) (rs2Of iw) (rs1Of iw) (funct3Of iw) (rdOf iw) (opcodeOf iw) = iw := by
  simp (disch := omega) only [encodeR, funct7Of, rs2Of, rs1Of, funct3Of, rdOf, opcodeOf,
    BitVec.extractLsb'_append_eq_of_le, BitVec.extractLsb'_append_eq_of_add_le, Nat.reduceSub, Nat.sub_self,
    BitVec.extractLsb'_eq_self, BitVec.extractLsb'_append_extractLsb'_eq_extractLsb']

@[simp] theorem encodeI_fields (iw : Word) :
    encodeI (immIField iw) (rs1Of iw) (funct3Of iw) (rdOf iw) (opcodeOf iw) = iw := by
  simp (disch := omega) only [encodeI, immIField, rs1Of, funct3Of, rdOf, opcodeOf,
    BitVec.extractLsb'_append_eq_of_le, BitVec.extractLsb'_append_eq_of_add_le, Nat.reduceSub, Nat.sub_self,
    BitVec.extractLsb'_eq_self, BitVec.extractLsb'_append_extractLsb'_eq_extractLsb']

@[simp] theorem encodeS_fields (iw : Word) :
    encodeS (immSField iw) (rs2Of iw) (rs1Of iw) (funct3Of iw) (opcodeOf iw) = iw := by
  simp (disch := omega) only [encodeS, immSField, rs2Of, rs1Of, funct3Of, opcodeOf,
    BitVec.extractLsb'_append_eq_of_le, BitVec.extractLsb'_append_eq_of_add_le, Nat.reduceSub, Nat.sub_self,
    BitVec.extractLsb'_eq_self, BitVec.extractLsb'_append_extractLsb'_eq_extractLsb']

@[simp] theorem encodeB_fields (iw : Word) :
    encodeB (offsetBField iw) (rs2Of iw) (rs1Of iw) (funct3Of iw) (opcodeOf iw) = iw := by
  simp (disch := omega) only [encodeB, offsetBField, rs2Of, rs1Of, funct3Of, opcodeOf,
    BitVec.extractLsb'_append_eq_of_le, BitVec.extractLsb'_append_eq_of_add_le, Nat.reduceSub, Nat.sub_self,
    BitVec.extractLsb'_eq_self, BitVec.extractLsb'_append_extractLsb'_eq_extractLsb']

@[simp] theorem encodeU_fields (iw : Word) :
    encodeU (immUField iw) (rdOf iw) (opcodeOf iw) = iw := by
  simp (disch := omega) only [encodeU, immUField, rdOf, opcodeOf,
    BitVec.extractLsb'_append_eq_of_le, BitVec.extractLsb'_append_eq_of_add_le, Nat.reduceSub, Nat.sub_self,
    BitVec.extractLsb'_eq_self, BitVec.extractLsb'_append_extractLsb'_eq_extractLsb']

@[simp] theorem encodeJ_fields (iw : Word) :
    encodeJ (offsetJField iw) (rdOf iw) (opcodeOf iw) = iw := by
  simp (disch := omega) only [encodeJ, offsetJField, rdOf, opcodeOf,
    BitVec.extractLsb'_append_eq_of_le, BitVec.extractLsb'_append_eq_of_add_le, Nat.reduceSub, Nat.sub_self,
    BitVec.extractLsb'_eq_self, BitVec.extractLsb'_append_extractLsb'_eq_extractLsb']

/-! ### A row's mask keeps exactly the fixed fields -/

section Masks
variable (f7 : BitVec 7) (b a d : RegIdx) (f3 : BitVec 3) (op : BitVec 7) (i12 : BitVec 12) (i20 : BitVec 20)
  (i13 : BitVec 13) (i21 : BitVec 21)

theorem encodeR_masked : encodeR f7 b a f3 d op &&& 0xFE00707F#32 = encodeR f7 0 0 f3 0 op := by
  rw [show (0xFE00707F#32 : Word) = encodeR 127#7 0#5 0#5 7#3 0#5 127#7 from rfl]
  exact BitVec.and_append.trans (congrArg₂ (· ++ ·) (BitVec.and_append.trans (congrArg₂ (· ++ ·) (BitVec.and_append.trans (congrArg₂ (· ++ ·) (BitVec.and_append.trans (congrArg₂ (· ++ ·) (BitVec.and_append.trans (congrArg₂ (· ++ ·) BitVec.and_allOnes
    BitVec.and_zero))
    BitVec.and_zero))
    BitVec.and_allOnes))
    BitVec.and_zero))
    BitVec.and_allOnes)

theorem encodeI_masked : encodeI i12 a f3 d op &&& 0x0000707F#32 = encodeI 0 0 f3 0 op := by
  rw [show (0x0000707F#32 : Word) = encodeI 0#12 0#5 7#3 0#5 127#7 from rfl]
  exact BitVec.and_append.trans (congrArg₂ (· ++ ·) (BitVec.and_append.trans (congrArg₂ (· ++ ·) (BitVec.and_append.trans (congrArg₂ (· ++ ·) (BitVec.and_append.trans (congrArg₂ (· ++ ·) BitVec.and_zero
    BitVec.and_zero))
    BitVec.and_allOnes))
    BitVec.and_zero))
    BitVec.and_allOnes)

theorem encodeU_masked : encodeU i20 d op &&& 0x0000007F#32 = encodeU 0 0 op := by
  rw [show (0x0000007F#32 : Word) = encodeU 0#20 0#5 127#7 from rfl]
  exact BitVec.and_append.trans (congrArg₂ (· ++ ·) (BitVec.and_append.trans (congrArg₂ (· ++ ·) BitVec.and_zero
    BitVec.and_zero))
    BitVec.and_allOnes)

/-- A row with only the opcode fixed: a word matches it exactly when its opcode is the row's. -/
theorem masked_opcode_iff (iw : Word) : iw &&& 0x0000007F#32 = encodeU 0 0 op ↔ opcodeOf iw = op := by
  rw [← encodeU_fields iw, encodeU_masked]
  constructor
  · intro h
    simpa using congrArg opcodeOf h
  · intro h
    simpa using congrArg (encodeU 0 0) h

/-- A row with opcode and `funct3` fixed. -/
theorem masked_funct3_iff (iw : Word) :
    iw &&& 0x0000707F#32 = encodeI 0 0 f3 0 op ↔ opcodeOf iw = op ∧ funct3Of iw = f3 := by
  rw [← encodeI_fields iw, encodeI_masked]
  constructor
  · intro h
    exact ⟨by simpa using congrArg opcodeOf h, by simpa using congrArg funct3Of h⟩
  · intro h
    simp only [opcodeOf_encodeI, funct3Of_encodeI] at h
    rw [h.1, h.2]

/-- A row with opcode, `funct3` and `funct7` fixed. -/
theorem masked_funct7_iff (iw : Word) :
    iw &&& 0xFE00707F#32 = encodeR f7 0 0 f3 0 op ↔ opcodeOf iw = op ∧ funct3Of iw = f3 ∧ funct7Of iw = f7 := by
  rw [← encodeR_fields iw, encodeR_masked]
  constructor
  · intro h
    exact ⟨by simpa using congrArg opcodeOf h, by simpa using congrArg funct3Of h, by simpa using congrArg funct7Of h⟩
  · intro h
    simp only [opcodeOf_encodeR, funct3Of_encodeR, funct7Of_encodeR] at h
    rw [h.1, h.2.1, h.2.2]

end Masks

/-! ### Bytes of a word -/

/-- A word is rebuilt from its bytes (20_memory R59). -/
@[simp] theorem wordOfBytes_bytes (w : Word) :
    wordOfBytes (byteOfWord w 0) (byteOfWord w 1) (byteOfWord w 2) (byteOfWord w 3) = w := by
  simp (disch := omega) only [wordOfBytes, byteOfWord, BitVec.extractLsb'_append_extractLsb'_eq_extractLsb']
  exact BitVec.extractLsb'_eq_self

/-- Byte `i` of a word as a number. -/
theorem byteOfWord_toNat (w : Word) (i : Nat) : (byteOfWord w i).toNat = w.toNat / 256 ^ i % 256 := by
  rw [byteOfWord, BitVec.extractLsb'_toNat, Nat.shiftRight_eq_div_pow, Nat.pow_mul]

/-- The bytes of a word decode to what the word decodes to. -/
theorem decode_bytesOfWord (w : Word) (rest : List Byte) :
    decode (bytesOfWord w ++ rest) = (decodeWord w).map fun i => (i, rest) := by
  simp only [bytesOfWord, List.cons_append, List.nil_append, decode, wordOfBytes_bytes]
  cases decodeWord w <;> rfl

end Sys2Proof
end

