-- ==== Sys2Proof/Laws/Memory.lean ====
section
/-! SUPPORT. The memory operations: each keeps the canonical form, and a read gives what was last written. -/

namespace Sys2Proof.Machine

theorem Memory.risesFrom_mono {lo lo' : Nat} {m : Memory} (h : lo' ≤ lo) (hm : Memory.risesFrom lo m = true) :
    Memory.risesFrom lo' m = true := by
  cases m with
  | nil => rfl
  | cons c rest =>
    simp only [Memory.risesFrom, Bool.and_eq_true, decide_eq_true_eq] at hm ⊢
    exact ⟨⟨by omega, hm.1.2⟩, hm.2⟩

theorem Memory.push_risesFrom {lo a : Nat} {b : Byte} {m : Memory} (h : lo ≤ a)
    (hm : Memory.risesFrom (a + 1) m = true) : Memory.risesFrom lo (Memory.push m a b) = true := by
  unfold Memory.push
  split
  · exact Memory.risesFrom_mono (by omega) hm
  · rename_i hb
    simp [Memory.risesFrom, h, hm, hb]

/-- A write keeps the canonical form. -/
theorem Memory.write_risesFrom {lo : Nat} {m : Memory} {a : Nat} {b : Byte} (h : lo ≤ a)
    (hm : Memory.risesFrom lo m = true) : Memory.risesFrom lo (m.write a b) = true := by
  induction m generalizing lo with
  | nil => exact Memory.push_risesFrom h rfl
  | cons c rest ih =>
    obtain ⟨k, c⟩ := c
    simp only [Memory.risesFrom, Bool.and_eq_true, decide_eq_true_eq] at hm
    unfold Memory.write
    split
    · refine Memory.push_risesFrom h ?_
      simp only [Memory.risesFrom, Bool.and_eq_true, decide_eq_true_eq]
      exact ⟨⟨by omega, hm.1.2⟩, hm.2⟩
    · split
      · rename_i hk
        subst hk
        exact Memory.push_risesFrom h hm.2
      · simp only [Memory.risesFrom, Bool.and_eq_true, decide_eq_true_eq]
        exact ⟨⟨hm.1.1, hm.1.2⟩, ih (by omega) hm.2⟩

theorem Memory.write_wf {m : Memory} (a : Nat) (b : Byte) (hm : m.wf = true) : (m.write a b).wf = true :=
  Memory.write_risesFrom (Nat.zero_le _) hm

theorem Memory.writeBytes_wf {m : Memory} (a : Nat) (bs : List Byte) (hm : m.wf = true) :
    (m.writeBytes a bs).wf = true := by
  induction bs generalizing m a with
  | nil => exact hm
  | cons b bs ih => exact ih (a + 1) (Memory.write_wf a b hm)

theorem Memory.store_wf {m : Memory} (a : Nat) (w : Width) (v : Word) (hm : m.wf = true) : (m.store a w v).wf = true :=
  Memory.writeBytes_wf a _ hm

theorem State.resetFor_mem_wf (p : Platform) : (State.resetFor p).mem.wf = true := rfl

/-- Below its lowest address a canonical memory reads the unlisted byte. -/
theorem Memory.read_below {lo : Nat} {m : Memory} {a : Nat} (hm : Memory.risesFrom lo m = true) (h : a < lo) :
    m.read a = unlistedByte := by
  induction m generalizing lo with
  | nil => rfl
  | cons c rest ih =>
    obtain ⟨k, c⟩ := c
    simp only [Memory.risesFrom, Bool.and_eq_true, decide_eq_true_eq] at hm
    unfold Memory.read
    rw [if_neg (by omega)]
    exact ih hm.2 (by omega)

theorem Memory.read_push {m : Memory} {a x : Nat} {b : Byte} (hm : Memory.risesFrom (a + 1) m = true) :
    (Memory.push m a b).read x = if x = a then b else m.read x := by
  unfold Memory.push
  split
  · rename_i hb
    split
    · rename_i hx
      subst hx
      rw [Memory.read_below hm (by omega), hb]
    · rfl
  · simp only [Memory.read, eq_comm]

theorem Memory.read_write_from {lo : Nat} {m : Memory} {a x : Nat} {b : Byte} (hm : Memory.risesFrom lo m = true) :
    (m.write a b).read x = if x = a then b else m.read x := by
  induction m generalizing lo with
  | nil => exact Memory.read_push rfl
  | cons c rest ih =>
    obtain ⟨k, c⟩ := c
    have hm' := hm
    simp only [Memory.risesFrom, Bool.and_eq_true, decide_eq_true_eq] at hm
    unfold Memory.write
    split
    · refine Memory.read_push ?_
      simp only [Memory.risesFrom, Bool.and_eq_true, decide_eq_true_eq]
      exact ⟨⟨by omega, hm.1.2⟩, hm.2⟩
    · split
      · rename_i hk
        subst hk
        rw [Memory.read_push hm.2]
        by_cases hx : x = a
        · simp [hx]
        · simp [hx, Memory.read, Ne.symm hx]
      · rename_i hk
        by_cases hx : k = x
        · have : ¬ x = a := by omega
          simp [Memory.read, hx, this]
        · simp [Memory.read, hx, ih hm.2]

/-- A read after a write: the value written at its address, the old byte everywhere else. -/
theorem Memory.read_write {m : Memory} (a x : Nat) (b : Byte) (hm : m.wf = true) :
    (m.write a b).read x = if x = a then b else m.read x := Memory.read_write_from hm

/-- A read after writing bytes in a row. -/
theorem Memory.read_writeBytes {m : Memory} (a x : Nat) (bs : List Byte) (hm : m.wf = true) :
    (m.writeBytes a bs).read x = if a ≤ x ∧ x < a + bs.length then bs.getD (x - a) 0#8 else m.read x := by
  induction bs generalizing m a with
  | nil => simp [Memory.writeBytes]
  | cons b bs ih =>
    rw [Memory.writeBytes, ih (a + 1) (Memory.write_wf a b hm), Memory.read_write a x b hm]
    by_cases hx : x = a
    · subst hx; simp
    · by_cases h : a + 1 ≤ x ∧ x < a + 1 + bs.length
      · have h2 : a ≤ x ∧ x < a + (b :: bs).length := by simp only [List.length_cons]; omega
        have h3 : x - a = (x - (a + 1)) + 1 := by omega
        rw [if_pos h, if_pos h2, h3, List.getD_cons_succ]
      · have h2 : ¬ (a ≤ x ∧ x < a + (b :: bs).length) := by simp only [List.length_cons]; omega
        rw [if_neg h, if_neg h2, if_neg hx]

@[simp] theorem storedBytes_length (w : Width) (v : Word) : (storedBytes w v).length = w.bytes := by cases w <;> rfl

/-- Byte `i` of a stored value. -/
theorem storedBytes_getD {w : Width} {i : Nat} (h : i < w.bytes) (v : Word) :
    (storedBytes w v).getD i 0#8 = byteOfWord v i := by
  cases w with
  | byte => obtain rfl : i = 0 := by simp only [Width.bytes] at h; omega
            rfl
  | half => obtain rfl | rfl : i = 0 ∨ i = 1 := by simp only [Width.bytes] at h; omega
            all_goals rfl
  | word => obtain rfl | rfl | rfl | rfl : i = 0 ∨ i = 1 ∨ i = 2 ∨ i = 3 := by simp only [Width.bytes] at h; omega
            all_goals rfl

/-- A read after a store: the value's bytes where they were stored, the old byte everywhere else. -/
theorem Memory.read_store {m : Memory} (a x : Nat) (w : Width) (v : Word) (hm : m.wf = true) :
    (m.store a w v).read x = if a ≤ x ∧ x < a + w.bytes then byteOfWord v (x - a) else m.read x := by
  rw [Memory.store, Memory.read_writeBytes a x _ hm, storedBytes_length]
  split
  · rename_i h
    exact storedBytes_getD (by omega) v
  · rfl

/-! ### Listed addresses stay inside a range -/

theorem Memory.push_within {lo hi a : Nat} {b : Byte} {m : Memory} (h : lo ≤ a ∧ a < hi)
    (hm : m.within lo hi = true) : (Memory.push m a b).within lo hi = true := by
  unfold Memory.push
  split
  · exact hm
  · unfold Memory.within at hm ⊢
    simp only [List.all_cons, Bool.and_eq_true, decide_eq_true_eq]
    exact ⟨h, hm⟩

theorem Memory.write_within {lo hi : Nat} {m : Memory} {a : Nat} {b : Byte} (h : lo ≤ a ∧ a < hi)
    (hm : m.within lo hi = true) : (m.write a b).within lo hi = true := by
  induction m with
  | nil => exact Memory.push_within h hm
  | cons c rest ih =>
    obtain ⟨k, c⟩ := c
    have hr : Memory.within lo hi rest = true := by
      unfold Memory.within at hm ⊢
      simp only [List.all_cons, Bool.and_eq_true] at hm
      exact hm.2
    unfold Memory.write
    split
    · exact Memory.push_within h hm
    · split
      · exact Memory.push_within h hr
      · unfold Memory.within at hm ih ⊢
        simp only [List.all_cons, Bool.and_eq_true] at hm ⊢
        exact ⟨hm.1, ih hm.2⟩

theorem Memory.writeBytes_within {lo hi : Nat} {m : Memory} {a : Nat} {bs : List Byte}
    (h : lo ≤ a ∧ a + bs.length ≤ hi) (hm : m.within lo hi = true) : (m.writeBytes a bs).within lo hi = true := by
  induction bs generalizing m a with
  | nil => exact hm
  | cons b bs ih =>
    simp only [List.length_cons] at h
    exact ih (by omega) (Memory.write_within (by omega) hm)

theorem Memory.store_within {lo hi : Nat} {m : Memory} {a : Nat} {w : Width} {v : Word}
    (h : lo ≤ a ∧ a + w.bytes ≤ hi) (hm : m.within lo hi = true) : (m.store a w v).within lo hi = true :=
  Memory.writeBytes_within (by simpa using h) hm

/-! ### Equal memories are equal data -/

theorem Memory.eq_of_read_from {lo : Nat} {m n : Memory} (hm : Memory.risesFrom lo m = true)
    (hn : Memory.risesFrom lo n = true) (h : ∀ a, m.read a = n.read a) : m = n := by
  induction m generalizing lo n with
  | nil =>
    cases n with
    | nil => rfl
    | cons y n =>
      have hk := h y.1
      simp only [Memory.read, Memory.risesFrom, if_pos, Bool.and_eq_true, bne_iff_ne] at hk hn
      exact absurd hk.symm hn.1.2
  | cons x m ih =>
    cases n with
    | nil =>
      have hk := h x.1
      simp only [Memory.read, Memory.risesFrom, if_pos, Bool.and_eq_true, bne_iff_ne] at hk hm
      exact absurd hk hm.1.2
    | cons y n =>
      obtain ⟨k, c⟩ := x
      obtain ⟨k', c'⟩ := y
      simp only [Memory.risesFrom, Bool.and_eq_true, decide_eq_true_eq, bne_iff_ne] at hm hn
      have first : ∀ {j j' : Nat} {d d' : Byte} {p q : Memory}, d ≠ unlistedByte →
          Memory.risesFrom (j' + 1) q = true → Memory.read ((j, d) :: p) j = Memory.read ((j', d') :: q) j → ¬ j < j' := by
        intro j j' d d' p q hd hq he hlt
        rw [Memory.read, if_pos rfl, Memory.read, if_neg (by omega), Memory.read_below hq (by omega)] at he
        exact hd he
      obtain rfl : k = k' := by
        have h1 := first hm.1.2 hn.2 (h k)
        have h2 := first hn.1.2 hm.2 (h k').symm
        omega
      obtain rfl : c = c' := by simpa [Memory.read] using h k
      congr 1
      refine ih hm.2 hn.2 fun a => ?_
      have ha := h a
      simp only [Memory.read] at ha
      split at ha
      · rename_i e; subst e; rw [Memory.read_below hm.2 (by omega), Memory.read_below hn.2 (by omega)]
      · exact ha

/-- Two canonical memories that read the same everywhere are the same list. -/
theorem Memory.eq_of_read {m n : Memory} (hm : m.wf = true) (hn : n.wf = true) (h : ∀ a, m.read a = n.read a) : m = n :=
  Memory.eq_of_read_from hm hn h

end Sys2Proof.Machine
end

