-- ==== Sys2Proof/Laws/State.lean ====
section
/-! SUPPORT. One lemma for each field of each named update of the state, so that no proof unfolds a record update. -/

namespace Sys2Proof.Machine

variable (s : State)

@[simp] theorem State.writeReg_platform (r : RegIdx) (v : Word) :
    (s.writeReg r v).platform = s.platform := rfl
@[simp] theorem State.writeReg_pc (r : RegIdx) (v : Word) :
    (s.writeReg r v).pc = s.pc := rfl
@[simp] theorem State.writeReg_nextPc (r : RegIdx) (v : Word) :
    (s.writeReg r v).nextPc = s.nextPc := rfl
@[simp] theorem State.writeReg_instructionWord (r : RegIdx) (v : Word) :
    (s.writeReg r v).instructionWord = s.instructionWord := rfl
@[simp] theorem State.writeReg_regs (r : RegIdx) (v : Word) :
    (s.writeReg r v).regs = writtenRegs s.regs r v := rfl
@[simp] theorem State.writeReg_halted (r : RegIdx) (v : Word) :
    (s.writeReg r v).halted = s.halted := rfl
@[simp] theorem State.writeReg_instructionsExecuted (r : RegIdx) (v : Word) :
    (s.writeReg r v).instructionsExecuted = s.instructionsExecuted := rfl
@[simp] theorem State.writeReg_mem (r : RegIdx) (v : Word) :
    (s.writeReg r v).mem = s.mem := rfl
@[simp] theorem State.writeReg_console (r : RegIdx) (v : Word) :
    (s.writeReg r v).console = s.console := rfl
@[simp] theorem State.writeReg_reports (r : RegIdx) (v : Word) :
    (s.writeReg r v).reports = s.reports := rfl

@[simp] theorem State.setNextPc_platform (a : Word) :
    (s.setNextPc a).platform = s.platform := rfl
@[simp] theorem State.setNextPc_pc (a : Word) :
    (s.setNextPc a).pc = s.pc := rfl
@[simp] theorem State.setNextPc_nextPc (a : Word) :
    (s.setNextPc a).nextPc = a := rfl
@[simp] theorem State.setNextPc_instructionWord (a : Word) :
    (s.setNextPc a).instructionWord = s.instructionWord := rfl
@[simp] theorem State.setNextPc_regs (a : Word) :
    (s.setNextPc a).regs = s.regs := rfl
@[simp] theorem State.setNextPc_halted (a : Word) :
    (s.setNextPc a).halted = s.halted := rfl
@[simp] theorem State.setNextPc_instructionsExecuted (a : Word) :
    (s.setNextPc a).instructionsExecuted = s.instructionsExecuted := rfl
@[simp] theorem State.setNextPc_mem (a : Word) :
    (s.setNextPc a).mem = s.mem := rfl
@[simp] theorem State.setNextPc_console (a : Word) :
    (s.setNextPc a).console = s.console := rfl
@[simp] theorem State.setNextPc_reports (a : Word) :
    (s.setNextPc a).reports = s.reports := rfl

@[simp] theorem State.consoleWrite_platform (o : Nat) (v : Word) :
    (s.consoleWrite o v).platform = s.platform := rfl
@[simp] theorem State.consoleWrite_pc (o : Nat) (v : Word) :
    (s.consoleWrite o v).pc = s.pc := rfl
@[simp] theorem State.consoleWrite_nextPc (o : Nat) (v : Word) :
    (s.consoleWrite o v).nextPc = s.nextPc := rfl
@[simp] theorem State.consoleWrite_instructionWord (o : Nat) (v : Word) :
    (s.consoleWrite o v).instructionWord = s.instructionWord := rfl
@[simp] theorem State.consoleWrite_regs (o : Nat) (v : Word) :
    (s.consoleWrite o v).regs = s.regs := rfl
@[simp] theorem State.consoleWrite_halted (o : Nat) (v : Word) :
    (s.consoleWrite o v).halted = s.halted := rfl
@[simp] theorem State.consoleWrite_instructionsExecuted (o : Nat) (v : Word) :
    (s.consoleWrite o v).instructionsExecuted = s.instructionsExecuted := rfl
@[simp] theorem State.consoleWrite_mem (o : Nat) (v : Word) :
    (s.consoleWrite o v).mem = s.mem := rfl
@[simp] theorem State.consoleWrite_console (o : Nat) (v : Word) :
    (s.consoleWrite o v).console = s.console ++ consoleText o v := rfl
@[simp] theorem State.consoleWrite_reports (o : Nat) (v : Word) :
    (s.consoleWrite o v).reports = s.reports := rfl

@[simp] theorem State.ramWrite_platform (a : Word) (w : Width) (v : Word) :
    (s.ramWrite a w v).platform = s.platform := rfl
@[simp] theorem State.ramWrite_pc (a : Word) (w : Width) (v : Word) :
    (s.ramWrite a w v).pc = s.pc := rfl
@[simp] theorem State.ramWrite_nextPc (a : Word) (w : Width) (v : Word) :
    (s.ramWrite a w v).nextPc = s.nextPc := rfl
@[simp] theorem State.ramWrite_instructionWord (a : Word) (w : Width) (v : Word) :
    (s.ramWrite a w v).instructionWord = s.instructionWord := rfl
@[simp] theorem State.ramWrite_regs (a : Word) (w : Width) (v : Word) :
    (s.ramWrite a w v).regs = s.regs := rfl
@[simp] theorem State.ramWrite_halted (a : Word) (w : Width) (v : Word) :
    (s.ramWrite a w v).halted = s.halted := rfl
@[simp] theorem State.ramWrite_instructionsExecuted (a : Word) (w : Width) (v : Word) :
    (s.ramWrite a w v).instructionsExecuted = s.instructionsExecuted := rfl
@[simp] theorem State.ramWrite_mem (a : Word) (w : Width) (v : Word) :
    (s.ramWrite a w v).mem = s.mem.store a.toNat w v := rfl
@[simp] theorem State.ramWrite_console (a : Word) (w : Width) (v : Word) :
    (s.ramWrite a w v).console = s.console := rfl
@[simp] theorem State.ramWrite_reports (a : Word) (w : Width) (v : Word) :
    (s.ramWrite a w v).reports = s.reports := rfl

@[simp] theorem State.report_platform (k : ReportKind) (e : ReportError) (i : Word) :
    (s.report k e i).platform = s.platform := rfl
@[simp] theorem State.report_pc (k : ReportKind) (e : ReportError) (i : Word) :
    (s.report k e i).pc = s.pc := rfl
@[simp] theorem State.report_nextPc (k : ReportKind) (e : ReportError) (i : Word) :
    (s.report k e i).nextPc = s.nextPc := rfl
@[simp] theorem State.report_instructionWord (k : ReportKind) (e : ReportError) (i : Word) :
    (s.report k e i).instructionWord = s.instructionWord := rfl
@[simp] theorem State.report_regs (k : ReportKind) (e : ReportError) (i : Word) :
    (s.report k e i).regs = s.regs := rfl
@[simp] theorem State.report_halted (k : ReportKind) (e : ReportError) (i : Word) :
    (s.report k e i).halted = s.halted := rfl
@[simp] theorem State.report_instructionsExecuted (k : ReportKind) (e : ReportError) (i : Word) :
    (s.report k e i).instructionsExecuted = s.instructionsExecuted := rfl
@[simp] theorem State.report_mem (k : ReportKind) (e : ReportError) (i : Word) :
    (s.report k e i).mem = s.mem := rfl
@[simp] theorem State.report_console (k : ReportKind) (e : ReportError) (i : Word) :
    (s.report k e i).console = s.console := rfl
@[simp] theorem State.report_reports (k : ReportKind) (e : ReportError) (i : Word) :
    (s.report k e i).reports = s.reports ++ [⟨k, e, s.pc, i⟩] := rfl

@[simp] theorem State.halt_platform :
    s.halt.platform = s.platform := rfl
@[simp] theorem State.halt_pc :
    s.halt.pc = s.pc := rfl
@[simp] theorem State.halt_nextPc :
    s.halt.nextPc = s.nextPc := rfl
@[simp] theorem State.halt_instructionWord :
    s.halt.instructionWord = s.instructionWord := rfl
@[simp] theorem State.halt_regs :
    s.halt.regs = s.regs := rfl
@[simp] theorem State.halt_halted :
    s.halt.halted = true := rfl
@[simp] theorem State.halt_instructionsExecuted :
    s.halt.instructionsExecuted = s.instructionsExecuted := rfl
@[simp] theorem State.halt_mem :
    s.halt.mem = s.mem := rfl
@[simp] theorem State.halt_console :
    s.halt.console = s.console := rfl
@[simp] theorem State.halt_reports :
    s.halt.reports = s.reports := rfl

@[simp] theorem State.raise_platform (k : ReportKind) (e : ReportError) (i : Word) :
    (s.raise k e i).platform = s.platform := rfl
@[simp] theorem State.raise_pc (k : ReportKind) (e : ReportError) (i : Word) :
    (s.raise k e i).pc = s.pc := rfl
@[simp] theorem State.raise_nextPc (k : ReportKind) (e : ReportError) (i : Word) :
    (s.raise k e i).nextPc = s.nextPc := rfl
@[simp] theorem State.raise_instructionWord (k : ReportKind) (e : ReportError) (i : Word) :
    (s.raise k e i).instructionWord = s.instructionWord := rfl
@[simp] theorem State.raise_regs (k : ReportKind) (e : ReportError) (i : Word) :
    (s.raise k e i).regs = s.regs := rfl
@[simp] theorem State.raise_halted (k : ReportKind) (e : ReportError) (i : Word) :
    (s.raise k e i).halted = true := rfl
@[simp] theorem State.raise_instructionsExecuted (k : ReportKind) (e : ReportError) (i : Word) :
    (s.raise k e i).instructionsExecuted = s.instructionsExecuted := rfl
@[simp] theorem State.raise_mem (k : ReportKind) (e : ReportError) (i : Word) :
    (s.raise k e i).mem = s.mem := rfl
@[simp] theorem State.raise_console (k : ReportKind) (e : ReportError) (i : Word) :
    (s.raise k e i).console = s.console := rfl
@[simp] theorem State.raise_reports (k : ReportKind) (e : ReportError) (i : Word) :
    (s.raise k e i).reports = s.reports ++ [⟨k, e, s.pc, i⟩] := rfl

@[simp] theorem State.fetchFault_platform (e : AccessError) :
    (s.fetchFault e).platform = s.platform := rfl
@[simp] theorem State.fetchFault_pc (e : AccessError) :
    (s.fetchFault e).pc = s.pc := rfl
@[simp] theorem State.fetchFault_nextPc (e : AccessError) :
    (s.fetchFault e).nextPc = s.nextPc := rfl
@[simp] theorem State.fetchFault_instructionWord (e : AccessError) :
    (s.fetchFault e).instructionWord = s.instructionWord := rfl
@[simp] theorem State.fetchFault_regs (e : AccessError) :
    (s.fetchFault e).regs = s.regs := rfl
@[simp] theorem State.fetchFault_halted (e : AccessError) :
    (s.fetchFault e).halted = true := rfl
@[simp] theorem State.fetchFault_instructionsExecuted (e : AccessError) :
    (s.fetchFault e).instructionsExecuted = s.instructionsExecuted := rfl
@[simp] theorem State.fetchFault_mem (e : AccessError) :
    (s.fetchFault e).mem = s.mem := rfl
@[simp] theorem State.fetchFault_console (e : AccessError) :
    (s.fetchFault e).console = s.console := rfl
@[simp] theorem State.fetchFault_reports (e : AccessError) :
    (s.fetchFault e).reports = s.reports ++ [⟨.fetchFault, e.toReport, s.pc, s.pc⟩] := rfl

@[simp] theorem State.decodeError_platform (iw : Word) :
    (s.decodeError iw).platform = s.platform := rfl
@[simp] theorem State.decodeError_pc (iw : Word) :
    (s.decodeError iw).pc = s.pc := rfl
@[simp] theorem State.decodeError_nextPc (iw : Word) :
    (s.decodeError iw).nextPc = s.nextPc := rfl
@[simp] theorem State.decodeError_instructionWord (iw : Word) :
    (s.decodeError iw).instructionWord = s.instructionWord := rfl
@[simp] theorem State.decodeError_regs (iw : Word) :
    (s.decodeError iw).regs = s.regs := rfl
@[simp] theorem State.decodeError_halted (iw : Word) :
    (s.decodeError iw).halted = true := rfl
@[simp] theorem State.decodeError_instructionsExecuted (iw : Word) :
    (s.decodeError iw).instructionsExecuted = s.instructionsExecuted := rfl
@[simp] theorem State.decodeError_mem (iw : Word) :
    (s.decodeError iw).mem = s.mem := rfl
@[simp] theorem State.decodeError_console (iw : Word) :
    (s.decodeError iw).console = s.console := rfl
@[simp] theorem State.decodeError_reports (iw : Word) :
    (s.decodeError iw).reports = s.reports ++ [⟨.decodeError, .unknownOpcode, s.pc, iw⟩] := rfl

@[simp] theorem State.fetched_platform (iw : Word) :
    (s.fetched iw).platform = s.platform := rfl
@[simp] theorem State.fetched_pc (iw : Word) :
    (s.fetched iw).pc = s.pc := rfl
@[simp] theorem State.fetched_nextPc (iw : Word) :
    (s.fetched iw).nextPc = s.pc + 4#32 := rfl
@[simp] theorem State.fetched_instructionWord (iw : Word) :
    (s.fetched iw).instructionWord = iw := rfl
@[simp] theorem State.fetched_regs (iw : Word) :
    (s.fetched iw).regs = s.regs := rfl
@[simp] theorem State.fetched_halted (iw : Word) :
    (s.fetched iw).halted = s.halted := rfl
@[simp] theorem State.fetched_instructionsExecuted (iw : Word) :
    (s.fetched iw).instructionsExecuted = s.instructionsExecuted := rfl
@[simp] theorem State.fetched_mem (iw : Word) :
    (s.fetched iw).mem = s.mem := rfl
@[simp] theorem State.fetched_console (iw : Word) :
    (s.fetched iw).console = s.console := rfl
@[simp] theorem State.fetched_reports (iw : Word) :
    (s.fetched iw).reports = s.reports := rfl

@[simp] theorem State.commit_platform :
    s.commit.platform = s.platform := rfl
@[simp] theorem State.commit_pc :
    s.commit.pc = s.nextPc := rfl
@[simp] theorem State.commit_nextPc :
    s.commit.nextPc = s.nextPc := rfl
@[simp] theorem State.commit_instructionWord :
    s.commit.instructionWord = s.instructionWord := rfl
@[simp] theorem State.commit_regs :
    s.commit.regs = s.regs := rfl
@[simp] theorem State.commit_halted :
    s.commit.halted = s.halted := rfl
@[simp] theorem State.commit_instructionsExecuted :
    s.commit.instructionsExecuted = s.instructionsExecuted + 1#64 := rfl
@[simp] theorem State.commit_mem :
    s.commit.mem = s.mem := rfl
@[simp] theorem State.commit_console :
    s.commit.console = s.console := rfl
@[simp] theorem State.commit_reports :
    s.commit.reports = s.reports := rfl

@[simp] theorem State.loadImage_platform (b : List Byte) :
    (s.loadImage b).platform = s.platform := rfl
@[simp] theorem State.loadImage_pc (b : List Byte) :
    (s.loadImage b).pc = s.pc := rfl
@[simp] theorem State.loadImage_nextPc (b : List Byte) :
    (s.loadImage b).nextPc = s.nextPc := rfl
@[simp] theorem State.loadImage_instructionWord (b : List Byte) :
    (s.loadImage b).instructionWord = s.instructionWord := rfl
@[simp] theorem State.loadImage_regs (b : List Byte) :
    (s.loadImage b).regs = s.regs := rfl
@[simp] theorem State.loadImage_halted (b : List Byte) :
    (s.loadImage b).halted = s.halted := rfl
@[simp] theorem State.loadImage_instructionsExecuted (b : List Byte) :
    (s.loadImage b).instructionsExecuted = s.instructionsExecuted := rfl
@[simp] theorem State.loadImage_mem (b : List Byte) :
    (s.loadImage b).mem = s.mem.writeBytes s.platform.memoryBase.toNat b := rfl
@[simp] theorem State.loadImage_console (b : List Byte) :
    (s.loadImage b).console = s.console := rfl
@[simp] theorem State.loadImage_reports (b : List Byte) :
    (s.loadImage b).reports = s.reports := rfl

/-! Reading a register depends on the register file alone. -/

theorem readReg_congr {s t : State} (h : t.regs = s.regs) (r : RegIdx) : t.readReg r = s.readReg r := by
  simp only [State.readReg, h]

@[simp] theorem State.setNextPc_readReg (a : Word) (r : RegIdx) :
    (s.setNextPc a).readReg r = s.readReg r := rfl
@[simp] theorem State.consoleWrite_readReg (o : Nat) (v : Word) (r : RegIdx) :
    (s.consoleWrite o v).readReg r = s.readReg r := rfl
@[simp] theorem State.ramWrite_readReg (a : Word) (w : Width) (v : Word) (r : RegIdx) :
    (s.ramWrite a w v).readReg r = s.readReg r := rfl
@[simp] theorem State.report_readReg (k : ReportKind) (e : ReportError) (i : Word) (r : RegIdx) :
    (s.report k e i).readReg r = s.readReg r := rfl
@[simp] theorem State.halt_readReg (r : RegIdx) :
    s.halt.readReg r = s.readReg r := rfl
@[simp] theorem State.raise_readReg (k : ReportKind) (e : ReportError) (i : Word) (r : RegIdx) :
    (s.raise k e i).readReg r = s.readReg r := rfl
@[simp] theorem State.fetchFault_readReg (e : AccessError) (r : RegIdx) :
    (s.fetchFault e).readReg r = s.readReg r := rfl
@[simp] theorem State.decodeError_readReg (iw : Word) (r : RegIdx) :
    (s.decodeError iw).readReg r = s.readReg r := rfl
@[simp] theorem State.fetched_readReg (iw : Word) (r : RegIdx) :
    (s.fetched iw).readReg r = s.readReg r := rfl
@[simp] theorem State.commit_readReg (r : RegIdx) :
    s.commit.readReg r = s.readReg r := rfl
@[simp] theorem State.loadImage_readReg (b : List Byte) (r : RegIdx) :
    (s.loadImage b).readReg r = s.readReg r := rfl

/-- Register 0 reads zero in every state. -/
@[simp] theorem readReg_zero : s.readReg 0#5 = 0#32 := rfl

/-- A register reads what was last written to it; register 0 keeps reading zero. -/
theorem writeReg_readReg (r q : RegIdx) (v : Word) :
    (s.writeReg r v).readReg q = if q = r ∧ q ≠ 0#5 then v else s.readReg q := by
  by_cases hq : q = 0#5
  · subst hq; simp
  · by_cases hr : r = 0#5
    · subst hr; simp [State.readReg, writtenRegs, hq]
    · by_cases h : q = r
      · subst h; simp [State.readReg, writtenRegs, hq]
      · have hn : r.toNat ≠ q.toNat := fun hh => h (BitVec.eq_of_toNat_eq hh).symm
        simp [State.readReg, writtenRegs, hq, hr, h, hn]

/-- A write to register 0 changes nothing. -/
@[simp] theorem writeReg_zero (v : Word) : s.writeReg 0#5 v = s := rfl

/-- The unused slot of the register file keeps its value. -/
@[simp] theorem writtenRegs_slot_zero (regs : Vector Word 32) (r : RegIdx) (v : Word) :
    (writtenRegs regs r v)[0] = regs[0] := by
  by_cases hr : r = 0#5
  · simp [writtenRegs, hr]
  · have hn : r.toNat ≠ 0 := fun hh => hr (BitVec.eq_of_toNat_eq hh)
    simp [writtenRegs, hr, hn]

end Sys2Proof.Machine
end

