-- ==== Sys2Proof/Laws/Ops.lean ====
section
/-! SUPPORT. One lemma for each shared operation that says everything it can do. -/

namespace Sys2Proof.Machine

variable {s t : State} {p : Platform} {a : Word} {w : Width}

/-! ### The address map and the checks -/

theorem regionOf_console_iff : regionOf p a = .console ↔ InConsole p a := by
  unfold regionOf InConsole consoleLength
  split
  · simpa
  · split <;> simp only [reduceCtorEq, false_iff] <;> assumption

theorem regionOf_ram_iff : regionOf p a = .ram ↔ ¬ InConsole p a ∧ InRam p a := by
  unfold regionOf InConsole InRam consoleLength
  split
  · rename_i h; simp [h]
  · rename_i h
    split
    · rename_i h2; simp only [true_iff]; exact ⟨h, h2⟩
    · rename_i h2; simp only [reduceCtorEq, false_iff]; exact fun h3 => h2 h3.2

theorem regionOf_unmapped_iff : regionOf p a = .unmapped ↔ Unmapped p a := by
  unfold regionOf Unmapped InConsole InRam consoleLength
  split
  · rename_i h; simp only [reduceCtorEq, false_iff]; exact fun h3 => h3.1 h
  · rename_i h
    split
    · rename_i h2; simp only [reduceCtorEq, false_iff]; exact fun h3 => h3.2 h2
    · rename_i h2; simp only [true_iff]; exact ⟨h, h2⟩

/-- In a legal configuration an address of RAM is not in the console window. -/
theorem not_inConsole_of_inRam (hp : p.wf) (h : InRam p a) : ¬ InConsole p a := by
  obtain ⟨-, -, hd, -⟩ := hp
  unfold InConsole InRam consoleLength at *
  omega

theorem aligned_iff : aligned a w = true ↔ a.toNat % w.bytes = 0 := by
  have key : ∀ n : Nat, (a.extractLsb' 0 n == 0#n) = true ↔ a.toNat % 2 ^ n = 0 := by
    intro n
    rw [beq_iff_eq, ← BitVec.toNat_inj]
    simp
  cases w with
  | byte => simp [aligned, Width.bytes, Nat.mod_one]
  | half => simpa [aligned, Width.bytes] using key 1
  | word => simpa [aligned, Width.bytes] using key 2

theorem checkAccess_of_console (h : InConsole p a) : checkAccess p a w = .console := by
  rw [checkAccess, regionOf_console_iff.2 h]

theorem checkAccess_of_unmapped (h : Unmapped p a) : checkAccess p a w = .fails .outOfRange := by
  rw [checkAccess, regionOf_unmapped_iff.2 h]

theorem checkAccess_of_ram (hp : p.wf) (h : InRam p a) (ha : a.toNat % w.bytes = 0) : checkAccess p a w = .ram := by
  rw [checkAccess, regionOf_ram_iff.2 ⟨not_inConsole_of_inRam hp h, h⟩]
  simp [aligned_iff.2 ha]

theorem checkAccess_of_misaligned (hp : p.wf) (h : InRam p a) (ha : a.toNat % w.bytes ≠ 0) :
    checkAccess p a w = .fails .misaligned := by
  rw [checkAccess, regionOf_ram_iff.2 ⟨not_inConsole_of_inRam hp h, h⟩]
  simp [mt aligned_iff.1 ha]

/-- An access that reaches RAM starts in it and is aligned. -/
theorem checkAccess_ram (h : checkAccess p a w = .ram) : InRam p a ∧ a.toNat % w.bytes = 0 := by
  unfold checkAccess at h
  split at h
  · cases h
  · cases h
  · rename_i hr
    split at h
    · rename_i ha; exact ⟨(regionOf_ram_iff.1 hr).2, aligned_iff.1 ha⟩
    · cases h

/-- An access of a legal configuration that reaches RAM ends inside it (20_memory R63). -/
theorem checkAccess_ram_fits (hp : p.wf) (h : checkAccess p a w = .ram) :
    p.memoryBase.toNat ≤ a.toNat ∧ a.toNat + w.bytes ≤ p.memoryBase.toNat + p.memorySize := by
  obtain ⟨⟨h1, h2⟩, h3⟩ := checkAccess_ram h
  obtain ⟨-, -, -, h4, h5, -⟩ := hp
  cases w <;> simp only [Width.bytes] at * <;> omega

/-! ### Reads and writes -/

theorem memRead_of_console (h : InConsole s.platform a) : memRead s a w = .ok 0#32 := by
  rw [memRead, checkAccess_of_console h]

theorem memRead_of_unmapped (h : Unmapped s.platform a) : memRead s a w = .error .outOfRange := by
  rw [memRead, checkAccess_of_unmapped h]

theorem memRead_of_misaligned (hp : s.platform.wf) (h : InRam s.platform a) (ha : a.toNat % w.bytes ≠ 0) :
    memRead s a w = .error .misaligned := by
  rw [memRead, checkAccess_of_misaligned hp h ha]

theorem memRead_of_ram (hp : s.platform.wf) (h : InRam s.platform a) (ha : a.toNat % w.bytes = 0) :
    memRead s a w = .ok (s.mem.load a.toNat w) := by
  rw [memRead, checkAccess_of_ram hp h ha]

theorem memWrite_of_console (h : InConsole s.platform a) (v : Word) :
    memWrite s a w v = .ok (s.consoleWrite (a.toNat - s.platform.consoleBase.toNat) v) := by
  rw [memWrite, checkAccess_of_console h]

theorem memWrite_of_unmapped (h : Unmapped s.platform a) (v : Word) : memWrite s a w v = .error .outOfRange := by
  rw [memWrite, checkAccess_of_unmapped h]

theorem memWrite_of_misaligned (hp : s.platform.wf) (h : InRam s.platform a) (ha : a.toNat % w.bytes ≠ 0) (v : Word) :
    memWrite s a w v = .error .misaligned := by
  rw [memWrite, checkAccess_of_misaligned hp h ha]

theorem memWrite_of_ram (hp : s.platform.wf) (h : InRam s.platform a) (ha : a.toNat % w.bytes = 0) (v : Word) :
    memWrite s a w v = .ok (s.ramWrite a w v) := by
  rw [memWrite, checkAccess_of_ram hp h ha]

/-- A read fails exactly as its checks do. -/
theorem memRead_error_iff {e : AccessError} : memRead s a w = .error e ↔ checkAccess s.platform a w = .fails e := by
  unfold memRead
  split <;> simp_all

/-- How an access fails, in terms of its address alone (20_memory R55). -/
theorem checkAccess_fails {e : AccessError} (h : checkAccess p a w = .fails e) :
    (e = .outOfRange ∧ Unmapped p a) ∨ (e = .misaligned ∧ InRam p a ∧ a.toNat % w.bytes ≠ 0) := by
  unfold checkAccess at h
  split at h
  · cases h
  · rename_i hr; cases h; exact .inl ⟨rfl, regionOf_unmapped_iff.1 hr⟩
  · rename_i hr
    split at h
    · cases h
    · rename_i ha
      cases h
      exact .inr ⟨rfl, (regionOf_ram_iff.1 hr).2, mt aligned_iff.2 ha⟩

/-- All a write can do: append to the console stream, store in RAM, or fail. -/
theorem memWrite_cases (s : State) (a : Word) (w : Width) (v : Word) :
    (memWrite s a w v = .ok (s.consoleWrite (a.toNat - s.platform.consoleBase.toNat) v) ∧
      checkAccess s.platform a w = .console) ∨
    (memWrite s a w v = .ok (s.ramWrite a w v) ∧ checkAccess s.platform a w = .ram) ∨
    (∃ e, memWrite s a w v = .error e ∧ checkAccess s.platform a w = .fails e) := by
  unfold memWrite
  split
  · exact .inl ⟨rfl, by assumption⟩
  · exact .inr (.inr ⟨_, rfl, by assumption⟩)
  · exact .inr (.inl ⟨rfl, by assumption⟩)

/-- All a load can do: write its register, or append one LoadFault record. -/
theorem loadInto_cases (s : State) (w : Width) (ext : Word → Word) (rd : RegIdx) (a : Word) :
    (∃ v, memRead s a w = .ok v ∧ s.loadInto w ext rd a = s.writeReg rd (ext v)) ∨
    (∃ e, memRead s a w = .error e ∧ s.loadInto w ext rd a = s.report .loadFault e.toReport a) := by
  unfold State.loadInto
  split
  · rename_i v h; exact .inl ⟨v, h, rfl⟩
  · rename_i e h; exact .inr ⟨e, h, rfl⟩

/-- All a store can do: append to the console stream, store in RAM, or append one StoreFault record. -/
theorem storeTo_cases (s : State) (w : Width) (a v : Word) :
    (s.storeTo w a v = s.consoleWrite (a.toNat - s.platform.consoleBase.toNat) v ∧
      checkAccess s.platform a w = .console) ∨
    (s.storeTo w a v = s.ramWrite a w v ∧ checkAccess s.platform a w = .ram) ∨
    (∃ e, s.storeTo w a v = s.report .storeFault e.toReport a ∧ checkAccess s.platform a w = .fails e) := by
  unfold State.storeTo
  obtain ⟨h, hc⟩ | ⟨h, hc⟩ | ⟨e, h, hc⟩ := memWrite_cases s a w v
  · exact .inl ⟨by rw [h], hc⟩
  · exact .inr (.inl ⟨by rw [h], hc⟩)
  · exact .inr (.inr ⟨e, by rw [h], hc⟩)

/-! ### The step -/

/-- A branch leaves the state alone or sets `next_pc` to its target. -/
theorem branchIf_cases (cond : Word → Word → Bool) (rs1 rs2 : RegIdx) (offset : BitVec 13) (s : State) :
    branchIf cond rs1 rs2 offset s = s ∨
      branchIf cond rs1 rs2 offset s = s.setNextPc (s.pc + offset13 offset) := by
  unfold branchIf
  split
  · exact .inr rfl
  · exact .inl rfl

/-- A fetch reads the configuration, `pc` and RAM, and nothing else. -/
theorem fetch_congr (hp : t.platform = s.platform) (hpc : t.pc = s.pc) (hm : t.mem = s.mem) : t.fetch = s.fetch := by
  rw [State.fetch, State.fetch, memRead, memRead, hp, hpc, hm]

theorem retire_of_running (h : s.halted = false) : s.retire = s.commit := by
  rw [State.retire, h]
  rfl

theorem retire_of_halted (h : s.halted = true) : s.retire = s := by
  rw [State.retire, if_pos h]

/-- What executing an instruction can make of a state. -/
inductive Effect (i : Instr) (s : State) : State → Prop where
  /-- FENCE, and a branch not taken. -/
  | nothing : Effect i s s
  /-- An instruction with a destination register writes it. -/
  | register (v : Word) : Effect i s (s.writeReg (rdOf (encode i)) v)
  /-- JAL and JALR write it and set `next_pc`. -/
  | jump (v target : Word) (even : i.wf = true → s.pc.getLsbD 0 = false → target.getLsbD 0 = false) :
    Effect i s ((s.writeReg (rdOf (encode i)) v).setNextPc target)
  /-- A branch taken sets `next_pc`. -/
  | branch (target : Word) (even : i.wf = true → s.pc.getLsbD 0 = false → target.getLsbD 0 = false) :
    Effect i s (s.setNextPc target)
  /-- A load that fails makes one record, of its address. -/
  | loadFailed (op : opcodeOf (encode i) = 0b0000011#7) (w : Width) (width : w.bytes = 2 ^ ((funct3Of (encode i)).toNat % 4))
    (e : AccessError) (checked : checkAccess s.platform (s.address (rs1Of (encode i)) (immIField (encode i))) w = .fails e) :
    Effect i s (s.report .loadFault e.toReport (s.address (rs1Of (encode i)) (immIField (encode i))))
  /-- A store that fails makes one record, of its address. -/
  | storeFailed (op : opcodeOf (encode i) = 0b0100011#7) (w : Width) (width : w.bytes = 2 ^ ((funct3Of (encode i)).toNat % 4))
    (e : AccessError) (checked : checkAccess s.platform (s.address (rs1Of (encode i)) (immSField (encode i))) w = .fails e) :
    Effect i s (s.report .storeFault e.toReport (s.address (rs1Of (encode i)) (immSField (encode i))))
  /-- A store to the console window. -/
  | console (op : opcodeOf (encode i) = 0b0100011#7) (o : Nat) (v : Word) : Effect i s (s.consoleWrite o v)
  /-- A store to RAM that passed the checks. -/
  | ram (op : opcodeOf (encode i) = 0b0100011#7) (a : Word) (w : Width) (v : Word)
    (checked : checkAccess s.platform a w = .ram) : Effect i s (s.ramWrite a w v)
  /-- ECALL and EBREAK. -/
  | halts (which : i = .ecall ∨ i = .ebreak) : Effect i s s.halt

theorem even_add {x y : Word} (hx : x.getLsbD 0 = false) (hy : y.getLsbD 0 = false) : (x + y).getLsbD 0 = false := by
  simp only [BitVec.getLsbD, Nat.testBit_zero, decide_eq_false_iff_not, BitVec.toNat_add] at *
  omega

theorem branch_effect (i : Instr) (s : State) (cond : Word → Word → Bool) (rs1 rs2 : RegIdx) (offset : BitVec 13)
    (h : i.wf = true → offset.getLsbD 0 = false) : Effect i s (branchIf cond rs1 rs2 offset s) := by
  obtain e | e := branchIf_cases cond rs1 rs2 offset s
  · rw [e]; exact .nothing
  · rw [e]
    refine .branch _ fun hw hp => even_add hp ?_
    rw [offset13, BitVec.getLsbD_signExtend, if_pos (by decide), h hw]
    rfl

theorem load_effect (i : Instr) (s : State) (w : Width) (ext : Word → Word) (op : opcodeOf (encode i) = 0b0000011#7)
    (width : w.bytes = 2 ^ ((funct3Of (encode i)).toNat % 4)) :
    Effect i s (s.loadInto w ext (rdOf (encode i)) (s.address (rs1Of (encode i)) (immIField (encode i)))) := by
  obtain ⟨v, -, e⟩ | ⟨x, hx, e⟩ :=
    loadInto_cases s w ext (rdOf (encode i)) (s.address (rs1Of (encode i)) (immIField (encode i)))
  · rw [e]; exact .register _
  · rw [e]; exact .loadFailed op w width x (memRead_error_iff.1 hx)

theorem store_effect (i : Instr) (s : State) (w : Width) (v : Word) (op : opcodeOf (encode i) = 0b0100011#7)
    (width : w.bytes = 2 ^ ((funct3Of (encode i)).toNat % 4)) :
    Effect i s (s.storeTo w (s.address (rs1Of (encode i)) (immSField (encode i))) v) := by
  obtain ⟨e, -⟩ | ⟨e, hc⟩ | ⟨x, e, hc⟩ := storeTo_cases s w (s.address (rs1Of (encode i)) (immSField (encode i))) v
  · rw [e]; exact .console op _ _
  · rw [e]; exact .ram op _ _ _ hc
  · rw [e]; exact .storeFailed op w width x hc

theorem register_effect (i : Instr) (s : State) (rd : RegIdx) (v : Word) (h : rdOf (encode i) = rd) :
    Effect i s (s.writeReg rd v) := h ▸ Effect.register v

/-- Every instruction completes with one of these effects: later proofs split this and unfold no meaning. -/
theorem exec_effect (i : Instr) (s : State) : ∃ t, exec i s = .next t ∧ Effect i s t := by
  cases i with
  | jal rd offset =>
    refine ⟨_, rfl, ?_⟩
    have h : rdOf (encode (.jal rd offset)) = rd := by simp [encode]
    have := Effect.jump (i := .jal rd offset) (s := s) s.link (s.pc + offset21 offset) fun hw hp => even_add hp (by
      rw [offset21, BitVec.getLsbD_signExtend, if_pos (by decide)]
      simpa [Instr.wf, evenOffset21] using hw)
    rwa [h] at this
  | jalr rd rs1 imm =>
    refine ⟨_, rfl, ?_⟩
    have h : rdOf (encode (.jalr rd rs1 imm)) = rd := by simp [encode]
    have := Effect.jump (i := .jalr rd rs1 imm) (s := s) s.link (s.jalrTarget rs1 imm) fun _ _ => by
      rw [State.jalrTarget, BitVec.getLsbD_and]
      exact Bool.and_false _
    rwa [h] at this
  | beq _ _ _ | bne _ _ _ | blt _ _ _ | bge _ _ _ | bltu _ _ _ | bgeu _ _ _ =>
    exact ⟨_, rfl, branch_effect _ _ _ _ _ _ fun hw => by simpa [Instr.wf, evenOffset13] using hw⟩
  | lb rd rs1 imm =>
    exact ⟨_, rfl, by simpa [encode] using load_effect (.lb rd rs1 imm) s .byte signExtend8
                          (by simp [encode]) (by simp [encode, Width.bytes])⟩
  | lh rd rs1 imm =>
    exact ⟨_, rfl, by simpa [encode] using load_effect (.lh rd rs1 imm) s .half signExtend16
                          (by simp [encode]) (by simp [encode, Width.bytes])⟩
  | lw rd rs1 imm =>
    exact ⟨_, rfl, by simpa [encode] using load_effect (.lw rd rs1 imm) s .word id
                          (by simp [encode]) (by simp [encode, Width.bytes])⟩
  | lbu rd rs1 imm =>
    exact ⟨_, rfl, by simpa [encode] using load_effect (.lbu rd rs1 imm) s .byte zeroExtend8
                          (by simp [encode]) (by simp [encode, Width.bytes])⟩
  | lhu rd rs1 imm =>
    exact ⟨_, rfl, by simpa [encode] using load_effect (.lhu rd rs1 imm) s .half zeroExtend16
                          (by simp [encode]) (by simp [encode, Width.bytes])⟩
  | sb rs1 rs2 imm =>
    exact ⟨_, rfl, by simpa [encode] using store_effect (.sb rs1 rs2 imm) s .byte (s.readReg rs2)
                          (by simp [encode]) (by simp [encode, Width.bytes])⟩
  | sh rs1 rs2 imm =>
    exact ⟨_, rfl, by simpa [encode] using store_effect (.sh rs1 rs2 imm) s .half (s.readReg rs2)
                          (by simp [encode]) (by simp [encode, Width.bytes])⟩
  | sw rs1 rs2 imm =>
    exact ⟨_, rfl, by simpa [encode] using store_effect (.sw rs1 rs2 imm) s .word (s.readReg rs2)
                          (by simp [encode]) (by simp [encode, Width.bytes])⟩
  | fence _ _ _ => exact ⟨_, rfl, .nothing⟩
  | ecall => exact ⟨_, rfl, .halts (.inl rfl)⟩
  | ebreak => exact ⟨_, rfl, .halts (.inr rfl)⟩
  | _ => exact ⟨_, rfl, register_effect _ _ _ _ (by simp [encode])⟩

/-- The meaning of an instruction as a state: every meaning completes. -/
theorem exec_next (i : Instr) (s : State) : ∃ t, exec i s = .next t := by
  cases i <;> exact ⟨_, rfl⟩

/-- What a step can be: refused, the fault of a halted machine, a failed fetch, an illegal word, or an executed instruction. -/
theorem step_cases (s : State) :
    (¬ s.platform.wf ∧ step s = .refused .platformOutsideSpec) ∨
    (s.platform.wf ∧ s.halted = true ∧ step s = .fault .halted) ∨
    (s.platform.wf ∧ s.halted = false ∧
      ((∃ e, s.fetch = .error e ∧ step s = .next (s.fetchFault e)) ∨
       (∃ iw e, s.fetch = .ok iw ∧ decodeWord iw = .error e ∧ step s = .next ((s.fetched iw).decodeError iw)) ∨
       (∃ iw i t, s.fetch = .ok iw ∧ decodeWord iw = .ok i ∧ exec i (s.fetched iw) = .next t ∧
          step s = .next t.retire))) := by
  unfold step
  split
  · rename_i hp
    split
    · rename_i hh; exact .inr (.inl ⟨hp, hh, rfl⟩)
    · rename_i hh
      refine .inr (.inr ⟨hp, by simpa using hh, ?_⟩)
      split
      · rename_i e he; exact .inl ⟨e, he, rfl⟩
      · rename_i iw hf
        right
        unfold stepWord
        split
        · rename_i e hd; exact .inl ⟨iw, e, hf, hd, rfl⟩
        · rename_i i hd
          obtain ⟨t, ht⟩ := exec_next i (s.fetched iw)
          exact .inr ⟨iw, i, t, hf, hd, ht, by rw [ht]⟩
  · rename_i hp; exact .inl ⟨hp, rfl⟩

end Sys2Proof.Machine
end

