-- ==== Sys2Proof/Laws/PerInstr.lean ====
section
/-! SUPPORT. Facts stated for every instruction, one lemma for each constructor. The family `FitsRow`: an instruction's word
matches the row of spec/opcode_table.json that carries its mnemonic. -/

namespace Sys2Proof.Laws.FitsRow

/-- Some row of the table has the instruction's mnemonic and is matched by its word. -/
def Statement (i : Instr) : Prop := ∃ r ∈ opcodeTable, r.mnemonic = i.mnemonic ∧ r.fits (encode i) = true

theorem fits_of_masked {m b w : Word} {n : String} (h : w &&& m = b) : OpcodeRow.fits ⟨n, m, b⟩ w = true := by
  simp [OpcodeRow.fits, h]

/-- The S and B formats have their fixed fields where the I format has them. -/
theorem encodeS_masked (i : BitVec 12) (b a : RegIdx) (f3 : BitVec 3) (op : BitVec 7) :
    encodeS i b a f3 op &&& 0x0000707F#32 = encodeI 0 0 f3 0 op :=
  (masked_funct3_iff f3 op _).2 ⟨opcodeOf_encodeS b a f3 op i, funct3Of_encodeS b a f3 op i⟩

theorem encodeB_masked (i : BitVec 13) (b a : RegIdx) (f3 : BitVec 3) (op : BitVec 7) :
    encodeB i b a f3 op &&& 0x0000707F#32 = encodeI 0 0 f3 0 op :=
  (masked_funct3_iff f3 op _).2 ⟨opcodeOf_encodeB b a f3 op i, funct3Of_encodeB b a f3 op i⟩

theorem encodeJ_masked (i : BitVec 21) (d : RegIdx) (op : BitVec 7) :
    encodeJ i d op &&& 0x0000007F#32 = encodeU 0 0 op :=
  (masked_opcode_iff op _).2 (opcodeOf_encodeJ d op i)

theorem lui (rd : RegIdx) (imm : BitVec 20) : Statement (.lui rd imm) :=
  ⟨⟨"LUI", 0x0000007f#32, 0x00000037#32⟩, by decide, rfl,
    fits_of_masked (encodeU_masked ..)⟩

theorem auipc (rd : RegIdx) (imm : BitVec 20) : Statement (.auipc rd imm) :=
  ⟨⟨"AUIPC", 0x0000007f#32, 0x00000017#32⟩, by decide, rfl,
    fits_of_masked (encodeU_masked ..)⟩

theorem jal (rd : RegIdx) (offset : BitVec 21) : Statement (.jal rd offset) :=
  ⟨⟨"JAL", 0x0000007f#32, 0x0000006f#32⟩, by decide, rfl,
    fits_of_masked (encodeJ_masked ..)⟩

theorem jalr (rd rs1 : RegIdx) (imm : BitVec 12) : Statement (.jalr rd rs1 imm) :=
  ⟨⟨"JALR", 0x0000707f#32, 0x00000067#32⟩, by decide, rfl,
    fits_of_masked (encodeI_masked ..)⟩

theorem beq (rs1 rs2 : RegIdx) (offset : BitVec 13) : Statement (.beq rs1 rs2 offset) :=
  ⟨⟨"BEQ", 0x0000707f#32, 0x00000063#32⟩, by decide, rfl,
    fits_of_masked (encodeB_masked ..)⟩

theorem bne (rs1 rs2 : RegIdx) (offset : BitVec 13) : Statement (.bne rs1 rs2 offset) :=
  ⟨⟨"BNE", 0x0000707f#32, 0x00001063#32⟩, by decide, rfl,
    fits_of_masked (encodeB_masked ..)⟩

theorem blt (rs1 rs2 : RegIdx) (offset : BitVec 13) : Statement (.blt rs1 rs2 offset) :=
  ⟨⟨"BLT", 0x0000707f#32, 0x00004063#32⟩, by decide, rfl,
    fits_of_masked (encodeB_masked ..)⟩

theorem bge (rs1 rs2 : RegIdx) (offset : BitVec 13) : Statement (.bge rs1 rs2 offset) :=
  ⟨⟨"BGE", 0x0000707f#32, 0x00005063#32⟩, by decide, rfl,
    fits_of_masked (encodeB_masked ..)⟩

theorem bltu (rs1 rs2 : RegIdx) (offset : BitVec 13) : Statement (.bltu rs1 rs2 offset) :=
  ⟨⟨"BLTU", 0x0000707f#32, 0x00006063#32⟩, by decide, rfl,
    fits_of_masked (encodeB_masked ..)⟩

theorem bgeu (rs1 rs2 : RegIdx) (offset : BitVec 13) : Statement (.bgeu rs1 rs2 offset) :=
  ⟨⟨"BGEU", 0x0000707f#32, 0x00007063#32⟩, by decide, rfl,
    fits_of_masked (encodeB_masked ..)⟩

theorem lb (rd rs1 : RegIdx) (imm : BitVec 12) : Statement (.lb rd rs1 imm) :=
  ⟨⟨"LB", 0x0000707f#32, 0x00000003#32⟩, by decide, rfl,
    fits_of_masked (encodeI_masked ..)⟩

theorem lh (rd rs1 : RegIdx) (imm : BitVec 12) : Statement (.lh rd rs1 imm) :=
  ⟨⟨"LH", 0x0000707f#32, 0x00001003#32⟩, by decide, rfl,
    fits_of_masked (encodeI_masked ..)⟩

theorem lw (rd rs1 : RegIdx) (imm : BitVec 12) : Statement (.lw rd rs1 imm) :=
  ⟨⟨"LW", 0x0000707f#32, 0x00002003#32⟩, by decide, rfl,
    fits_of_masked (encodeI_masked ..)⟩

theorem lbu (rd rs1 : RegIdx) (imm : BitVec 12) : Statement (.lbu rd rs1 imm) :=
  ⟨⟨"LBU", 0x0000707f#32, 0x00004003#32⟩, by decide, rfl,
    fits_of_masked (encodeI_masked ..)⟩

theorem lhu (rd rs1 : RegIdx) (imm : BitVec 12) : Statement (.lhu rd rs1 imm) :=
  ⟨⟨"LHU", 0x0000707f#32, 0x00005003#32⟩, by decide, rfl,
    fits_of_masked (encodeI_masked ..)⟩

theorem sb (rs1 rs2 : RegIdx) (imm : BitVec 12) : Statement (.sb rs1 rs2 imm) :=
  ⟨⟨"SB", 0x0000707f#32, 0x00000023#32⟩, by decide, rfl,
    fits_of_masked (encodeS_masked ..)⟩

theorem sh (rs1 rs2 : RegIdx) (imm : BitVec 12) : Statement (.sh rs1 rs2 imm) :=
  ⟨⟨"SH", 0x0000707f#32, 0x00001023#32⟩, by decide, rfl,
    fits_of_masked (encodeS_masked ..)⟩

theorem sw (rs1 rs2 : RegIdx) (imm : BitVec 12) : Statement (.sw rs1 rs2 imm) :=
  ⟨⟨"SW", 0x0000707f#32, 0x00002023#32⟩, by decide, rfl,
    fits_of_masked (encodeS_masked ..)⟩

theorem addi (rd rs1 : RegIdx) (imm : BitVec 12) : Statement (.addi rd rs1 imm) :=
  ⟨⟨"ADDI", 0x0000707f#32, 0x00000013#32⟩, by decide, rfl,
    fits_of_masked (encodeI_masked ..)⟩

theorem slti (rd rs1 : RegIdx) (imm : BitVec 12) : Statement (.slti rd rs1 imm) :=
  ⟨⟨"SLTI", 0x0000707f#32, 0x00002013#32⟩, by decide, rfl,
    fits_of_masked (encodeI_masked ..)⟩

theorem sltiu (rd rs1 : RegIdx) (imm : BitVec 12) : Statement (.sltiu rd rs1 imm) :=
  ⟨⟨"SLTIU", 0x0000707f#32, 0x00003013#32⟩, by decide, rfl,
    fits_of_masked (encodeI_masked ..)⟩

theorem xori (rd rs1 : RegIdx) (imm : BitVec 12) : Statement (.xori rd rs1 imm) :=
  ⟨⟨"XORI", 0x0000707f#32, 0x00004013#32⟩, by decide, rfl,
    fits_of_masked (encodeI_masked ..)⟩

theorem ori (rd rs1 : RegIdx) (imm : BitVec 12) : Statement (.ori rd rs1 imm) :=
  ⟨⟨"ORI", 0x0000707f#32, 0x00006013#32⟩, by decide, rfl,
    fits_of_masked (encodeI_masked ..)⟩

theorem andi (rd rs1 : RegIdx) (imm : BitVec 12) : Statement (.andi rd rs1 imm) :=
  ⟨⟨"ANDI", 0x0000707f#32, 0x00007013#32⟩, by decide, rfl,
    fits_of_masked (encodeI_masked ..)⟩

theorem slli (rd rs1 : RegIdx) (shamt : BitVec 5) : Statement (.slli rd rs1 shamt) :=
  ⟨⟨"SLLI", 0xfe00707f#32, 0x00001013#32⟩, by decide, rfl,
    fits_of_masked (encodeR_masked ..)⟩

theorem srli (rd rs1 : RegIdx) (shamt : BitVec 5) : Statement (.srli rd rs1 shamt) :=
  ⟨⟨"SRLI", 0xfe00707f#32, 0x00005013#32⟩, by decide, rfl,
    fits_of_masked (encodeR_masked ..)⟩

theorem srai (rd rs1 : RegIdx) (shamt : BitVec 5) : Statement (.srai rd rs1 shamt) :=
  ⟨⟨"SRAI", 0xfe00707f#32, 0x40005013#32⟩, by decide, rfl,
    fits_of_masked (encodeR_masked ..)⟩

theorem add (rd rs1 rs2 : RegIdx) : Statement (.add rd rs1 rs2) :=
  ⟨⟨"ADD", 0xfe00707f#32, 0x00000033#32⟩, by decide, rfl,
    fits_of_masked (encodeR_masked ..)⟩

theorem sub (rd rs1 rs2 : RegIdx) : Statement (.sub rd rs1 rs2) :=
  ⟨⟨"SUB", 0xfe00707f#32, 0x40000033#32⟩, by decide, rfl,
    fits_of_masked (encodeR_masked ..)⟩

theorem sll (rd rs1 rs2 : RegIdx) : Statement (.sll rd rs1 rs2) :=
  ⟨⟨"SLL", 0xfe00707f#32, 0x00001033#32⟩, by decide, rfl,
    fits_of_masked (encodeR_masked ..)⟩

theorem slt (rd rs1 rs2 : RegIdx) : Statement (.slt rd rs1 rs2) :=
  ⟨⟨"SLT", 0xfe00707f#32, 0x00002033#32⟩, by decide, rfl,
    fits_of_masked (encodeR_masked ..)⟩

theorem sltu (rd rs1 rs2 : RegIdx) : Statement (.sltu rd rs1 rs2) :=
  ⟨⟨"SLTU", 0xfe00707f#32, 0x00003033#32⟩, by decide, rfl,
    fits_of_masked (encodeR_masked ..)⟩

theorem xor (rd rs1 rs2 : RegIdx) : Statement (.xor rd rs1 rs2) :=
  ⟨⟨"XOR", 0xfe00707f#32, 0x00004033#32⟩, by decide, rfl,
    fits_of_masked (encodeR_masked ..)⟩

theorem srl (rd rs1 rs2 : RegIdx) : Statement (.srl rd rs1 rs2) :=
  ⟨⟨"SRL", 0xfe00707f#32, 0x00005033#32⟩, by decide, rfl,
    fits_of_masked (encodeR_masked ..)⟩

theorem sra (rd rs1 rs2 : RegIdx) : Statement (.sra rd rs1 rs2) :=
  ⟨⟨"SRA", 0xfe00707f#32, 0x40005033#32⟩, by decide, rfl,
    fits_of_masked (encodeR_masked ..)⟩

theorem or (rd rs1 rs2 : RegIdx) : Statement (.or rd rs1 rs2) :=
  ⟨⟨"OR", 0xfe00707f#32, 0x00006033#32⟩, by decide, rfl,
    fits_of_masked (encodeR_masked ..)⟩

theorem and (rd rs1 rs2 : RegIdx) : Statement (.and rd rs1 rs2) :=
  ⟨⟨"AND", 0xfe00707f#32, 0x00007033#32⟩, by decide, rfl,
    fits_of_masked (encodeR_masked ..)⟩

theorem mul (rd rs1 rs2 : RegIdx) : Statement (.mul rd rs1 rs2) :=
  ⟨⟨"MUL", 0xfe00707f#32, 0x02000033#32⟩, by decide, rfl,
    fits_of_masked (encodeR_masked ..)⟩

theorem mulh (rd rs1 rs2 : RegIdx) : Statement (.mulh rd rs1 rs2) :=
  ⟨⟨"MULH", 0xfe00707f#32, 0x02001033#32⟩, by decide, rfl,
    fits_of_masked (encodeR_masked ..)⟩

theorem mulhsu (rd rs1 rs2 : RegIdx) : Statement (.mulhsu rd rs1 rs2) :=
  ⟨⟨"MULHSU", 0xfe00707f#32, 0x02002033#32⟩, by decide, rfl,
    fits_of_masked (encodeR_masked ..)⟩

theorem mulhu (rd rs1 rs2 : RegIdx) : Statement (.mulhu rd rs1 rs2) :=
  ⟨⟨"MULHU", 0xfe00707f#32, 0x02003033#32⟩, by decide, rfl,
    fits_of_masked (encodeR_masked ..)⟩

theorem div (rd rs1 rs2 : RegIdx) : Statement (.div rd rs1 rs2) :=
  ⟨⟨"DIV", 0xfe00707f#32, 0x02004033#32⟩, by decide, rfl,
    fits_of_masked (encodeR_masked ..)⟩

theorem divu (rd rs1 rs2 : RegIdx) : Statement (.divu rd rs1 rs2) :=
  ⟨⟨"DIVU", 0xfe00707f#32, 0x02005033#32⟩, by decide, rfl,
    fits_of_masked (encodeR_masked ..)⟩

theorem rem (rd rs1 rs2 : RegIdx) : Statement (.rem rd rs1 rs2) :=
  ⟨⟨"REM", 0xfe00707f#32, 0x02006033#32⟩, by decide, rfl,
    fits_of_masked (encodeR_masked ..)⟩

theorem remu (rd rs1 rs2 : RegIdx) : Statement (.remu rd rs1 rs2) :=
  ⟨⟨"REMU", 0xfe00707f#32, 0x02007033#32⟩, by decide, rfl,
    fits_of_masked (encodeR_masked ..)⟩

theorem fence (rd rs1 : RegIdx) (imm : BitVec 12) : Statement (.fence rd rs1 imm) :=
  ⟨⟨"FENCE", 0x0000707f#32, 0x0000000f#32⟩, by decide, rfl,
    fits_of_masked (encodeI_masked ..)⟩

theorem ecall : Statement .ecall :=
  ⟨⟨"ECALL", 0xffffffff#32, 0x00000073#32⟩, by decide, rfl, rfl⟩

theorem ebreak : Statement .ebreak :=
  ⟨⟨"EBREAK", 0xffffffff#32, 0x00100073#32⟩, by decide, rfl, rfl⟩

end Sys2Proof.Laws.FitsRow
end

