-- ==== Sys2Proof/Laws/Run.lean ====
section
/-! SUPPORT. What a run does with one unit of fuel, and the induction over runs packaged once. -/

namespace Sys2Proof.Machine

variable {s t : State}

@[simp] theorem run_zero (s : State) : run 0 s = .next s := rfl

theorem run_of_halted (n : Nat) (h : s.halted = true) : run n s = .next s := by
  cases n with
  | zero => rfl
  | succ n => rw [run, if_pos h]

theorem run_of_step (n : Nat) (h : step s = .next t) : run (n + 1) s = run n t := by
  have hr : s.halted = false := by
    obtain ⟨-, e⟩ | ⟨-, -, e⟩ | ⟨-, hr, -⟩ := step_cases s
    · rw [e] at h; cases h
    · rw [e] at h; cases h
    · exact hr
  rw [run, hr, h]
  rfl

/-- A property that every step keeps holds wherever a run arrives. -/
theorem run_keeps {P : State → Prop} (keep : ∀ s t, P s → step s = .next t → P t) (n : Nat) (hs : P s)
    (h : run n s = .next t) : P t := by
  induction n generalizing s with
  | zero => cases h; exact hs
  | succ n ih =>
    obtain ⟨-, e⟩ | ⟨-, hh, -⟩ | ⟨-, hr, -⟩ := step_cases s
    · rw [run, e] at h
      split at h
      · cases h; exact hs
      · cases h
    · rw [run_of_halted _ hh] at h; cases h; exact hs
    · rw [run, hr] at h
      cases e : step s with
      | next u => rw [e] at h; exact ih (keep s u hs e) h
      | fault f => rw [e] at h; cases h
      | refused r => rw [e] at h; cases h

end Sys2Proof.Machine
end

