-- ==== Sys2Proof/Tests/Slice0.lean ====
section
/-! SUPPORT. The model's own tests. Expected values come from the spec: decoding from the encodings of 30_encoding and
spec/opcode_table.json, one-step results from 95_test_vectors (tables V1 to V9 and the source's examples S1 to S10). The last part
gives, for every obligation with hypotheses, a concrete case that meets them. -/

namespace Sys2Proof.Tests

open Sys2Proof Sys2Proof.Machine

/-! ### Helpers -/

/-- Reset with one word placed at `pc` and some registers preset. -/
def startAt (pc iw : Word) (regs : List (RegIdx × Word)) : State :=
  regs.foldl (fun s r => s.writeReg r.1 r.2) (State.withFetchWord { State.reset with pc := pc } 32 iw.toNat)

/-- The same at the entry point. -/
def start (iw : Word) (regs : List (RegIdx × Word)) : State := startAt 0x80000000#32 iw regs

/-- Bytes put in RAM by the harness. -/
def withBytes (s : State) (a : Nat) (bs : List Byte) : State := { s with mem := s.mem.writeBytes a bs }

/-- One step is taken and its result passes a check. -/
def after (s : State) (check : State → Bool) : Bool :=
  match step s with
  | .next t => check t
  | _ => false

theorem exists_of_after {s : State} {check : State → Bool} (h : after s check = true) :
    ∃ t, step s = .next t ∧ check t = true := by
  unfold after at h
  split at h
  · rename_i t ht; exact ⟨t, ht, h⟩
  · cases h

/-- `OP x5, x6, x7` with the operands of a row, and what the row says of `x5`. -/
def binary (iw x6 x7 x5 : Word) : Bool :=
  after (start iw [(6#5, x6), (7#5, x7)]) fun t => t.readReg 5#5 == x5 && t.pc == 0x80000004#32 && !t.halted

/-- `OP x5, x6, operand`. -/
def unary (iw x6 x5 : Word) : Bool :=
  after (start iw [(6#5, x6)]) fun t => t.readReg 5#5 == x5 && t.pc == 0x80000004#32 && !t.halted

/-- A branch at the entry point on `x6` and `x7`: `pc` after it. -/
def branches (iw x6 x7 pc : Word) : Bool :=
  after (start iw [(6#5, x6), (7#5, x7)]) fun t =>
    t.pc == pc && t.instructionsExecuted == 1#64 && t.readReg 6#5 == x6 && t.readReg 7#5 == x7

/-- The state of table V4. -/
def loadState (iw x6 : Word) : State :=
  withBytes (start iw [(5#5, 0x11111111#32), (6#5, x6)]) 0x80000200
    [0x80#8, 0x7F#8, 0xFF#8, 0x01#8, 0xEF#8, 0xCD#8, 0xAB#8, 0x89#8]

/-- A row of table V4: `x5` after, and the record, if any. -/
def loads (iw x6 x5 : Word) (reports : List Report) : Bool :=
  after (loadState iw x6) fun t =>
    t.readReg 5#5 == x5 && t.reports == reports && t.pc == 0x80000004#32 && t.instructionsExecuted == 1#64

/-- A row of table V5: the four bytes at `0x80000200`, the console bytes, the record, if any. -/
def stores (iw x6 x7 : Word) (bytes console : List Byte) (reports : List Report) : Bool :=
  after (withBytes (start iw [(6#5, x6), (7#5, x7)]) 0x80000200 [0x55#8, 0x55#8, 0x55#8, 0x55#8]) fun t =>
    (List.range 4).map (fun i => t.mem.read (0x80000200 + i)) == bytes && t.console == console && t.reports == reports &&
      t.pc == 0x80000004#32 && t.instructionsExecuted == 1#64

/-- The four bytes of table V5 unchanged. -/
def untouched : List Byte := [0x55#8, 0x55#8, 0x55#8, 0x55#8]

/-- A word is illegal for the reason given. -/
def illegal (e : Illegal) (iw : Word) : Bool :=
  match decodeWord iw with
  | .error f => f == e
  | .ok _ => false

/-- Through the table interface a row's own bits give an instruction of the row. -/
def tableRow (r : OpcodeRow) : Bool :=
  match decodeTableWord 32 r.bits.toNat with
  | some i => i.mnemonic == r.mnemonic
  | none => false

/-! ### Well-formedness refuses each ill-formed term -/

theorem test_wf_beq_odd_offset : (Instr.beq 1#5 2#5 3#13).wf = false := by decide
theorem test_wf_bne_odd_offset : (Instr.bne 1#5 2#5 3#13).wf = false := by decide
theorem test_wf_blt_odd_offset : (Instr.blt 1#5 2#5 3#13).wf = false := by decide
theorem test_wf_bge_odd_offset : (Instr.bge 1#5 2#5 3#13).wf = false := by decide
theorem test_wf_bltu_odd_offset : (Instr.bltu 1#5 2#5 3#13).wf = false := by decide
theorem test_wf_bgeu_odd_offset : (Instr.bgeu 1#5 2#5 3#13).wf = false := by decide
theorem test_wf_jal_odd_offset : (Instr.jal 1#5 0xFFFFF#21).wf = false := by decide
theorem test_wf_even_offsets : (Instr.jal 1#5 0xFFFFE#21).wf = true ∧ (Instr.bgeu 1#5 2#5 0x1FFE#13).wf = true := by decide

/-! ### Decoding: a word of every row, written out from its format (30_encoding R91, R105 to R111) -/

theorem test_decode_lui : decodeWord 0b10000000000000000001_11111_0110111#32 =
    .ok (.lui 31#5 0x80001#20) := by decide
theorem test_decode_auipc : decodeWord 0b00000000000000000011_00001_0010111#32 =
    .ok (.auipc 1#5 3#20) := by decide
theorem test_decode_jal : decodeWord 0b0_1000000001_1_10000001_00101_1101111#32 =
    .ok (.jal 5#5 0b0_10000001_1_1000000001_0#21) := by decide
theorem test_decode_jalr : decodeWord 0b100000000001_00111_000_00001_1100111#32 =
    .ok (.jalr 1#5 7#5 0x801#12) := by decide
theorem test_decode_beq : decodeWord 0b0_100001_00111_00110_000_1001_1_1100011#32 =
    .ok (.beq 6#5 7#5 0b0_1_100001_1001_0#13) := by decide
theorem test_decode_bne : decodeWord 0b0_100001_00111_00110_001_1001_1_1100011#32 =
    .ok (.bne 6#5 7#5 0b0_1_100001_1001_0#13) := by decide
theorem test_decode_blt : decodeWord 0b0_100001_00111_00110_100_1001_1_1100011#32 =
    .ok (.blt 6#5 7#5 0b0_1_100001_1001_0#13) := by decide
theorem test_decode_bge : decodeWord 0b0_100001_00111_00110_101_1001_1_1100011#32 =
    .ok (.bge 6#5 7#5 0b0_1_100001_1001_0#13) := by decide
theorem test_decode_bltu : decodeWord 0b0_100001_00111_00110_110_1001_1_1100011#32 =
    .ok (.bltu 6#5 7#5 0b0_1_100001_1001_0#13) := by decide
theorem test_decode_bgeu : decodeWord 0b0_100001_00111_00110_111_1001_1_1100011#32 =
    .ok (.bgeu 6#5 7#5 0b0_1_100001_1001_0#13) := by decide
theorem test_decode_lb : decodeWord 0b100000000011_00110_000_00101_0000011#32 =
    .ok (.lb 5#5 6#5 0x803#12) := by decide
theorem test_decode_lh : decodeWord 0b100000000011_00110_001_00101_0000011#32 =
    .ok (.lh 5#5 6#5 0x803#12) := by decide
theorem test_decode_lw : decodeWord 0b100000000011_00110_010_00101_0000011#32 =
    .ok (.lw 5#5 6#5 0x803#12) := by decide
theorem test_decode_lbu : decodeWord 0b100000000011_00110_100_00101_0000011#32 =
    .ok (.lbu 5#5 6#5 0x803#12) := by decide
theorem test_decode_lhu : decodeWord 0b100000000011_00110_101_00101_0000011#32 =
    .ok (.lhu 5#5 6#5 0x803#12) := by decide
theorem test_decode_sb : decodeWord 0b1000000_00111_00110_000_00011_0100011#32 =
    .ok (.sb 6#5 7#5 0x803#12) := by decide
theorem test_decode_sh : decodeWord 0b1000000_00111_00110_001_00011_0100011#32 =
    .ok (.sh 6#5 7#5 0x803#12) := by decide
theorem test_decode_sw : decodeWord 0b1000000_00111_00110_010_00011_0100011#32 =
    .ok (.sw 6#5 7#5 0x803#12) := by decide
theorem test_decode_addi : decodeWord 0b100000000011_00110_000_00101_0010011#32 =
    .ok (.addi 5#5 6#5 0x803#12) := by decide
theorem test_decode_slti : decodeWord 0b100000000011_00110_010_00101_0010011#32 =
    .ok (.slti 5#5 6#5 0x803#12) := by decide
theorem test_decode_sltiu : decodeWord 0b100000000011_00110_011_00101_0010011#32 =
    .ok (.sltiu 5#5 6#5 0x803#12) := by decide
theorem test_decode_xori : decodeWord 0b100000000011_00110_100_00101_0010011#32 =
    .ok (.xori 5#5 6#5 0x803#12) := by decide
theorem test_decode_ori : decodeWord 0b100000000011_00110_110_00101_0010011#32 =
    .ok (.ori 5#5 6#5 0x803#12) := by decide
theorem test_decode_andi : decodeWord 0b100000000011_00110_111_00101_0010011#32 =
    .ok (.andi 5#5 6#5 0x803#12) := by decide
theorem test_decode_slli : decodeWord 0b0000000_11000_00110_001_00101_0010011#32 =
    .ok (.slli 5#5 6#5 24#5) := by decide
theorem test_decode_srli : decodeWord 0b0000000_11000_00110_101_00101_0010011#32 =
    .ok (.srli 5#5 6#5 24#5) := by decide
theorem test_decode_srai : decodeWord 0b0100000_11000_00110_101_00101_0010011#32 =
    .ok (.srai 5#5 6#5 24#5) := by decide
theorem test_decode_add : decodeWord 0b0000000_00111_00110_000_00101_0110011#32 =
    .ok (.add 5#5 6#5 7#5) := by decide
theorem test_decode_sub : decodeWord 0b0100000_00111_00110_000_00101_0110011#32 =
    .ok (.sub 5#5 6#5 7#5) := by decide
theorem test_decode_sll : decodeWord 0b0000000_00111_00110_001_00101_0110011#32 =
    .ok (.sll 5#5 6#5 7#5) := by decide
theorem test_decode_slt : decodeWord 0b0000000_00111_00110_010_00101_0110011#32 =
    .ok (.slt 5#5 6#5 7#5) := by decide
theorem test_decode_sltu : decodeWord 0b0000000_00111_00110_011_00101_0110011#32 =
    .ok (.sltu 5#5 6#5 7#5) := by decide
theorem test_decode_xor : decodeWord 0b0000000_00111_00110_100_00101_0110011#32 =
    .ok (.xor 5#5 6#5 7#5) := by decide
theorem test_decode_srl : decodeWord 0b0000000_00111_00110_101_00101_0110011#32 =
    .ok (.srl 5#5 6#5 7#5) := by decide
theorem test_decode_sra : decodeWord 0b0100000_00111_00110_101_00101_0110011#32 =
    .ok (.sra 5#5 6#5 7#5) := by decide
theorem test_decode_or : decodeWord 0b0000000_00111_00110_110_00101_0110011#32 =
    .ok (.or 5#5 6#5 7#5) := by decide
theorem test_decode_and : decodeWord 0b0000000_00111_00110_111_00101_0110011#32 =
    .ok (.and 5#5 6#5 7#5) := by decide
theorem test_decode_mul : decodeWord 0b0000001_00111_00110_000_00101_0110011#32 =
    .ok (.mul 5#5 6#5 7#5) := by decide
theorem test_decode_mulh : decodeWord 0b0000001_00111_00110_001_00101_0110011#32 =
    .ok (.mulh 5#5 6#5 7#5) := by decide
theorem test_decode_mulhsu : decodeWord 0b0000001_00111_00110_010_00101_0110011#32 =
    .ok (.mulhsu 5#5 6#5 7#5) := by decide
theorem test_decode_mulhu : decodeWord 0b0000001_00111_00110_011_00101_0110011#32 =
    .ok (.mulhu 5#5 6#5 7#5) := by decide
theorem test_decode_div : decodeWord 0b0000001_00111_00110_100_00101_0110011#32 =
    .ok (.div 5#5 6#5 7#5) := by decide
theorem test_decode_divu : decodeWord 0b0000001_00111_00110_101_00101_0110011#32 =
    .ok (.divu 5#5 6#5 7#5) := by decide
theorem test_decode_rem : decodeWord 0b0000001_00111_00110_110_00101_0110011#32 =
    .ok (.rem 5#5 6#5 7#5) := by decide
theorem test_decode_remu : decodeWord 0b0000001_00111_00110_111_00101_0110011#32 =
    .ok (.remu 5#5 6#5 7#5) := by decide
theorem test_decode_fence : decodeWord 0b100000110011_00110_000_00101_0001111#32 =
    .ok (.fence 5#5 6#5 0x833#12) := by decide
theorem test_decode_ecall : decodeWord 0b000000000000_00000_000_00000_1110011#32 =
    .ok (.ecall) := by decide
theorem test_decode_ebreak : decodeWord 0b000000000001_00000_000_00000_1110011#32 =
    .ok (.ebreak) := by decide

/-- The words of table V8 are illegal, each for the reason the table gives. -/
theorem test_decode_illegal_opcodes :
    [0x00000000#32, 0xFFFFFFFF#32, 0x00000001#32, 0x00004501#32, 0x0000202F#32, 0x00002007#32, 0x0000000B#32].all
      (illegal .unknownOpcode) = true := by decide
theorem test_decode_illegal_jalr : illegal .jalrFunct3 0x00001067#32 = true := by decide
theorem test_decode_illegal_branches : [0x00002063#32, 0x00003063#32].all
      (illegal .branchFunct3) = true := by decide
theorem test_decode_illegal_loads :
    [0x00003003#32, 0x00006003#32, 0x00007003#32].all
      (illegal .loadFunct3) = true := by decide
theorem test_decode_illegal_stores : [0x00003023#32, 0x00007023#32].all
      (illegal .storeFunct3) = true := by decide
theorem test_decode_illegal_shifts :
    [0x02031293#32, 0x40031293#32, 0x02035293#32, 0x42035293#32, 0x80035293#32].all
      (illegal .shiftFunct7) = true := by decide
theorem test_decode_illegal_ops :
    [0x40001033#32, 0x04000033#32, 0x40007033#32, 0x42000033#32, 0xFE000033#32].all
      (illegal .opFunct7) = true := by decide
theorem test_decode_illegal_misc_mem : [0x0000100F#32, 0x0000200F#32].all
      (illegal .miscMemFunct3) = true := by decide
theorem test_decode_illegal_system :
    [0x34001073#32, 0xC00022F3#32, 0x30200073#32, 0x10500073#32, 0x000000F3#32, 0x00008073#32, 0x00200073#32,
      0x001000F3#32].all
      (illegal .systemWord) = true := by decide

/-- Bytes: the word is little-endian, what follows it is left, and fewer than four bytes hold no word. -/
theorem test_decode_bytes :
    decode [0x93#8, 0x00#8, 0x50#8, 0x00#8, 0x73#8] = .ok (.addi 1#5 0#5 5#12, [0x73#8]) ∧
    decode [0x93#8, 0x00#8, 0x50#8] = .error .truncated := by decide

/-- Every row's own bits decode through the table interface to an instruction of the row. -/
theorem test_decode_table_rows :
    opcodeTable.all tableRow = true := by decide

/-- Rows of table V1: the five immediates of one word. -/
theorem test_immediates_all_ones : immI 0xFFFFFFFF#32 = 0xFFFFFFFF#32 ∧ immS 0xFFFFFFFF#32 = 0xFFFFFFFF#32 ∧
    immB 0xFFFFFFFF#32 = 0xFFFFFFFE#32 ∧ immU 0xFFFFFFFF#32 = 0xFFFFF000#32 ∧ immJ 0xFFFFFFFF#32 = 0xFFFFFFFE#32 := by
  decide
theorem test_immediates_store_word : immI 0x54002AA3#32 = 0x540#32 ∧ immS 0x54002AA3#32 = 0x555#32 ∧
    immB 0x54002AA3#32 = 0xD54#32 ∧ immU 0x54002AA3#32 = 0x54002000#32 ∧ immJ 0x54002AA3#32 = 0x2540#32 := by decide
theorem test_immediates_jump_word : immI 0x5545506F#32 = 0x554#32 ∧ immS 0x5545506F#32 = 0x540#32 ∧
    immB 0x5545506F#32 = 0x540#32 ∧ immU 0x5545506F#32 = 0x55455000#32 ∧ immJ 0x5545506F#32 = 0x55554#32 := by decide
theorem test_immediates_branch_ends : immB 0x7E000FE3#32 = 0xFFE#32 ∧ immB 0x80000063#32 = 0xFFFFF000#32 ∧
    immB 0x000000E3#32 = 0x800#32 ∧ immB 0x2A0005E3#32 = 0xAAA#32 := by decide
theorem test_immediates_jump_ends : immJ 0x7FFFF06F#32 = 0xFFFFE#32 ∧ immJ 0x8000006F#32 = 0xFFF00000#32 ∧
    immJ 0x0010006F#32 = 0x800#32 ∧ immJ 0x0000106F#32 = 0x1000#32 := by decide

/-! ### One step of each instruction -/

/-- Table V2. -/
theorem test_lui_all_ones : unary 0xFFFFF2B7#32 0#32 0xFFFFF000#32 = true := by decide
theorem test_lui_x0 : after (start 0x12345037#32 []) (fun t => t.readReg 0#5 == 0#32 && t.pc == 0x80000004#32) = true := by
  decide
theorem test_auipc_wraps :
    after (startAt 0x80000100#32 0x80000297#32 []) (fun t => t.readReg 5#5 == 0x100#32 && t.pc == 0x80000104#32) = true := by
  decide
theorem test_auipc_negative :
    after (startAt 0x80000100#32 0xFFFFF297#32 []) (fun t => t.readReg 5#5 == 0x7FFFF100#32) = true := by decide
theorem test_jal_back :
    after (startAt 0x80000100#32 0xF01FF0EF#32 []) (fun t =>
      t.readReg 1#5 == 0x80000104#32 && t.pc == 0x80000000#32 && t.nextPc == 0x80000000#32) = true := by decide
theorem test_jal_x0_to_itself :
    after (startAt 0x80000100#32 0x0000006F#32 []) (fun t => t.readReg 0#5 == 0#32 && t.pc == 0x80000100#32) = true := by
  decide
theorem test_jalr_clears_bit_zero :
    after (startAt 0x80000100#32 0x000280E7#32 [(5#5, 0x80000201#32)]) (fun t =>
      t.pc == 0x80000200#32 && t.readReg 1#5 == 0x80000104#32 && t.readReg 5#5 == 0x80000201#32) = true := by decide
theorem test_jalr_reads_before_it_links :
    after (startAt 0x80000100#32 0x004282E7#32 [(5#5, 0x80000200#32)]) (fun t =>
      t.pc == 0x80000204#32 && t.readReg 5#5 == 0x80000104#32) = true := by decide

/-- Table V3. -/
theorem test_beq_taken : branches 0x00730863#32 0xFFFFFFFF#32 0xFFFFFFFF#32 0x80000010#32 = true := by decide
theorem test_beq_not_taken : branches 0x00730863#32 0x80000000#32 0x7FFFFFFF#32 0x80000004#32 = true := by decide
theorem test_bne_taken : branches 0x00731863#32 0x1#32 0x2#32 0x80000010#32 = true := by decide
theorem test_bne_not_taken : branches 0x00731863#32 0x0#32 0x0#32 0x80000004#32 = true := by decide
theorem test_blt_taken : branches 0x00734863#32 0x80000000#32 0x7FFFFFFF#32 0x80000010#32 = true := by decide
theorem test_blt_not_taken : branches 0x00734863#32 0x1#32 0xFFFFFFFF#32 0x80000004#32 = true := by decide
theorem test_bge_taken : branches 0x00735863#32 0x1#32 0xFFFFFFFF#32 0x80000010#32 = true := by decide
theorem test_bge_not_taken : branches 0x00735863#32 0xFFFFFFFF#32 0x1#32 0x80000004#32 = true := by decide
theorem test_bltu_taken : branches 0x00736863#32 0x7FFFFFFF#32 0x80000000#32 0x80000010#32 = true := by decide
theorem test_bltu_not_taken : branches 0x00736863#32 0xFFFFFFFF#32 0xFFFFFFFF#32 0x80000004#32 = true := by decide
theorem test_bgeu_taken : branches 0x00737863#32 0xFFFFFFFF#32 0x1#32 0x80000010#32 = true := by decide
theorem test_bgeu_not_taken : branches 0x00737863#32 0x1#32 0xFFFFFFFF#32 0x80000004#32 = true := by decide

/-- Table V4. -/
theorem test_lb_sign : loads 0x00030283#32 0x80000200#32 0xFFFFFF80#32 [] = true := by decide
theorem test_lb_below_ram :
    loads 0xFFF30283#32 0x80000000#32 0x11111111#32
      [⟨.loadFault, .outOfRange, 0x80000000#32, 0x7FFFFFFF#32⟩] = true := by decide
theorem test_lbu_zero_extends : loads 0x00034283#32 0x80000200#32 0x00000080#32 [] = true := by decide
theorem test_lbu_last_byte_of_ram : loads 0xFFF34283#32 0x82000000#32 0#32 [] = true := by decide
theorem test_lh_sign : loads 0x00631283#32 0x80000200#32 0xFFFF89AB#32 [] = true := by decide
theorem test_lh_misaligned_at_the_end :
    loads 0xFFF31283#32 0x82000000#32 0x11111111#32
      [⟨.loadFault, .misaligned, 0x80000000#32, 0x81FFFFFF#32⟩] = true := by decide
theorem test_lhu_zero_extends : loads 0x00635283#32 0x80000200#32 0x000089AB#32 [] = true := by decide
theorem test_lhu_misaligned :
    loads 0x00335283#32 0x80000200#32 0x11111111#32
      [⟨.loadFault, .misaligned, 0x80000000#32, 0x80000203#32⟩] = true := by decide
theorem test_lw_negative_offset : loads 0xFFC32283#32 0x80000208#32 0x89ABCDEF#32 [] = true := by decide
theorem test_lw_console_reads_zero : loads 0x00532283#32 0x10000000#32 0#32 [] = true := by decide

/-- Table V5. -/
theorem test_sb_third_byte :
    stores 0x007301A3#32 0x80000200#32 0xA1B2C3D4#32 [0x55#8, 0x55#8, 0x55#8, 0xD4#8] [] [] = true := by decide
theorem test_sb_decimal_of_the_whole_register :
    stores 0x00730223#32 0x10000000#32 0xFFFFFF85#32 untouched [0x2D#8, 0x31#8, 0x32#8, 0x33#8] [] = true := by decide
theorem test_sh_upper_half :
    stores 0x00731123#32 0x80000200#32 0xA1B2C3D4#32 [0x55#8, 0x55#8, 0xD4#8, 0xC3#8] [] [] = true := by decide
theorem test_sh_misaligned_console_offset : stores 0x007312A3#32 0x10000000#32 0x41#32 untouched [] [] = true := by decide
theorem test_sw_little_endian :
    stores 0x00732023#32 0x80000200#32 0xA1B2C3D4#32 [0xD4#8, 0xC3#8, 0xB2#8, 0xA1#8] [] [] = true := by decide
theorem test_sw_misaligned :
    stores 0x00732123#32 0x80000200#32 0xA1B2C3D4#32 untouched []
      [⟨.storeFault, .misaligned, 0x80000000#32, 0x80000202#32⟩] = true := by decide

/-- Table V5, the console texts. -/
theorem test_console_character : consoleText 0 0x12345641#32 = [0x41#8] := by decide
theorem test_console_most_negative : consoleText 4 0x80000000#32 =
    [0x2D#8, 0x32#8, 0x31#8, 0x34#8, 0x37#8, 0x34#8, 0x38#8, 0x33#8, 0x36#8, 0x34#8, 0x38#8] := by decide
theorem test_console_most_positive : consoleText 4 0x7FFFFFFF#32 =
    [0x32#8, 0x31#8, 0x34#8, 0x37#8, 0x34#8, 0x38#8, 0x33#8, 0x36#8, 0x34#8, 0x37#8] := by decide
theorem test_console_zero : consoleText 4 0#32 = [0x30#8] ∧ consoleText 8 0#32 = [0x30#8] := by decide
theorem test_console_hex : consoleText 8 0xDEADBEEF#32 =
    [0x64#8, 0x65#8, 0x61#8, 0x64#8, 0x62#8, 0x65#8, 0x65#8, 0x66#8] ∧
    consoleText 8 0xABC#32 = [0x61#8, 0x62#8, 0x63#8] := by decide
theorem test_console_other_offsets : ∀ o ∈ [1, 2, 3, 5, 6, 7, 9, 10, 11], consoleText o 0x41#32 = [] := by decide

/-- Table V6, immediate forms. -/
theorem test_addi_wraps : unary 0x00130293#32 0xFFFFFFFF#32 0x0#32 = true := by decide
theorem test_addi_negative : unary 0x80030293#32 0x12345678#32 0x12344E78#32 = true := by decide
theorem test_slti_signed : unary 0xFFF32293#32 0x80000000#32 0x1#32 = true := by decide
theorem test_slti_not_less : unary 0xFFF32293#32 0x5#32 0x0#32 = true := by decide
theorem test_sltiu_sign_extended : unary 0xFFF33293#32 0x5#32 0x1#32 = true := by decide
theorem test_sltiu_not_less : unary 0x00133293#32 0xFFFFFFFF#32 0x0#32 = true := by decide
theorem test_xori : unary 0x80034293#32 0x12345678#32 0xEDCBAE78#32 = true := by decide
theorem test_ori : unary 0x80036293#32 0x12345678#32 0xFFFFFE78#32 = true := by decide
theorem test_andi : unary 0x80037293#32 0x12345678#32 0x12345000#32 = true := by decide
theorem test_slli : unary 0x00431293#32 0x12345678#32 0x23456780#32 = true := by decide
theorem test_slli_31 : unary 0x01F31293#32 0x80000001#32 0x80000000#32 = true := by decide
theorem test_srli : unary 0x00435293#32 0x80000001#32 0x8000000#32 = true := by decide
theorem test_srli_31 : unary 0x01F35293#32 0xFFFFFFFF#32 0x1#32 = true := by decide
theorem test_srai : unary 0x40435293#32 0x80000001#32 0xF8000000#32 = true := by decide
theorem test_srai_31 : unary 0x41F35293#32 0xFFFFFFFF#32 0xFFFFFFFF#32 = true := by decide

/-- Table V6, register forms. -/
theorem test_add_wraps : binary 0x007302B3#32 0xFFFFFFFF#32 0x1#32 0x0#32 = true := by decide
theorem test_add : binary 0x007302B3#32 0x12345678#32 0x9ABCDEF0#32 0xACF13568#32 = true := by decide
theorem test_sub_borrows : binary 0x407302B3#32 0x3#32 0x5#32 0xFFFFFFFE#32 = true := by decide
theorem test_sub : binary 0x407302B3#32 0x80000001#32 0x24#32 0x7FFFFFDD#32 = true := by decide
theorem test_sll_amount_mod_32 : binary 0x007312B3#32 0x80000001#32 0x24#32 0x10#32 = true := by decide
theorem test_sll_by_32 : binary 0x007312B3#32 0xDEADBEEF#32 0x20#32 0xDEADBEEF#32 = true := by decide
theorem test_slt_signed : binary 0x007322B3#32 0xFFFFFFFF#32 0x1#32 0x1#32 = true := by decide
theorem test_slt_not_less : binary 0x007322B3#32 0x7FFFFFFF#32 0x1#32 0x0#32 = true := by decide
theorem test_sltu_unsigned : binary 0x007332B3#32 0xFFFFFFFF#32 0x1#32 0x0#32 = true := by decide
theorem test_sltu_less : binary 0x007332B3#32 0x12345678#32 0x9ABCDEF0#32 0x1#32 = true := by decide
theorem test_xor : binary 0x007342B3#32 0x12345678#32 0x9ABCDEF0#32 0x88888888#32 = true := by decide
theorem test_srl_amount_mod_32 : binary 0x007352B3#32 0x80000001#32 0x24#32 0x8000000#32 = true := by decide
theorem test_srl_by_31 : binary 0x007352B3#32 0x80000000#32 0xFFFFFFFF#32 0x1#32 = true := by decide
theorem test_sra_amount_mod_32 : binary 0x407352B3#32 0x80000001#32 0x24#32 0xF8000000#32 = true := by decide
theorem test_sra_by_32 : binary 0x407352B3#32 0xDEADBEEF#32 0x20#32 0xDEADBEEF#32 = true := by decide
theorem test_or : binary 0x007362B3#32 0x12345678#32 0x9ABCDEF0#32 0x9ABCDEF8#32 = true := by decide
theorem test_and : binary 0x007372B3#32 0x12345678#32 0x9ABCDEF0#32 0x12345670#32 = true := by decide

/-- Table V7. -/
theorem test_mul : binary 0x027302B3#32 0x12345678#32 0x9ABCDEF0#32 0x242D2080#32 = true := by decide
theorem test_mul_negative : binary 0x027302B3#32 0x7FFFFFFF#32 0xFFFFFFFF#32 0x80000001#32 = true := by decide
theorem test_mulh : binary 0x027312B3#32 0x12345678#32 0x9ABCDEF0#32 0xF8CC93D6#32 = true := by decide
theorem test_mulh_most_negative : binary 0x027312B3#32 0x80000000#32 0x80000000#32 0x40000000#32 = true := by decide
theorem test_mulhsu_signed_first : binary 0x027322B3#32 0x80000000#32 0x80000000#32 0xC0000000#32 = true := by decide
theorem test_mulhsu_unsigned_second : binary 0x027322B3#32 0x7#32 0xFFFFFFFE#32 0x6#32 = true := by decide
theorem test_mulhu : binary 0x027332B3#32 0xFFFFFFFF#32 0xFFFFFFFF#32 0xFFFFFFFE#32 = true := by decide
theorem test_mulhu_high_bit : binary 0x027332B3#32 0x80000000#32 0x80000000#32 0x40000000#32 = true := by decide
theorem test_div_toward_zero : binary 0x027342B3#32 0xFFFFFFF9#32 0x2#32 0xFFFFFFFD#32 = true := by decide
theorem test_div_overflow_pair : binary 0x027342B3#32 0x80000000#32 0xFFFFFFFF#32 0x80000000#32 = true := by decide
theorem test_divu : binary 0x027352B3#32 0xFFFFFF9C#32 0x7#32 0x24924916#32 = true := by decide
theorem test_divu_by_zero : binary 0x027352B3#32 0x7#32 0x0#32 0xFFFFFFFF#32 = true := by decide
theorem test_rem_sign_of_dividend : binary 0x027362B3#32 0xFFFFFFF9#32 0x2#32 0xFFFFFFFF#32 = true := by decide
theorem test_rem_by_zero : binary 0x027362B3#32 0xFFFFFFF9#32 0x0#32 0xFFFFFFF9#32 = true := by decide
theorem test_remu : binary 0x027372B3#32 0xFFFFFF9C#32 0x7#32 0x2#32 = true := by decide
theorem test_remu_by_zero : binary 0x027372B3#32 0x80000000#32 0x0#32 0x80000000#32 = true := by decide
theorem test_division_corners :
    divSigned 7#32 0#32 = 0xFFFFFFFF#32 ∧ remSigned 0x80000000#32 0xFFFFFFFF#32 = 0#32 := by decide

/-- Table V8, legal words that look odd, and the source's S9. -/
theorem test_fence_writes_no_register :
    after (start 0xFFF3028F#32 [(5#5, 7#32)]) (fun t =>
      t.readReg 5#5 == 7#32 && t.pc == 0x80000004#32 && t.instructionsExecuted == 1#64 && t.reports == []) = true := by decide
theorem test_fence_other_mode_bits : after (start 0x8330000F#32 []) (fun t => t.pc == 0x80000004#32) = true := by decide
theorem test_ecall_halts :
    after (start 0x00000073#32 []) (fun t =>
      t.halted && t.pc == 0x80000000#32 && t.nextPc == 0x80000004#32 && t.instructionsExecuted == 0#64 &&
        t.instructionWord == 0x73#32 && t.reports == []) = true := by decide
theorem test_ebreak_halts :
    after (start 0x00100073#32 []) (fun t =>
      t.halted && t.pc == 0x80000000#32 && t.instructionsExecuted == 0#64 && t.reports == []) = true := by decide

/-- Table V8: an illegal word halts, leaves `pc`, and is reported. -/
theorem test_illegal_word_halts :
    after (start 0x02031293#32 [(5#5, 0x11111111#32)]) (fun t =>
      t.halted && t.pc == 0x80000000#32 && t.nextPc == 0x80000004#32 && t.instructionWord == 0x02031293#32 &&
        t.instructionsExecuted == 0#64 && t.readReg 5#5 == 0x11111111#32 &&
        t.reports == [⟨.decodeError, .unknownOpcode, 0x80000000#32, 0x02031293#32⟩]) = true := by decide

/-- Table V9. -/
theorem test_fetch_misaligned :
    after { State.reset with pc := 0x80000002#32 } (fun t =>
      t.halted && t.pc == 0x80000002#32 && t.nextPc == 0x80000000#32 &&
        t.reports == [⟨.fetchFault, .misaligned, 0x80000002#32, 0x80000002#32⟩]) = true := by decide
theorem test_fetch_past_ram :
    after { State.reset with pc := 0x82000000#32 } (fun t =>
      t.halted && t.reports == [⟨.fetchFault, .outOfRange, 0x82000000#32, 0x82000000#32⟩]) = true := by decide
theorem test_fetch_range_before_alignment :
    after { State.reset with pc := 0x7FFFFFFE#32 } (fun t =>
      t.reports == [⟨.fetchFault, .outOfRange, 0x7FFFFFFE#32, 0x7FFFFFFE#32⟩]) = true := by decide
theorem test_fetch_console :
    after { State.reset with pc := 0x10000002#32 } (fun t =>
      t.halted && t.nextPc == 0x10000006#32 && t.instructionWord == 0#32 &&
        t.reports == [⟨.decodeError, .unknownOpcode, 0x10000002#32, 0#32⟩]) = true := by decide
theorem test_fetch_last_word_of_ram :
    after (startAt 0x81FFFFFC#32 0x00000013#32 []) (fun t => !t.halted && t.pc == 0x82000000#32) = true := by decide
theorem test_halted_has_no_step : step { State.reset with halted := true } = .fault .halted := rfl
theorem test_counter_wraps :
    after { start 0x00000013#32 [] with instructionsExecuted := 0xFFFFFFFFFFFFFFFF#64 } (fun t =>
      t.instructionsExecuted == 0#64) = true := by decide

/-- The codes of the report port (60_exceptions R302) and the status port (40_cycle R151). -/
theorem test_report_codes :
    (Report.request ⟨.storeFault, .misaligned, 4#32, 5#32⟩) = ⟨0b11#2, 1#1, 4#32, 5#32⟩ ∧
    (Report.request ⟨.decodeError, .unknownOpcode, 4#32, 0#32⟩) = ⟨0b01#2, 0#1, 4#32, 0#32⟩ := by decide
theorem test_status_after_reset :
    State.reset.status = ⟨false, 0x80000000#32, 0#64, 0#32, List.replicate 31 0#32⟩ := by decide

/-- Memory stays canonical: writing what an unlisted address reads as removes the cell. -/
theorem test_memory_canonical :
    Memory.write [(3, 1#8), (5, 2#8)] 4 9#8 = [(3, 1#8), (4, 9#8), (5, 2#8)] ∧
    Memory.write [(3, 1#8), (5, 2#8)] 3 0#8 = [(5, 2#8)] ∧ Memory.write [(3, 1#8)] 7 0#8 = [(3, 1#8)] := by decide

/-! ### Witnesses: cases that meet the hypotheses of the obligations -/

/-- A running state of the reference configuration with `x6` and `x7` preset. -/
def operands (x6 x7 : Word) : State := start 0x00000013#32 [(6#5, x6), (7#5, x7)]

/-- A configuration that is not the reference one and meets 00_scope R10 with RAM below the console window. -/
def smallPlatform : Platform := ⟨0x00000000#32, 4, 0xFFFFFFF4#32⟩

/-- The word matches the row's pattern. -/
def meets (iw mask bits : Word) : Bool := iw &&& mask == bits

/-- One word of each row of the table, with operand fields that are not zero, in the table's order. -/
def sampleWords : List Word :=
  [0xFFFFF2B7#32, 0xFFFFF297#32, 0xF01FF0EF#32, 0x000280E7#32] ++
  [0x00730863#32, 0x00731863#32, 0x00734863#32, 0x00735863#32, 0x00736863#32, 0x00737863#32] ++
  [0x00130283#32, 0x00631283#32, 0xFFC32283#32, 0x00034283#32, 0x00635283#32] ++
  [0x007301A3#32, 0x00731123#32, 0xFE732E23#32] ++
  [0xFFF30293#32, 0xFFF32293#32, 0xFFF33293#32, 0xFFF34293#32, 0xFFF36293#32, 0xFFF37293#32] ++
  [0x01F31293#32, 0x01F35293#32, 0x41F35293#32] ++
  [0x007302B3#32, 0x407302B3#32, 0x007312B3#32, 0x007322B3#32, 0x007332B3#32, 0x007342B3#32, 0x007352B3#32,
   0x407352B3#32, 0x007362B3#32, 0x007372B3#32] ++
  [0x027302B3#32, 0x027312B3#32, 0x027322B3#32, 0x027332B3#32, 0x027342B3#32, 0x027352B3#32, 0x027362B3#32,
   0x027372B3#32] ++
  [0xFFF3028F#32, 0x00000073#32, 0x00100073#32]

/-- The hypothesis of every `RowDecodes` clause, row by row. -/
theorem witness_rows : (List.zipWith (fun iw r => meets iw r.mask r.bits) sampleWords opcodeTable).all id = true ∧
    sampleWords.length = 48 ∧ opcodeTable.length = 48 := by decide

theorem witness_UpperImmediateRules :
    meets 0xFFFFF2B7#32 0x0000007F#32 0x00000037#32 = true ∧ meets 0xFFFFF297#32 0x0000007F#32 0x00000017#32 = true := by
  decide

theorem witness_JumpRules :
    meets 0xF01FF0EF#32 0x0000007F#32 0x0000006F#32 = true ∧ meets 0x000280E7#32 0x0000707F#32 0x00000067#32 = true := by
  decide

theorem witness_BranchRules_rows :
    meets 0x00730863#32 0x0000707F#32 0x00000063#32 = true ∧ meets 0x00731863#32 0x0000707F#32 0x00001063#32 = true ∧
    meets 0x00734863#32 0x0000707F#32 0x00004063#32 = true ∧ meets 0x00735863#32 0x0000707F#32 0x00005063#32 = true ∧
    meets 0x00736863#32 0x0000707F#32 0x00006063#32 = true ∧ meets 0x00737863#32 0x0000707F#32 0x00007063#32 = true := by
  decide

/-- Each branch taken and not taken; the pair is where the signed and the unsigned order disagree. -/
theorem witness_BranchRules_conditions :
    (operands 5#32 5#32).readReg 6#5 = (operands 5#32 5#32).readReg 7#5 ∧
    (operands 5#32 6#32).readReg 6#5 ≠ (operands 5#32 6#32).readReg 7#5 ∧
    ((operands 0x80000000#32 0x7FFFFFFF#32).readReg 6#5).toInt < ((operands 0x80000000#32 0x7FFFFFFF#32).readReg 7#5).toInt ∧
    ((operands 0x80000000#32 0x7FFFFFFF#32).readReg 7#5).toNat ≤ ((operands 0x80000000#32 0x7FFFFFFF#32).readReg 6#5).toNat ∧
    ((operands 0x7FFFFFFF#32 0x80000000#32).readReg 7#5).toInt ≤ ((operands 0x7FFFFFFF#32 0x80000000#32).readReg 6#5).toInt ∧
    ((operands 0x7FFFFFFF#32 0x80000000#32).readReg 6#5).toNat <
      ((operands 0x7FFFFFFF#32 0x80000000#32).readReg 7#5).toNat := by decide

theorem witness_LoadRules_rows :
    meets 0x00130283#32 0x0000707F#32 0x00000003#32 = true ∧ meets 0x00631283#32 0x0000707F#32 0x00001003#32 = true ∧
    meets 0xFFC32283#32 0x0000707F#32 0x00002003#32 = true ∧ meets 0x00034283#32 0x0000707F#32 0x00004003#32 = true ∧
    meets 0x00635283#32 0x0000707F#32 0x00005003#32 = true := by decide

/-- Both ends of the console window and of RAM, and the addresses just outside. -/
theorem witness_LoadRules :
    ((operands 0x10000000#32 0#32).platform.wf ∧ (operands 0x10000000#32 0#32).platform = Platform.reference) ∧
    InConsole Platform.reference (effective (operands 0x10000000#32 0#32) 6#5 0#12) ∧
    InConsole Platform.reference (effective (operands 0x10000000#32 0#32) 6#5 11#12) ∧
    (InRam Platform.reference (effective (operands 0x80000000#32 0#32) 6#5 0#12) ∧
      (effective (operands 0x80000000#32 0#32) 6#5 0#12).toNat % 4 = 0) ∧
    (InRam Platform.reference (effective (operands 0x82000000#32 0#32) 6#5 (-4#12)) ∧
      (effective (operands 0x82000000#32 0#32) 6#5 (-4#12)).toNat % 4 = 0) ∧
    (InRam Platform.reference (effective (operands 0x82000000#32 0#32) 6#5 (-1#12)) ∧
      (effective (operands 0x82000000#32 0#32) 6#5 (-1#12)).toNat % 2 ≠ 0) ∧
    Unmapped Platform.reference (effective (operands 0x82000000#32 0#32) 6#5 0#12) ∧
    Unmapped Platform.reference (effective (operands 0x80000000#32 0#32) 6#5 (-1#12)) ∧
    Unmapped Platform.reference (effective (operands 0x10000000#32 0#32) 6#5 12#12) ∧
    Unmapped Platform.reference (effective (operands 0x10000000#32 0#32) 6#5 (-1#12)) ∧
    Unmapped Platform.reference (effective (operands 0#32 0#32) 6#5 0#12) := by decide

theorem witness_StoreRules_rows :
    meets 0x007301A3#32 0x0000707F#32 0x00000023#32 = true ∧ meets 0x00731123#32 0x0000707F#32 0x00001023#32 = true ∧
    meets 0xFE732E23#32 0x0000707F#32 0x00002023#32 = true := by decide

theorem witness_StoreRules :
    ((operands 0x10000000#32 0x41#32).platform.wf ∧ (operands 0x10000000#32 0x41#32).platform = Platform.reference ∧
      (operands 0x10000000#32 0x41#32).mem.wf = true) ∧
    (InRam Platform.reference (effective (operands 0x82000000#32 0#32) 6#5 (-4#12)) ∧
      (effective (operands 0x82000000#32 0#32) 6#5 (-4#12)).toNat % 4 = 0) ∧
    (InRam Platform.reference (effective (operands 0x82000000#32 0#32) 6#5 (-1#12)) ∧
      (effective (operands 0x82000000#32 0#32) 6#5 (-1#12)).toNat % 2 ≠ 0) ∧
    Unmapped Platform.reference (effective (operands 0x82000000#32 0#32) 6#5 0#12) ∧
    effective (operands 0x10000000#32 0x41#32) 6#5 0#12 = Platform.reference.consoleBase ∧
    (effective (operands 0x10000000#32 0x41#32) 6#5 1#12).toNat = Platform.reference.consoleBase.toNat + 1 ∧
    (effective (operands 0x10000000#32 0x41#32) 6#5 11#12).toNat = Platform.reference.consoleBase.toNat + 11 := by decide

theorem witness_StoresToConsoleEmitTheWholeRegister :
    (operands 0x10000000#32 0xFFFFFF85#32).platform.wf ∧
    (effective (operands 0x10000000#32 0xFFFFFF85#32) 6#5 4#12).toNat = Platform.reference.consoleBase.toNat + 4 ∧
    (effective (operands 0x10000000#32 0xFFFFFF85#32) 6#5 8#12).toNat = Platform.reference.consoleBase.toNat + 8 := by decide

theorem witness_AluImmediateRules :
    meets 0xFFF30293#32 0x0000707F#32 0x00000013#32 = true ∧ meets 0xFFF32293#32 0x0000707F#32 0x00002013#32 = true ∧
    meets 0xFFF33293#32 0x0000707F#32 0x00003013#32 = true ∧ meets 0xFFF34293#32 0x0000707F#32 0x00004013#32 = true ∧
    meets 0xFFF36293#32 0x0000707F#32 0x00006013#32 = true ∧ meets 0xFFF37293#32 0x0000707F#32 0x00007013#32 = true := by
  decide

theorem witness_ShiftImmediateRules :
    meets 0x01F31293#32 0xFE00707F#32 0x00001013#32 = true ∧ meets 0x01F35293#32 0xFE00707F#32 0x00005013#32 = true ∧
    meets 0x41F35293#32 0xFE00707F#32 0x40005013#32 = true := by decide

theorem witness_AluRegisterRules :
    meets 0x007302B3#32 0xFE00707F#32 0x00000033#32 = true ∧ meets 0x407302B3#32 0xFE00707F#32 0x40000033#32 = true ∧
    meets 0x007312B3#32 0xFE00707F#32 0x00001033#32 = true ∧ meets 0x007322B3#32 0xFE00707F#32 0x00002033#32 = true ∧
    meets 0x007332B3#32 0xFE00707F#32 0x00003033#32 = true ∧ meets 0x007342B3#32 0xFE00707F#32 0x00004033#32 = true ∧
    meets 0x007352B3#32 0xFE00707F#32 0x00005033#32 = true ∧ meets 0x407352B3#32 0xFE00707F#32 0x40005033#32 = true ∧
    meets 0x007362B3#32 0xFE00707F#32 0x00006033#32 = true ∧ meets 0x007372B3#32 0xFE00707F#32 0x00007033#32 = true := by
  decide

theorem witness_MultiplyRules :
    meets 0x027302B3#32 0xFE00707F#32 0x02000033#32 = true ∧ meets 0x027312B3#32 0xFE00707F#32 0x02001033#32 = true ∧
    meets 0x027322B3#32 0xFE00707F#32 0x02002033#32 = true ∧ meets 0x027332B3#32 0xFE00707F#32 0x02003033#32 = true := by
  decide

theorem witness_UnsignedDivisionRules :
    meets 0x027352B3#32 0xFE00707F#32 0x02005033#32 = true ∧ meets 0x027372B3#32 0xFE00707F#32 0x02007033#32 = true := by
  decide

theorem witness_SignedDivisionRules :
    meets 0x027342B3#32 0xFE00707F#32 0x02004033#32 = true ∧ meets 0x027362B3#32 0xFE00707F#32 0x02006033#32 = true := by
  decide

theorem witness_FenceHasNoEffect : meets 0xFFF3028F#32 0x0000707F#32 0x0000000F#32 = true := by decide

theorem witness_EcallAndEbreakHalt :
    ((start 0x00000073#32 []).platform.wf ∧ (start 0x00000073#32 []).halted = false ∧
      (start 0x00000073#32 []).fetch = .ok 0x00000073#32) ∧
    (start 0x00100073#32 []).fetch = .ok 0x00100073#32 := by decide

/-- An ordinary pair, the overflow pair, and a dividend of each sign. -/
theorem witness_QuotientAndRemainderRebuildTheDividend :
    (2#32 ≠ 0#32 ∧ (7#32 : Word).toInt ≥ 0) ∧ (0xFFFFFFFF#32 ≠ 0#32 ∧ (0x80000000#32 : Word).toInt ≤ 0) := by decide

theorem witness_RegisterZeroIsHardwired :
    Instr.andi ∈ [Instr.addi, .slti, .sltiu, .xori, .ori, .andi] ∧ Instr.srai ∈ [Instr.slli, .srli, .srai] ∧
    Instr.remu ∈ [Instr.add, .sub, .sll, .slt, .sltu, .xor, .srl, .sra, .or, .and, .mul, .mulh, .mulhsu, .mulhu, .div, .divu,
      .rem, .remu] := by
  refine ⟨?_, ?_, ?_⟩ <;> simp only [List.mem_cons, or_true, true_or]

/-- Both ends of each range, at every width. -/
theorem witness_ReadRule :
    State.reset.platform.wf ∧
    (InConsole State.reset.platform 0x10000000#32 ∧ InConsole State.reset.platform 0x1000000B#32) ∧
    (Unmapped State.reset.platform 0x0FFFFFFF#32 ∧ Unmapped State.reset.platform 0x1000000C#32 ∧
      Unmapped State.reset.platform 0x7FFFFFFF#32 ∧ Unmapped State.reset.platform 0x82000000#32 ∧
      Unmapped State.reset.platform 0xFFFFFFFF#32) ∧
    (InRam State.reset.platform 0x81FFFFFF#32 ∧ (0x81FFFFFF#32 : Word).toNat % Width.half.bytes ≠ 0 ∧
      (0x81FFFFFF#32 : Word).toNat % Width.word.bytes ≠ 0) ∧
    ((0x81FFFFFF#32 : Word).toNat % Width.byte.bytes = 0) ∧
    (InRam State.reset.platform 0x80000000#32 ∧ (0x80000000#32 : Word).toNat % Width.word.bytes = 0) ∧
    (InRam State.reset.platform 0x81FFFFFC#32 ∧ (0x81FFFFFC#32 : Word).toNat % Width.word.bytes = 0) := by decide

theorem witness_WriteRule :
    (State.reset.platform.wf ∧ State.reset.mem.wf = true) ∧
    (InConsole State.reset.platform 0x10000000#32 ∧ InConsole State.reset.platform 0x10000004#32 ∧
      InConsole State.reset.platform 0x10000008#32 ∧ InConsole State.reset.platform 0x1000000B#32) ∧
    (Unmapped State.reset.platform 0x1000000C#32 ∧ Unmapped State.reset.platform 0x82000000#32) ∧
    (InRam State.reset.platform 0x81FFFFFF#32 ∧ (0x81FFFFFF#32 : Word).toNat % Width.half.bytes ≠ 0) ∧
    (InRam State.reset.platform 0x81FFFFFC#32 ∧ (0x81FFFFFC#32 : Word).toNat % Width.word.bytes = 0) := by decide

theorem witness_StoredWordReadsBackAtEveryWidth :
    State.reset.platform.wf ∧ State.reset.mem.wf = true ∧ InRam State.reset.platform 0x81FFFFFC#32 ∧
      (0x81FFFFFC#32 : Word).toNat % 4 = 0 := by decide

theorem witness_RamWriteIsIdempotent :
    State.reset.platform.wf ∧ State.reset.mem.wf = true ∧ InRam State.reset.platform 0x80000200#32 ∧
      memWrite State.reset 0x80000200#32 .half 0xC3D4#32 = .ok (State.reset.ramWrite 0x80000200#32 .half 0xC3D4#32) :=
  ⟨by decide, by decide, by decide, rfl⟩

theorem witness_CheckedAccessStaysInRam :
    Platform.reference.wf ∧ InRam Platform.reference 0x81FFFFFC#32 ∧ (0x81FFFFFC#32 : Word).toNat % Width.word.bytes = 0 ∧
    smallPlatform.wf ∧ InRam smallPlatform 0x00000002#32 ∧ (0x00000002#32 : Word).toNat % Width.half.bytes = 0 := by decide

theorem witness_StoredWordIsFetched :
    (operands 0x80000200#32 0x02A00513#32).platform.wf ∧ (operands 0x80000200#32 0x02A00513#32).mem.wf = true ∧
      InRam Platform.reference (effective (operands 0x80000200#32 0x02A00513#32) 6#5 4#12) ∧
      (effective (operands 0x80000200#32 0x02A00513#32) 6#5 4#12).toNat % 4 = 0 := by decide

theorem witness_AccessesAreTheirPortRequests :
    State.reset.platform.wf ∧
    memWrite State.reset 0x81FFFFFC#32 .word 5#32 = .ok (State.reset.ramWrite 0x81FFFFFC#32 .word 5#32) ∧
    memWrite State.reset 0x10000008#32 .byte 5#32 = .ok (State.reset.consoleWrite 8 5#32) ∧
    memWrite State.reset 0x82000000#32 .byte 5#32 = .error .outOfRange ∧
    memRead State.reset 0x81FFFFFC#32 .word = .ok 0#32 ∧ memRead State.reset 0x10000008#32 .word = .ok 0#32 ∧
    ramWriteRequest Platform.reference 0x81FFFFFC#32 .word 5#32 = some ⟨true, 0b10#2, 0x01FFFFFC#32, 5#32⟩ ∧
    memRead State.reset 0x81FFFFFE#32 .word = .error .misaligned ∧ InConsole State.reset.platform 0x1000000B#32 ∧
    (∃ r, ramReadRequest Platform.reference 0x81FFFFFC#32 .word = some r) ∧
    consoleRequest Platform.reference 0x10000008#32 5#32 = some ⟨0b10#2, 5#32⟩ :=
  ⟨by decide, rfl, rfl, rfl, rfl, rfl, rfl, rfl, by decide, ⟨_, rfl⟩, rfl⟩

theorem witness_BootLoadsTheImage :
    (smallPlatform.wf ∧ [1#8, 2#8, 3#8, 4#8].length ≤ smallPlatform.memorySize) ∧
    smallPlatform.memorySize < [1#8, 2#8, 3#8, 4#8, 5#8].length := by decide

theorem witness_EmptyImageHaltsAtOnce : Platform.reference.wf ∧ smallPlatform.wf := by decide

theorem witness_ResetHasTheInvariant : Platform.reference.wf ∧ smallPlatform.wf := by decide

theorem witness_BootHasTheInvariant :
    boot smallPlatform [0x73#8] = .next ((State.resetFor smallPlatform).loadImage [0x73#8]) := rfl

theorem witness_PlacedWordIsFetched :
    State.reset.platform.wf ∧ State.reset.mem.wf = true ∧ State.pcInRam State.reset = true ∧
    State.pcInRam { State.reset with pc := 0x82000000#32, halted := true } = false := by decide

theorem witness_StepRunsTheDecodedInstruction :
    (startAt 0x81FFFFFC#32 0x02A00513#32 []).platform.wf ∧ (startAt 0x81FFFFFC#32 0x02A00513#32 []).halted = false ∧
    InRam Platform.reference (startAt 0x81FFFFFC#32 0x02A00513#32 []).pc ∧
    (startAt 0x81FFFFFC#32 0x02A00513#32 []).pc.toNat % 4 = 0 ∧
    decode [(startAt 0x81FFFFFC#32 0x02A00513#32 []).mem.read 0x81FFFFFC,
      (startAt 0x81FFFFFC#32 0x02A00513#32 []).mem.read 0x81FFFFFD,
      (startAt 0x81FFFFFC#32 0x02A00513#32 []).mem.read 0x81FFFFFE,
      (startAt 0x81FFFFFC#32 0x02A00513#32 []).mem.read 0x81FFFFFF] = .ok (.addi 10#5 0#5 42#12, []) := by decide

theorem witness_RunningStepAlwaysCompletes :
    (¬ (State.resetFor ⟨0#32, 6, 0x10000000#32⟩).platform.wf) ∧
    (State.reset.platform.wf ∧ { State.reset with halted := true }.halted = true) ∧ State.reset.halted = false := by decide

theorem witness_FetchFaultRule :
    (State.reset.platform.wf ∧ State.reset.halted = false) ∧
    (Unmapped Platform.reference 0x82000000#32 ∧ Unmapped Platform.reference 0x7FFFFFFE#32) ∧
    (InRam Platform.reference 0x81FFFFFE#32 ∧ (0x81FFFFFE#32 : Word).toNat % 4 ≠ 0) := by decide

theorem witness_IllegalWordRule :
    (start 0x02031293#32 []).platform.wf ∧ (start 0x02031293#32 []).halted = false ∧
    (start 0x02031293#32 []).fetch = .ok 0x02031293#32 ∧
    opcodeTable.all (fun r => !meets 0x02031293#32 r.mask r.bits) = true := by decide

theorem witness_FetchFromConsoleIsADecodeError :
    State.reset.platform.wf ∧ State.reset.halted = false ∧ InConsole Platform.reference 0x10000000#32 ∧
    InConsole Platform.reference 0x1000000B#32 := by decide

theorem witness_CommitRule : ∃ t, step (start 0x00000013#32 []) = .next t ∧ (!t.halted) = true :=
  exists_of_after (by decide)

theorem witness_PcAndCounterAfterEachInstruction :
    ((start 0xFE62CCE3#32 []).fetch = .ok 0xFE62CCE3#32 ∧ decodeWord 0xFE62CCE3#32 = .ok (.blt 5#5 6#5 (-8#13))) ∧
    ∃ t, step (start 0xFE62CCE3#32 []) = .next t ∧ true = true :=
  ⟨by decide, exists_of_after (by decide)⟩

/-- One state for each cause, and one that does not halt. -/
theorem witness_HaltCauses :
    (∃ t, step { State.reset with pc := 0x82000000#32 } = .next t ∧ t.halted = true) ∧
    (∃ t, step (start 0xFFFFFFFF#32 []) = .next t ∧ t.halted = true) ∧
    (∃ t, step (start 0x00000073#32 []) = .next t ∧ t.halted = true) ∧
    (∃ t, step (start 0x00100073#32 []) = .next t ∧ t.halted = true) ∧
    (∃ t, step (start 0x00000013#32 []) = .next t ∧ (!t.halted) = true) ∧
    { State.reset with halted := true }.halted = true :=
  ⟨exists_of_after (by decide), exists_of_after (by decide), exists_of_after (by decide), exists_of_after (by decide),
    exists_of_after (by decide), rfl⟩

theorem witness_HaltCauseIsReadable :
    ((∃ t, step (start 0x00100073#32 []) = .next t ∧ t.halted = true) ∧ (start 0x00100073#32 []).reports = []) ∧
    ((∃ t, step { State.reset with pc := 0x82000000#32 } = .next t ∧ t.halted = true) ∧ State.reset.NoHaltRecord) ∧
    (∃ t, runImage smallPlatform [0#8, 0#8, 0#8, 0#8] 1 = .next t ∧ t.halted = true) :=
  ⟨⟨exists_of_after (by decide), rfl⟩, ⟨exists_of_after (by decide), fun _ h => nomatch h⟩, _, rfl, rfl⟩

/-- A step that makes a record, and one that emits a byte. -/
theorem witness_StreamsAreAppendOnly :
    (∃ t, step (loadState 0x00032283#32 0#32) = .next t ∧ (t.reports != []) = true) ∧
    (∃ t, step (start 0x00730023#32 [(6#5, 0x10000000#32), (7#5, 0x41#32)]) = .next t ∧ (t.console == [0x41#8]) = true) :=
  ⟨exists_of_after (by decide), exists_of_after (by decide)⟩

/-- A word with a destination, a branch, a store, an illegal word and a failed fetch. -/
theorem witness_StepChangesOnlyTheDestinationRegister :
    ((start 0x007302B3#32 []).fetch = .ok 0x007302B3#32 ∧ 6#5 ≠ (0x007302B3#32 : Word).extractLsb' 7 5) ∧
    ((start 0x00730863#32 []).fetch = .ok 0x00730863#32 ∧ (0x00730863#32 : Word).extractLsb' 0 7 = 0b1100011#7) ∧
    ((start 0x007301A3#32 []).fetch = .ok 0x007301A3#32 ∧ (0x007301A3#32 : Word).extractLsb' 0 7 = 0b0100011#7) ∧
    ((start 0x02031293#32 []).fetch = .ok 0x02031293#32 ∧ decodeWord 0x02031293#32 = .error .shiftFunct7) ∧
    State.fetch { State.reset with pc := 0x82000000#32 } = .error .outOfRange ∧
    ∃ t, step (start 0x007302B3#32 []) = .next t ∧ true = true :=
  ⟨by decide, by decide, by decide, by decide, by decide, exists_of_after (by decide)⟩

theorem witness_OnlyStoresReachRamAndConsole :
    ((loadState 0x00032283#32 0x80000200#32).fetch = .ok 0x00032283#32 ∧
      (0x00032283#32 : Word).extractLsb' 0 7 ≠ 0b0100011#7) ∧
    ∃ t, step (loadState 0x00032283#32 0x80000200#32) = .next t ∧ true = true :=
  ⟨by decide, exists_of_after (by decide)⟩

/-- A running state with a cell in RAM, and a step of it. -/
theorem witness_StepKeepsTheInvariant :
    State.Inv (start 0x007301A3#32 [(6#5, 0x80000200#32)]) ∧
    ∃ t, step (start 0x007301A3#32 [(6#5, 0x80000200#32)]) = .next t ∧ true = true :=
  ⟨⟨by decide, by decide, by decide, by decide, by decide, by decide, .inl (by decide)⟩, exists_of_after (by decide)⟩

/-- Two different states that agree on what a program can observe. -/
theorem witness_HiddenStateHasNoInfluence :
    let s := start 0x007301A3#32 [(6#5, 0x80000200#32)]
    let t := { s with instructionsExecuted := 7#64, nextPc := 12#32, console := [1#8] }
    SameVisible s t ∧ s.platform.wf ∧ s.halted = false ∧ s.mem.wf = true ∧ t.mem.wf = true ∧ s ≠ t :=
  ⟨⟨rfl, rfl, fun _ => rfl, fun _ => rfl, rfl⟩, by decide, by decide, by decide, by decide, by decide⟩

theorem witness_DecodeOfEncode :
    (Instr.jal 1#5 0x100000#21).wf = true ∧ (Instr.beq 1#5 2#5 0xFFE#13).wf = true ∧ Instr.ebreak.wf = true := by decide

theorem witness_EncodeOfDecode : decodeWord 0xFE62CCE3#32 = .ok (.blt 5#5 6#5 (-8#13)) := by decide

theorem witness_DecoderAcceptsExactlyTheTable :
    decodeWord 0x02A00513#32 = .ok (.addi 10#5 0#5 42#12) ∧ opcodeTable.any (fun r => meets 0x41F35293#32 r.mask r.bits) = true := by
  decide

/-- A word for every clause. -/
theorem witness_IllegalEncodingsByGroup :
    [0x0000202F#32, 0xFFFFF2B7#32, 0x00001067#32, 0x00002063#32, 0x00003063#32, 0x00003003#32, 0x00006003#32, 0x00007003#32].map
      (fun iw : Word => (iw.extractLsb' 0 7, iw.extractLsb' 12 3)) =
      [(0x2F#7, 2#3), (0x37#7, 7#3), (0x67#7, 1#3), (0x63#7, 2#3), (0x63#7, 3#3), (0x03#7, 3#3), (0x03#7, 6#3), (0x03#7, 7#3)] ∧
    [0x00003023#32, 0x00007023#32, 0x02031293#32, 0x80035293#32, 0x04000033#32, 0x40001033#32, 0x0000100F#32, 0x30200073#32].map
      (fun iw : Word => (iw.extractLsb' 0 7, iw.extractLsb' 12 3, iw.extractLsb' 25 7)) =
      [(0x23#7, 3#3, 0#7), (0x23#7, 7#3, 0#7), (0x13#7, 1#3, 1#7), (0x13#7, 5#3, 0x40#7), (0x33#7, 0#3, 2#7),
       (0x33#7, 1#3, 0x20#7), (0x0F#7, 1#3, 0#7), (0x73#7, 0#3, 0x18#7)] := by decide

theorem witness_ImmediateRules :
    decodeWord 0xFFF30293#32 = .ok (.addi 5#5 6#5 (-1#12)) ∧ decodeWord 0xFE732E23#32 = .ok (.sw 6#5 7#5 (-4#12)) ∧
    decodeWord 0xFFFFF2B7#32 = .ok (.lui 5#5 0xFFFFF#20) := by decide

theorem witness_OffsetBitWeights :
    decodeWord 0x80000063#32 = .ok (.beq 0#5 0#5 0x1000#13) ∧ decodeWord 0x8000006F#32 = .ok (.jal 0#5 0x100000#21) := by decide

theorem witness_NeitherRangeFailsWithoutEffect :
    Unmapped State.reset.platform 0x0FFFFFFF#32 ∧ Unmapped State.reset.platform 0x1000000C#32 ∧
    Unmapped State.reset.platform 0x7FFFFFFF#32 ∧ Unmapped State.reset.platform 0x82000000#32 := by decide

/-- An image that fits, a step, a halted state, and a legal running state; the last clause's premise is met by the next
witness. -/
theorem witness_RunRule :
    (smallPlatform.wf ∧ [0x6F#8, 0#8, 0#8, 0#8].length ≤ smallPlatform.memorySize) ∧
    (∃ t, step (start 0x00000013#32 []) = .next t ∧ true = true) ∧
    { State.reset with halted := true }.halted = true ∧
    run 1 State.reset = .next (State.reset.fetched 0#32 |>.decodeError 0#32) ∧
    (State.reset.platform.wf ∧ State.reset.halted = false) :=
  ⟨by decide, exists_of_after (by decide), rfl, rfl, by decide⟩

/-- A state of which every step answers the state itself but for the counter: its run never meets a halting cause. -/
theorem witness_RunRule_forever (n : Nat) (t : State) (h : run n (start 0x0000006F#32 []) = .next t) :
    ∃ iw i, t.fetch = .ok iw ∧ decodeWord iw = .ok i ∧ i ≠ .ecall ∧ i ≠ .ebreak := by
  refine ⟨0x0000006F#32, .jal 0#5 0#21, ?_, by decide, by decide, by decide⟩
  refine run_keeps (P := fun s => s.fetch = .ok 0x0000006F#32) ?_ n (by decide) h
  intro s t hs hst
  obtain ⟨-, e⟩ | ⟨-, -, e⟩ | ⟨-, hr, ⟨e, he, -⟩ | ⟨iw, e, hf, hd, -⟩ | ⟨iw, i, u, hf, hd, hx, e⟩⟩ := step_cases s
  · rw [e] at hst; cases hst
  · rw [e] at hst; cases hst
  · rw [he] at hs; cases hs
  · rw [hs] at hf; cases hf; cases hd
  · rw [hs] at hf; cases hf
    cases hd
    rw [e] at hst; cases hst
    cases hx
    rw [retire_of_running, fetch_congr (s := s)]
    · exact hs
    · rfl
    · exact BitVec.add_zero s.pc
    · rfl
    · exact hr

/-- One run that halts and one that does not. -/
theorem witness_RunEndsAtTheFirstHalt :
    (run 5 State.reset = .next (State.reset.fetched 0#32 |>.decodeError 0#32) ∧
      (State.reset.fetched 0#32 |>.decodeError 0#32).halted = true) ∧
    (run 0 State.reset = .next State.reset ∧ State.reset.halted = false) := ⟨⟨rfl, rfl⟩, rfl, rfl⟩

theorem witness_SelfJumpNeverHalts :
    (start 0x0000006F#32 []).platform.wf ∧ (start 0x0000006F#32 []).halted = false ∧
    (start 0x0000006F#32 []).fetch = .ok 0x0000006F#32 := by decide

/-- A step for each kind of record. -/
theorem witness_RecordsLeaveOnTheReportPort :
    (∃ t, step { State.reset with pc := 0x80000002#32 } = .next t ∧ (t.reports.length == 1) = true) ∧
    (∃ t, step State.reset = .next t ∧ (t.reports.length == 1) = true) ∧
    (∃ t, step (loadState 0x00032283#32 0x80000201#32) = .next t ∧ (t.reports.length == 1) = true) ∧
    (∃ t, step (start 0x00732023#32 [(6#5, 0x82000000#32)]) = .next t ∧ (t.reports.length == 1) = true) :=
  ⟨exists_of_after (by decide), exists_of_after (by decide), exists_of_after (by decide), exists_of_after (by decide)⟩

/-- A running state with a record of a failed load, and a step that makes another. -/
theorem witness_RunningHasNoHaltRecord :
    { loadState 0x00032283#32 0x80000201#32 with reports := [⟨.loadFault, .misaligned, 4#32, 5#32⟩] }.HaltRecordsMeanHalted ∧
    (∃ t, step { loadState 0x00032283#32 0x80000201#32 with reports := [⟨.loadFault, .misaligned, 4#32, 5#32⟩] } = .next t ∧
      (!t.halted) = true) :=
  ⟨fun _ r h => by rw [List.mem_singleton.1 h]; decide, exists_of_after (by decide)⟩

theorem witness_ResetHasNoHaltRecord : ∃ s, boot smallPlatform [1#8, 2#8, 3#8, 4#8] = .next s := ⟨_, rfl⟩

end Sys2Proof.Tests
end

section
/-! Every step keeps the invariant (O44). `State.Inv` does not hold in the middle of a step, where `next_pc` is not yet `pc`,
so the proof carries what does: `State.InvInStep`, kept by the fetch and by every effect of an instruction. The end of the
step gives `State.Inv` back. -/

namespace Sys2Proof

/-! ### Decoded instructions are well formed -/

variable {iw : Word} {i : Instr}

theorem decodeBranch_wf (h : decodeBranch iw = .ok i) : i.wf = true := by
  have even : evenOffset13 (offsetBField iw) = true := by simp [evenOffset13, -BitVec.getLsbD_eq_getElem]
  unfold decodeBranch at h
  split at h <;> cases h <;> exact even

/-- Only JAL and the branches have an operand that could be ill formed, and the decoder builds their offsets with bit 0 zero
(30_encoding R98, R100). -/
theorem decodeWord_wf (h : decodeWord iw = .ok i) : i.wf = true := by
  simp only [decodeWord, decodeJalr, decodeLoad, decodeStore, decodeOpImm, decodeShiftLeft, decodeShiftRight, decodeOp,
    decodeOpBase, decodeOpAlt, decodeMulDiv, decodeMiscMem, decodeSystem] at h
  split at h
  case h_3 => -- JAL
    cases h
    simp [Instr.wf, evenOffset21, -BitVec.getLsbD_eq_getElem]
  case h_5 => exact decodeBranch_wf h -- the six branches
  all_goals
    repeat' split at h
    all_goals cases h <;> rfl

end Sys2Proof

namespace Sys2Proof.Machine

/-! ### The invariant inside a step -/

/-- What `State.Inv` says but for where `next_pc` is: this part holds inside a step too. -/
structure State.InvInStep (s : State) : Prop where
  platform : s.platform.wf
  memCanonical : s.mem.wf = true
  memInRam : s.mem.within s.platform.memoryBase.toNat (s.platform.memoryBase.toNat + s.platform.memorySize) = true
  zeroSlot : s.regs[0] = 0#32
  pcEven : s.pc.getLsbD 0 = false
  nextPcEven : s.nextPc.getLsbD 0 = false

variable {s t : State}

theorem State.inv_iff :
    s.Inv ↔ s.InvInStep ∧ (s.nextPc = s.pc ∨ (s.halted = true ∧ s.nextPc = s.pc + 4#32)) :=
  ⟨fun h => ⟨{ h with }, h.nextPcIs⟩, fun ⟨h, hn⟩ => { h with nextPcIs := hn }⟩

theorem State.InvInStep.fetched (h : s.InvInStep) (iw : Word) : (s.fetched iw).InvInStep :=
  { h with nextPcEven := even_add h.pcEven rfl }

theorem State.InvInStep.writeReg (h : s.InvInStep) (r : RegIdx) (v : Word) : (s.writeReg r v).InvInStep :=
  { h with zeroSlot := (writtenRegs_slot_zero s.regs r v).trans h.zeroSlot }

theorem State.InvInStep.setNextPc (h : s.InvInStep) {target : Word} (even : target.getLsbD 0 = false) :
    (s.setNextPc target).InvInStep :=
  { h with nextPcEven := even }

/-- A store that passed the checks ends inside RAM (20_memory R63). -/
theorem State.InvInStep.ramWrite (h : s.InvInStep) {a : Word} {w : Width} (v : Word)
    (checked : checkAccess s.platform a w = .ram) : (s.ramWrite a w v).InvInStep :=
  { h with
    memCanonical := Memory.store_wf _ w v h.memCanonical
    memInRam := Memory.store_within (checkAccess_ram_fits h.platform checked) h.memInRam }

theorem Effect.keeps_invInStep {i : Instr} (e : Effect i s t) (hi : i.wf = true) (h : s.InvInStep) : t.InvInStep := by
  cases e with
  | nothing => exact h
  | register v => exact h.writeReg _ v
  | jump v target even => exact (h.writeReg _ v).setNextPc (even hi h.pcEven)
  | branch target even => exact h.setNextPc (even hi h.pcEven)
  | ram _ a w v checked => exact h.ramWrite v checked
  | loadFailed | storeFailed | console | halts => exact { h with }

/-! ### The end of a step -/

/-- An instruction that leaves the machine halted found it halted, or changed nothing else. -/
theorem Effect.of_halted {i : Instr} (e : Effect i s t) (ht : t.halted = true) : s.halted = true ∨ t = s.halt := by
  cases e with
  | halts => exact .inr rfl
  | _ => exact .inl ht

/-- The commit makes `pc` equal to `next_pc`; a halted machine makes none, so its `next_pc` must be as the fetch left it. -/
theorem State.InvInStep.retire (h : s.InvInStep) (hn : s.halted = true → s.nextPc = s.pc + 4#32) : s.retire.Inv := by
  cases hs : s.halted with
  | false =>
    rw [retire_of_running hs]
    exact State.inv_iff.2 ⟨{ h with pcEven := h.nextPcEven }, .inl rfl⟩
  | true =>
    rw [retire_of_halted hs]
    exact State.inv_iff.2 ⟨h, .inr ⟨hs, hn hs⟩⟩

theorem State.Inv.fetchFault (h : s.Inv) (e : AccessError) : (s.fetchFault e).Inv :=
  { h with nextPcIs := h.nextPcIs.imp id fun hn => ⟨rfl, hn.2⟩ }

theorem State.InvInStep.decodeError (h : s.InvInStep) (iw : Word) : ((s.fetched iw).decodeError iw).Inv :=
  State.inv_iff.2 ⟨{ h.fetched iw with }, .inr ⟨rfl, rfl⟩⟩

theorem State.InvInStep.execute (h : s.InvInStep) (hs : s.halted = false) {iw : Word} {i : Instr}
    (hd : decodeWord iw = .ok i) (hx : exec i (s.fetched iw) = .next t) : t.retire.Inv := by
  obtain ⟨u, hu, e⟩ := exec_effect i (s.fetched iw)
  obtain rfl : t = u := by simpa [hx] using hu
  refine (e.keeps_invInStep (decodeWord_wf hd) (h.fetched iw)).retire fun ht => ?_
  obtain hr | rfl := e.of_halted ht
  · simp [hs] at hr
  · rfl

/-- Settles O44: by the three ways a running machine steps. -/
theorem stepKeepsTheInvariant : Obligations.StepKeepsTheInvariant := by
  intro s t hinv hst
  have h : s.InvInStep := (State.inv_iff.1 hinv).1
  obtain ⟨-, e⟩ | ⟨-, -, e⟩ | ⟨-, hr, ⟨x, -, e⟩ | ⟨iw, x, -, -, e⟩ | ⟨iw, i, u, -, hd, hx, e⟩⟩ := step_cases s <;>
    rw [e] at hst <;> cases hst
  · exact hinv.fetchFault x
  · exact h.decodeError iw
  · exact h.execute hr hd hx

end Sys2Proof.Machine
end

section
/-! What a step makes of each part of the state that 10_state speaks of: the equations of a running machine's step, `pc` and the
counter after an instruction (O38), the register frame (O42), the reset state (O25, O29), x0 (O16). -/

namespace Sys2Proof

/-- The register an instruction writes, none for branches, stores, FENCE, ECALL and EBREAK (10_state R23). -/
def Instr.dest : Instr → Option RegIdx
  | .beq .. | .bne .. | .blt .. | .bge .. | .bltu .. | .bgeu .. | .sb .. | .sh .. | .sw .. | .fence .. | .ecall | .ebreak => none
  | .lui rd _ | .auipc rd _ | .jal rd _ | .jalr rd _ _ | .lb rd _ _ | .lh rd _ _ | .lw rd _ _ | .lbu rd _ _ | .lhu rd _ _
  | .addi rd _ _ | .slti rd _ _ | .sltiu rd _ _ | .xori rd _ _ | .ori rd _ _ | .andi rd _ _ | .slli rd _ _ | .srli rd _ _
  | .srai rd _ _ | .add rd _ _ | .sub rd _ _ | .sll rd _ _ | .slt rd _ _ | .sltu rd _ _ | .xor rd _ _ | .srl rd _ _
  | .sra rd _ _ | .or rd _ _ | .and rd _ _ | .mul rd _ _ | .mulh rd _ _ | .mulhsu rd _ _ | .mulhu rd _ _ | .div rd _ _
  | .divu rd _ _ | .rem rd _ _ | .remu rd _ _ => some rd

end Sys2Proof

namespace Sys2Proof.Machine

variable {s t : State} {iw : Word} {i : Instr}

/-! ### The step of a running machine -/

theorem running_of_step (h : step s = .next t) : s.platform.wf ∧ s.halted = false := by
  obtain ⟨-, e⟩ | ⟨-, -, e⟩ | ⟨hp, hr, -⟩ := step_cases s
  · simp [e] at h
  · simp [e] at h
  · exact ⟨hp, hr⟩

theorem step_of_fetch_error (hp : s.platform.wf) (hr : s.halted = false) {e : AccessError} (hf : s.fetch = .error e) :
    step s = .next (s.fetchFault e) := by
  rw [step, if_pos hp, hr, hf]
  rfl

theorem step_of_decode_error (hp : s.platform.wf) (hr : s.halted = false) {e : Illegal} (hf : s.fetch = .ok iw)
    (hd : decodeWord iw = .error e) : step s = .next ((s.fetched iw).decodeError iw) := by
  rw [step, if_pos hp, hr, hf]
  simp [stepWord, hd]

theorem step_of_decode (hp : s.platform.wf) (hr : s.halted = false) (hf : s.fetch = .ok iw) (hd : decodeWord iw = .ok i)
    (hx : exec i (s.fetched iw) = .next t) : step s = .next t.retire := by
  rw [step, if_pos hp, hr, hf]
  simp [stepWord, hd, hx]

/-- The step of a word that decodes is the instruction's execution and then the commit. -/
theorem exists_exec_of_step (hf : s.fetch = .ok iw) (hd : decodeWord iw = .ok i) (h : step s = .next t) :
    ∃ u, exec i (s.fetched iw) = .next u ∧ t = u.retire := by
  obtain ⟨hp, hr⟩ := running_of_step h
  obtain ⟨u, hu⟩ := exec_next i (s.fetched iw)
  exact ⟨u, hu, by simpa [step_of_decode hp hr hf hd hu] using h.symm⟩

@[simp] theorem retire_readReg (s : State) (r : RegIdx) : s.retire.readReg r = s.readReg r := by
  unfold State.retire
  split <;> rfl

/-! ### Registers and `next_pc` after the shared operations -/

theorem writeReg_readReg_of_ne (s : State) {r rd : RegIdx} (v : Word) (h : r ≠ rd) :
    (s.writeReg rd v).readReg r = s.readReg r := by
  simp [writeReg_readReg, h]

theorem loadInto_readReg_of_ne (s : State) (w : Width) (ext : Word → Word) {r rd : RegIdx} (a : Word) (h : r ≠ rd) :
    (s.loadInto w ext rd a).readReg r = s.readReg r := by
  obtain ⟨v, -, e⟩ | ⟨x, -, e⟩ := loadInto_cases s w ext rd a
  · rw [e, writeReg_readReg_of_ne s _ h]
  · rw [e, State.report_readReg]

@[simp] theorem storeTo_readReg (s : State) (w : Width) (a v : Word) (r : RegIdx) :
    (s.storeTo w a v).readReg r = s.readReg r := by
  obtain ⟨e, -⟩ | ⟨e, -⟩ | ⟨x, e, -⟩ := storeTo_cases s w a v <;> (rw [e]; rfl)

@[simp] theorem branchIf_readReg (cond : Word → Word → Bool) (rs1 rs2 : RegIdx) (offset : BitVec 13) (s : State)
    (r : RegIdx) : (branchIf cond rs1 rs2 offset s).readReg r = s.readReg r := by
  obtain e | e := branchIf_cases cond rs1 rs2 offset s
  · rw [e]
  · rw [e, State.setNextPc_readReg]

@[simp] theorem loadInto_nextPc (s : State) (w : Width) (ext : Word → Word) (rd : RegIdx) (a : Word) :
    (s.loadInto w ext rd a).nextPc = s.nextPc := by
  obtain ⟨v, -, e⟩ | ⟨x, -, e⟩ := loadInto_cases s w ext rd a <;> (rw [e]; rfl)

@[simp] theorem storeTo_nextPc (s : State) (w : Width) (a v : Word) : (s.storeTo w a v).nextPc = s.nextPc := by
  obtain ⟨e, -⟩ | ⟨e, -⟩ | ⟨x, e, -⟩ := storeTo_cases s w a v <;> (rw [e]; rfl)

/-! ### Targets and addresses in integer arithmetic -/

theorem add_signExtend {n : Nat} (a : Word) (x : BitVec n) :
    a + x.signExtend 32 = BitVec.ofInt 32 (a.toNat + x.toInt) := by
  rw [BitVec.ofInt_add, BitVec.ofInt_natCast, BitVec.ofNat_toNat, BitVec.setWidth_eq]
  rfl

theorem pc_add_offset13 (s : State) (offset : BitVec 13) : s.pc + offset13 offset = relative s.pc offset.toInt :=
  add_signExtend s.pc offset

theorem pc_add_offset21 (s : State) (offset : BitVec 21) : s.pc + offset21 offset = relative s.pc offset.toInt :=
  add_signExtend s.pc offset

theorem address_eq_effective (s : State) (rs1 : RegIdx) (imm : BitVec 12) : s.address rs1 imm = effective s rs1 imm :=
  add_signExtend (s.readReg rs1) imm

/-- JALR's mask gives the even number at or below the sum. -/
theorem and_clear_bit_zero (a : Word) : a &&& 0xFFFFFFFE#32 = BitVec.ofNat 32 (a.toNat / 2 * 2) := by
  rw [show (0xFFFFFFFE#32 : Word) = BitVec.allOnes 32 <<< 1 from rfl, ← BitVec.shiftLeft_ushiftRight]
  exact BitVec.eq_of_toNat_eq (by simp [Nat.shiftLeft_eq, Nat.shiftRight_eq_div_pow])

theorem jalrTarget_eq (s : State) (rs1 : RegIdx) (imm : BitVec 12) :
    s.jalrTarget rs1 imm = BitVec.ofNat 32 ((effective s rs1 imm).toNat / 2 * 2) := by
  rw [State.jalrTarget, address_eq_effective, and_clear_bit_zero]

/-! ### `pc` and the counter after an instruction -/

theorem Effect.instructionsExecuted (e : Effect i s t) : t.instructionsExecuted = s.instructionsExecuted := by
  cases e <;> rfl

theorem Effect.halted (e : Effect i s t) (hi : ¬ (i = .ecall ∨ i = .ebreak)) : t.halted = s.halted := by
  cases e with
  | halts which => exact absurd which hi
  | _ => rfl

/-- After the fetch a branch has the target in `next_pc` when its condition holds, and the address of the next instruction
when not. -/
theorem branchIf_nextPc {cond : Word → Word → Bool} {rs1 rs2 : RegIdx} (offset : BitVec 13) {p : Prop} [Decidable p]
    (hn : s.nextPc = s.pc + 4#32) (h : cond (s.readReg rs1) (s.readReg rs2) = true ↔ p) :
    (branchIf cond rs1 rs2 offset s).nextPc = if p then relative s.pc offset.toInt else s.pc + 4#32 := by
  unfold branchIf
  split
  · rw [if_pos (h.1 ‹_›)]
    exact pc_add_offset13 s offset
  · rw [if_neg (mt h.2 ‹_›), hn]

theorem pcAfter_fetched (s : State) (iw : Word) (i : Instr) : pcAfter (s.fetched iw) i = pcAfter s i := by
  cases i <;> rfl

/-- An instruction that does not halt leaves in `next_pc` what the commit makes the new `pc`. -/
theorem exec_nextPc (hn : s.nextPc = s.pc + 4#32) (hi : ¬ (i = .ecall ∨ i = .ebreak)) (hx : exec i s = .next t) :
    t.nextPc = pcAfter s i := by
  cases i with
  | ecall | ebreak => simp at hi
  | jal rd offset =>
    cases hx
    exact pc_add_offset21 s offset
  | jalr rd rs1 imm =>
    cases hx
    exact jalrTarget_eq s rs1 imm
  | beq | bne | blt | bge | bltu | bgeu =>
    cases hx
    exact branchIf_nextPc _ hn (by simp [equal, lessSigned, lessUnsigned])
  | lb | lh | lw | lbu | lhu =>
    cases hx
    exact (loadInto_nextPc ..).trans hn
  | sb | sh | sw =>
    cases hx
    exact (storeTo_nextPc ..).trans hn
  | _ =>
    cases hx
    exact hn

/-- Settles O38: ECALL and EBREAK halt and are not committed; every other instruction is committed with the `next_pc` it left. -/
theorem pcAndCounterAfterEachInstruction : Obligations.PcAndCounterAfterEachInstruction := by
  intro s t iw i hf hd hst
  obtain ⟨-, hr⟩ := running_of_step hst
  obtain ⟨u, hx, rfl⟩ := exists_exec_of_step hf hd hst
  by_cases hi : i = .ecall ∨ i = .ebreak
  · rw [if_pos hi]
    obtain rfl | rfl := hi <;> cases hx <;> exact ⟨rfl, rfl⟩
  · obtain ⟨u', hx', e⟩ := exec_effect i (s.fetched iw)
    obtain rfl : u = u' := by simpa [hx] using hx'
    rw [if_neg hi, retire_of_running ((e.halted hi).trans hr)]
    exact ⟨(exec_nextPc rfl hi hx).trans (pcAfter_fetched s iw i), congrArg (· + 1#64) e.instructionsExecuted⟩

/-! ### The register an instruction can change -/

/-- An instruction changes no register but its destination. -/
theorem exec_readReg (hx : exec i s = .next t) {r : RegIdx} (hr : i.dest ≠ some r) : t.readReg r = s.readReg r := by
  cases i with
  | beq | bne | blt | bge | bltu | bgeu =>
    cases hx
    exact branchIf_readReg ..
  | sb | sh | sw =>
    cases hx
    exact storeTo_readReg ..
  | fence | ecall | ebreak =>
    cases hx
    rfl
  | lb rd | lh rd | lw rd | lbu rd | lhu rd =>
    cases hx
    exact loadInto_readReg_of_ne _ _ _ _ fun h => hr (congrArg some h.symm)
  | _ =>
    cases hx
    exact writeReg_readReg_of_ne _ _ fun h => hr (congrArg some h.symm)

/-- The decoder takes the destination from the `rd` field, but in the BRANCH, STORE, MISC-MEM and SYSTEM groups. -/
theorem decodeWord_dest (h : decodeWord iw = .ok i) :
    i.dest = if opcodeOf iw ∈ [0b1100011#7, 0b0100011#7, 0b0001111#7, 0b1110011#7] then none else some (rdOf iw) := by
  simp only [decodeWord, decodeJalr, decodeBranch, decodeLoad, decodeStore, decodeOpImm, decodeShiftLeft, decodeShiftRight,
    decodeOp, decodeOpBase, decodeOpAlt, decodeMulDiv, decodeMiscMem, decodeSystem] at h
  split at h
  case h_12 => cases h -- an unknown opcode
  all_goals
    rename_i hop
    simp only [hop]
    repeat' split at h
    all_goals cases h <;> rfl

theorem step_sameRegs_of_fetch_error {e : AccessError} (hf : s.fetch = .error e) (h : step s = .next t) : SameRegs s t := by
  obtain ⟨hp, hr⟩ := running_of_step h
  rw [step_of_fetch_error hp hr hf] at h
  cases h
  exact fun r => rfl

theorem step_sameRegs_of_decode_error {e : Illegal} (hf : s.fetch = .ok iw) (hd : decodeWord iw = .error e)
    (h : step s = .next t) : SameRegs s t := by
  obtain ⟨hp, hr⟩ := running_of_step h
  rw [step_of_decode_error hp hr hf hd] at h
  cases h
  exact fun r => rfl

theorem step_readReg_of_decode (hf : s.fetch = .ok iw) (hd : decodeWord iw = .ok i) (h : step s = .next t) {r : RegIdx}
    (hr : i.dest ≠ some r) : t.readReg r = s.readReg r := by
  obtain ⟨u, hx, rfl⟩ := exists_exec_of_step hf hd h
  exact (retire_readReg u r).trans (exec_readReg hx hr)

/-- Settles O42: a failed fetch and an illegal word change no register, an instruction only its destination, which is the
word's `rd` or, in the four groups without one, none. -/
theorem stepChangesOnlyTheDestinationRegister : Obligations.StepChangesOnlyTheDestinationRegister := by
  intro s t hst
  refine ⟨fun iw hf r hne => ?_, fun iw hf hnone r => ?_, fun e hf => step_sameRegs_of_fetch_error hf hst⟩
  · cases hd : decodeWord iw with
    | error e => exact step_sameRegs_of_decode_error hf hd hst r
    | ok i =>
      refine step_readReg_of_decode hf hd hst ?_
      rw [decodeWord_dest hd]
      split
      · simp
      · exact fun h => hne (Option.some.inj h).symm
  · cases hd : decodeWord iw with
    | error e => exact step_sameRegs_of_decode_error hf hd hst r
    | ok i =>
      have group : opcodeOf iw ∈ [0b1100011#7, 0b0100011#7, 0b0001111#7, 0b1110011#7] := by
        simpa [hd, opcodeOf] using hnone
      refine step_readReg_of_decode hf hd hst ?_
      rw [decodeWord_dest hd, if_pos group]
      simp

/-! ### x0 -/

theorem aluImm_zero (f : Word → Word → Word) (rs1 : RegIdx) (v : Word) (s : State) : aluImm f 0#5 rs1 v s = s :=
  writeReg_zero s _

theorem shiftImm_zero (f : Word → BitVec 5 → Word) (rs1 : RegIdx) (n : BitVec 5) (s : State) :
    shiftImm f 0#5 rs1 n s = s :=
  writeReg_zero s _

theorem aluReg_zero (f : Word → Word → Word) (rs1 rs2 : RegIdx) (s : State) : aluReg f 0#5 rs1 rs2 s = s :=
  writeReg_zero s _

/-- Settles O16: every result goes to its register through `writeReg`, which discards a write to x0. -/
theorem registerZeroIsHardwired : Obligations.RegisterZeroIsHardwired := by
  refine ⟨readReg_zero, writeReg_zero, fun s imm => ?_, fun s rs1 imm => ?_, fun s rs1 n => ?_, fun s rs1 rs2 => ?_⟩
  · exact ⟨congrArg Host.Outcome.next (writeReg_zero s _), congrArg Host.Outcome.next (writeReg_zero s _)⟩
  · simp [exec, execAddi, execSlti, execSltiu, execXori, execOri, execAndi, aluImm_zero]
  · simp [exec, execSlli, execSrli, execSrai, shiftImm_zero]
  · simp [exec, execAdd, execSub, execSll, execSlt, execSltu, execXor, execSrl, execSra, execOr,
      execAnd, execMul, execMulh, execMulhsu, execMulhu, execDiv, execDivu, execRem, execRemu, aluReg_zero]

/-! ### Reset -/

theorem resetFor_readReg (p : Platform) (r : RegIdx) : (State.resetFor p).readReg r = 0#32 := by
  simp [State.readReg, State.resetFor]

/-- Settles O25: the fields of `State.resetFor`, with every register read through `readReg` and every byte of the empty memory. -/
theorem resetState : Obligations.ResetState := by
  intro p
  exact ⟨_, rfl, rfl, rfl, rfl, rfl, resetFor_readReg p, rfl, rfl, fun _ => rfl, rfl, rfl⟩

/-- RAM's base is a multiple of 4, so the entry point is even (00_scope R10). -/
theorem memoryBase_even {p : Platform} (hp : p.wf) : p.memoryBase.getLsbD 0 = false := by
  obtain ⟨-, -, -, base, -⟩ := hp
  simp only [BitVec.getLsbD, Nat.testBit_zero, decide_eq_false_iff_not]
  omega

theorem resetFor_inv {p : Platform} (hp : p.wf) : (State.resetFor p).Inv where
  platform := hp
  memCanonical := State.resetFor_mem_wf p
  memInRam := rfl
  zeroSlot := rfl
  pcEven := memoryBase_even hp
  nextPcEven := memoryBase_even hp
  nextPcIs := .inl rfl

/-- Settles O29: the reference configuration is a legal one. -/
theorem resetHasTheInvariant : Obligations.ResetHasTheInvariant :=
  ⟨resetFor_inv (by decide), fun _ => resetFor_inv⟩

end Sys2Proof.Machine
end

section
/-! What a program cannot observe has no influence (O45). Two running machines that agree on what is visible agree on `next_pc`
too once they have fetched; from there every operation takes agreeing states to agreeing states and appends the same to both
pairs of streams. `AgreeSince` is that relation, with the states the step began from as its first two arguments. -/

namespace Sys2Proof.Machine

/-- From `s₀` to `s` and from `t₀` to `t` the same bytes and the same records were appended to the streams. -/
def SameAppended (s₀ t₀ s t : State) : Prop :=
  ∃ (text : List Byte) (records : List Report), s.console = s₀.console ++ text ∧ t.console = t₀.console ++ text ∧
    s.reports = s₀.reports ++ records ∧ t.reports = t₀.reports ++ records

/-- Inside a step that began from `s₀` and `t₀`: `s` and `t` agree on what a program can observe and on `next_pc`, RAM as
equal data, and have appended the same. -/
structure AgreeSince (s₀ t₀ s t : State) : Prop where
  platform : t.platform = s.platform
  pc : t.pc = s.pc
  nextPc : t.nextPc = s.nextPc
  regs : SameRegs s t
  mem : t.mem = s.mem
  halted : t.halted = s.halted
  appended : SameAppended s₀ t₀ s t

variable {s₀ t₀ s t : State}

theorem SameAppended.refl (s t : State) : SameAppended s t s t := ⟨[], [], by simp⟩

theorem SameAppended.consoleWrite (h : SameAppended s₀ t₀ s t) (o : Nat) (v : Word) :
    SameAppended s₀ t₀ (s.consoleWrite o v) (t.consoleWrite o v) := by
  obtain ⟨text, records, hs, ht, hrs, hrt⟩ := h
  exact ⟨text ++ consoleText o v, records, by simp [hs], by simp [ht], hrs, hrt⟩

/-- A record names the `pc`, so two states append the same one only when they agree on it. -/
theorem SameAppended.report (h : SameAppended s₀ t₀ s t) (hpc : t.pc = s.pc) (k : ReportKind) (e : ReportError)
    (info : Word) : SameAppended s₀ t₀ (s.report k e info) (t.report k e info) := by
  obtain ⟨text, records, hs, ht, hrs, hrt⟩ := h
  exact ⟨text, records ++ [⟨k, e, s.pc, info⟩], hs, ht, by simp [hrs], by simp [hrt, hpc]⟩

/-! ### The relation is kept by every operation -/

namespace AgreeSince

variable (h : AgreeSince s₀ t₀ s t)
include h

theorem sameVisible : SameVisible s t :=
  ⟨h.platform, h.pc, h.regs, fun a => by rw [h.mem], h.halted⟩

theorem writeReg (r : RegIdx) (v : Word) : AgreeSince s₀ t₀ (s.writeReg r v) (t.writeReg r v) :=
  { h with regs := fun q => by rw [writeReg_readReg, writeReg_readReg, h.regs q] }

theorem setNextPc (target : Word) : AgreeSince s₀ t₀ (s.setNextPc target) (t.setNextPc target) :=
  { h with nextPc := rfl }

theorem halt : AgreeSince s₀ t₀ s.halt t.halt :=
  { h with halted := rfl }

theorem consoleWrite (o : Nat) (v : Word) : AgreeSince s₀ t₀ (s.consoleWrite o v) (t.consoleWrite o v) :=
  { h with appended := h.appended.consoleWrite o v }

theorem ramWrite (a : Word) (w : Width) (v : Word) : AgreeSince s₀ t₀ (s.ramWrite a w v) (t.ramWrite a w v) :=
  { h with mem := by simp [h.mem] }

theorem report (k : ReportKind) (e : ReportError) (info : Word) :
    AgreeSince s₀ t₀ (s.report k e info) (t.report k e info) :=
  { h with appended := h.appended.report h.pc k e info }

theorem retire : AgreeSince s₀ t₀ s.retire t.retire := by
  cases hs : s.halted with
  | true => rwa [retire_of_halted hs, retire_of_halted (h.halted.trans hs)]
  | false =>
    rw [retire_of_running hs, retire_of_running (h.halted.trans hs)]
    exact { h with pc := h.nextPc }

theorem address (rs1 : RegIdx) (imm : BitVec 12) : t.address rs1 imm = s.address rs1 imm := by
  rw [State.address, State.address, h.regs]

theorem memRead (a : Word) (w : Width) : memRead t a w = memRead s a w := by
  rw [Machine.memRead, Machine.memRead, h.platform, h.mem]

theorem loadInto (w : Width) (ext : Word → Word) (rd : RegIdx) (a : Word) :
    AgreeSince s₀ t₀ (s.loadInto w ext rd a) (t.loadInto w ext rd a) := by
  rw [State.loadInto, State.loadInto, h.memRead]
  split
  · exact h.writeReg _ _
  · exact h.report _ _ _

theorem storeTo (w : Width) (a v : Word) : AgreeSince s₀ t₀ (s.storeTo w a v) (t.storeTo w a v) := by
  rw [State.storeTo, State.storeTo, memWrite, memWrite, h.platform]
  cases checkAccess s.platform a w with
  | console => exact h.consoleWrite _ _
  | ram => exact h.ramWrite _ _ _
  | fails e => exact h.report _ _ _

/-! ### The shapes of the meanings -/

theorem upperImmediate (rd : RegIdx) (v : Word) : AgreeSince s₀ t₀ (s.writeReg rd (s.pc + v)) (t.writeReg rd (t.pc + v)) := by
  rw [h.pc]
  exact h.writeReg _ _

theorem jump (rd : RegIdx) {x y : Word} (target : y = x) :
    AgreeSince s₀ t₀ ((s.writeReg rd s.link).setNextPc x) ((t.writeReg rd t.link).setNextPc y) := by
  rw [State.link, State.link, h.pc, target]
  exact (h.writeReg _ _).setNextPc _

theorem branchIf (cond : Word → Word → Bool) (rs1 rs2 : RegIdx) (offset : BitVec 13) :
    AgreeSince s₀ t₀ (branchIf cond rs1 rs2 offset s) (branchIf cond rs1 rs2 offset t) := by
  rw [Machine.branchIf, Machine.branchIf, h.regs, h.regs, h.pc]
  split
  · exact h.setNextPc _
  · exact h

theorem load (w : Width) (ext : Word → Word) (rd rs1 : RegIdx) (imm : BitVec 12) :
    AgreeSince s₀ t₀ (s.loadInto w ext rd (s.address rs1 imm)) (t.loadInto w ext rd (t.address rs1 imm)) := by
  rw [h.address]
  exact h.loadInto ..

theorem store (w : Width) (rs1 rs2 : RegIdx) (imm : BitVec 12) :
    AgreeSince s₀ t₀ (s.storeTo w (s.address rs1 imm) (s.readReg rs2)) (t.storeTo w (t.address rs1 imm) (t.readReg rs2)) := by
  rw [h.address, h.regs]
  exact h.storeTo ..

theorem aluImm (f : Word → Word → Word) (rd rs1 : RegIdx) (v : Word) :
    AgreeSince s₀ t₀ (aluImm f rd rs1 v s) (aluImm f rd rs1 v t) := by
  rw [Machine.aluImm, Machine.aluImm, h.regs]
  exact h.writeReg _ _

theorem shiftImm (f : Word → BitVec 5 → Word) (rd rs1 : RegIdx) (n : BitVec 5) :
    AgreeSince s₀ t₀ (shiftImm f rd rs1 n s) (shiftImm f rd rs1 n t) := by
  rw [Machine.shiftImm, Machine.shiftImm, h.regs]
  exact h.writeReg _ _

theorem aluReg (f : Word → Word → Word) (rd rs1 rs2 : RegIdx) :
    AgreeSince s₀ t₀ (aluReg f rd rs1 rs2 s) (aluReg f rd rs1 rs2 t) := by
  rw [Machine.aluReg, Machine.aluReg, h.regs, h.regs]
  exact h.writeReg _ _

/-- Every instruction takes agreeing states to agreeing states. -/
theorem exec (i : Instr) :
    ∃ s' t', exec i s = .next s' ∧ exec i t = .next t' ∧ AgreeSince s₀ t₀ s' t' := by
  cases i with
  | lui => exact ⟨_, _, rfl, rfl, h.writeReg _ _⟩
  | auipc => exact ⟨_, _, rfl, rfl, h.upperImmediate _ _⟩
  | jal rd offset => exact ⟨_, _, rfl, rfl, h.jump rd (by rw [h.pc])⟩
  | jalr rd rs1 imm => exact ⟨_, _, rfl, rfl, h.jump rd (by rw [State.jalrTarget, State.jalrTarget, h.address])⟩
  | beq | bne | blt | bge | bltu | bgeu => exact ⟨_, _, rfl, rfl, h.branchIf ..⟩
  | lb | lh | lw | lbu | lhu => exact ⟨_, _, rfl, rfl, h.load ..⟩
  | sb | sh | sw => exact ⟨_, _, rfl, rfl, h.store ..⟩
  | addi | slti | sltiu | xori | ori | andi => exact ⟨_, _, rfl, rfl, h.aluImm ..⟩
  | slli | srli | srai => exact ⟨_, _, rfl, rfl, h.shiftImm ..⟩
  | fence => exact ⟨_, _, rfl, rfl, h⟩
  | ecall | ebreak => exact ⟨_, _, rfl, rfl, h.halt⟩
  | _ => exact ⟨_, _, rfl, rfl, h.aluReg ..⟩

end AgreeSince

/-! ### The step -/

/-- The fetch sets `next_pc` from `pc`: two states that agree on what is visible agree on it after the fetch. -/
theorem SameVisible.fetched (h : SameVisible s t) (hm : t.mem = s.mem) (iw : Word) :
    AgreeSince s t (s.fetched iw) (t.fetched iw) :=
  { h with nextPc := by simp [h.pc], mem := hm, appended := .refl s t }

theorem SameVisible.fetchFault (h : SameVisible s t) (e : AccessError) : SameVisible (s.fetchFault e) (t.fetchFault e) :=
  { h with halted := rfl }

theorem SameVisible.step (h : SameVisible s t) (hm : t.mem = s.mem) (hp : s.platform.wf) (hr : s.halted = false) :
    ∃ s' t', step s = .next s' ∧ step t = .next t' ∧ SameVisible s' t' ∧ SameAppended s t s' t' := by
  have hpt : t.platform.wf := h.platform ▸ hp
  have hrt : t.halted = false := h.halted.trans hr
  have hft : t.fetch = s.fetch := fetch_congr h.platform h.pc hm
  cases hf : s.fetch with
  | error e =>
    refine ⟨_, _, step_of_fetch_error hp hr hf, step_of_fetch_error hpt hrt (hft.trans hf), h.fetchFault e, ?_⟩
    exact ⟨[], [⟨.fetchFault, e.toReport, s.pc, s.pc⟩], by simp [h.pc]⟩
  | ok iw =>
    have hfetched := h.fetched hm iw
    cases hd : decodeWord iw with
    | error e =>
      have key := (hfetched.report .decodeError .unknownOpcode iw).halt
      exact ⟨_, _, step_of_decode_error hp hr hf hd, step_of_decode_error hpt hrt (hft.trans hf) hd, key.sameVisible,
        key.appended⟩
    | ok i =>
      obtain ⟨u, v, hu, hv, key⟩ := hfetched.exec i
      exact ⟨_, _, step_of_decode hp hr hf hd hu, step_of_decode hpt hrt (hft.trans hf) hd hv, key.retire.sameVisible,
        key.retire.appended⟩

/-- Settles O45: canonical memories that read the same are equal data, and then each way of stepping keeps the agreement. -/
theorem hiddenStateHasNoInfluence : Obligations.HiddenStateHasNoInfluence := by
  intro s t h hp hr hs ht
  have hm : t.mem = s.mem := Memory.eq_of_read ht hs h.bytes
  obtain ⟨s', t', es, et, hvis, text, records, happ⟩ := h.step hm hp hr
  exact ⟨s', t', text, records, es, et, hvis, happ⟩

end Sys2Proof.Machine
end

section
/-! The memory family: what a read answers and a write does (O17, O18, O21), reads after a store (O19, O20, O22), accesses in
neither range (O54), the loaded image (O27, O30), and the instructions that reach RAM and the console (O43). -/

namespace Sys2Proof.Machine

variable {s t : State} {p : Platform} {a v : Word} {w : Width}

/-! ### Addresses of an aligned access -/

/-- Settles O21: an aligned access that starts in RAM passes the checks, and such an access fits in RAM. -/
theorem checkedAccessStaysInRam : Obligations.CheckedAccessStaysInRam := by
  intro p a w hp ha hal
  obtain ⟨-, fits⟩ := checkAccess_ram_fits hp (checkAccess_of_ram hp ha hal)
  obtain ⟨ram, -⟩ := hp
  exact ⟨fits, fits.trans ram⟩

/-- The bytes of an aligned word of RAM lie in RAM, at consecutive addresses without wrap. -/
theorem inRam_of_word (hp : p.wf) (ha : InRam p a) (hal : a.toNat % 4 = 0) {i : Nat} (hi : i < 4) :
    (a + BitVec.ofNat 32 i).toNat = a.toNat + i ∧ InRam p (a + BitVec.ofNat 32 i) := by
  obtain ⟨inside, noWrap⟩ := checkedAccessStaysInRam p a .word hp ha hal
  simp only [Width.bytes] at inside noWrap
  have sum : (a + BitVec.ofNat 32 i).toNat = a.toNat + i := by
    rw [BitVec.toNat_add, BitVec.toNat_ofNat, Nat.mod_eq_of_lt (a := i) (by omega), Nat.mod_eq_of_lt (by omega)]
  exact ⟨sum, by omega, by omega⟩

/-! ### Reads -/

theorem toNat_append_byte {n : Nat} (x : BitVec n) (b : Byte) : (x ++ b).toNat = b.toNat + 256 * x.toNat := by
  rw [BitVec.toNat_append, ← Nat.shiftLeft_add_eq_or_of_lt b.isLt, Nat.shiftLeft_eq]
  omega

/-- A sum of bytes in base 256, the lowest apart. -/
theorem sum_base256_succ (f : Nat → Nat) (n : Nat) :
    ((List.range (n + 1)).map fun i => f i * 256 ^ i).sum =
      f 0 + 256 * ((List.range n).map fun i => f (i + 1) * 256 ^ i).sum := by
  rw [List.range_succ_eq_map, List.map_cons, List.sum_cons, List.map_map, ← List.sum_map_mul_left]
  simp only [Function.comp_def, pow_succ, pow_zero, mul_one, mul_comm, mul_left_comm, Nat.succ_eq_add_one]

/-- The value of a load, byte by byte (20_memory R58, R59): both sides are taken apart at the lowest byte. -/
theorem Memory.load_toNat (m : Memory) (a : Nat) (w : Width) :
    (m.load a w).toNat = ((List.range w.bytes).map fun i => (m.read (a + i)).toNat * 256 ^ i).sum := by
  cases w with
  | byte | half =>
    simp [Memory.load, Width.bytes, sum_base256_succ, toNat_append_byte, BitVec.toNat_setWidth_of_le, -BitVec.toNat_setWidth]
  | word => simp [Memory.load, Width.bytes, sum_base256_succ, toNat_append_byte, wordOfBytes]

/-- Settles O17: one clause for each outcome of the checks. -/
theorem readRule : Obligations.ReadRule := by
  intro s a w hp
  exact ⟨memRead_of_console, memRead_of_unmapped, memRead_of_misaligned hp,
    fun ha hal => ⟨_, memRead_of_ram hp ha hal, Memory.load_toNat s.mem a.toNat w⟩⟩

/-! ### Writes -/

theorem consoleWrite_emits (s : State) (o : Nat) (v : Word) : Emits s (s.consoleWrite o v) (consoleText o v) :=
  ⟨rfl, rfl, fun _ => rfl, rfl, ⟨rfl, rfl, rfl, rfl, rfl⟩, fun _ => rfl⟩

/-- Byte `i` of a stored value is read at offset `i`. -/
theorem Memory.read_store_add {m : Memory} (hm : m.wf = true) (a : Nat) (v : Word) {i : Nat} (hi : i < w.bytes) :
    (m.store a w v).read (a + i) = byteOfWord v i := by
  rw [Memory.read_store a _ w v hm, if_pos (by omega), Nat.add_sub_cancel_left]

theorem ramWrite_storesBytes (hm : s.mem.wf = true) (a : Word) (w : Width) (v : Word) :
    StoresBytes s (s.ramWrite a w v) a w.bytes v where
  stored i hi := by rw [State.ramWrite_mem, Memory.read_store_add hm _ _ hi, byteOfWord_toNat]
  others b hb := by rw [State.ramWrite_mem, Memory.read_store _ _ _ _ hm, if_neg (by omega)]
  regs _ := rfl
  nextPc := rfl
  control := ⟨rfl, rfl, rfl, rfl, rfl⟩
  streams := ⟨rfl, rfl⟩

/-- The text a console write appends, by address instead of by offset. -/
theorem consoleText_of_inConsole (h : InConsole p a) (v : Word) :
    consoleText (a.toNat - p.consoleBase.toNat) v =
      if a.toNat = p.consoleBase.toNat then charText v
      else if a.toNat = p.consoleBase.toNat + 4 then decimalText v
      else if a.toNat = p.consoleBase.toNat + 8 then hexText v else [] := by
  obtain ⟨base, -⟩ := h
  have offset (k : Nat) : a.toNat - p.consoleBase.toNat = k ↔ a.toNat = p.consoleBase.toNat + k := by omega
  simp only [consoleText, offset, Nat.add_zero]

/-- Settles O18: one clause for each outcome of the checks, with the frame of a console write and of a RAM write. -/
theorem writeRule : Obligations.WriteRule := by
  intro s a w v hp hm
  refine ⟨fun hc => ⟨_, memWrite_of_console hc v, ?_⟩, fun hu => memWrite_of_unmapped hu v,
    fun ha hmis => memWrite_of_misaligned hp ha hmis v,
    fun ha hal => ⟨_, memWrite_of_ram hp ha hal v, ramWrite_storesBytes hm a w v⟩⟩
  rw [← consoleText_of_inConsole hc v]
  exact consoleWrite_emits s _ v

/-! ### Reads after a store -/

/-- A stored word is loaded back. -/
theorem Memory.load_store_word {m : Memory} (hm : m.wf = true) (a : Nat) (v : Word) :
    (m.store a .word v).load a .word = v := by
  have byte {i : Nat} (hi : i < 4) := Memory.read_store_add (w := .word) hm a v hi
  have byte0 := byte (i := 0) (by decide)
  rw [Nat.add_zero] at byte0
  rw [Memory.load, byte0, byte (by decide), byte (by decide), byte (by decide), wordOfBytes_bytes]

/-- The half at offset 0 or 2 of a stored word. -/
theorem Memory.load_half_store_word {m : Memory} (hm : m.wf = true) (a : Nat) (v : Word) {i : Nat} (hi : i + 1 < 4) :
    (m.store a .word v).load (a + i) .half = (v.extractLsb' (8 * i) 16).zeroExtend 32 := by
  have byte {j : Nat} (hj : j < 4) := Memory.read_store_add (w := .word) hm a v hj
  rw [Memory.load, Nat.add_assoc, byte hi, byte (by omega), byteOfWord, byteOfWord,
    BitVec.extractLsb'_append_extractLsb'_eq_extractLsb' (by omega)]

/-- The byte at offset 0 to 3 of a stored word. -/
theorem Memory.load_byte_store_word {m : Memory} (hm : m.wf = true) (a : Nat) (v : Word) {i : Nat} (hi : i < 4) :
    (m.store a .word v).load (a + i) .byte = (v.extractLsb' (8 * i) 8).zeroExtend 32 := by
  rw [Memory.load, Memory.read_store_add hm a v hi, byteOfWord]

section StoredWord

variable (hp : s.platform.wf) (hm : s.mem.wf = true) (ha : InRam s.platform a) (hal : a.toNat % 4 = 0)
include hp ha hal

/-- A read of an aligned part of a word of RAM is a load. -/
theorem memRead_part {i : Nat} (hi : i < 4) (part : i % w.bytes = 0) :
    memRead s (a + BitVec.ofNat 32 i) w = .ok (s.mem.load (a.toNat + i) w) := by
  obtain ⟨sum, inRam⟩ := inRam_of_word hp ha hal hi
  have aligned : (a.toNat + i) % w.bytes = 0 := by
    cases w <;> simp only [Width.bytes] at part ⊢ <;> omega
  rw [memRead_of_ram hp inRam (sum ▸ aligned), sum]

include hm

theorem memRead_stored_word (v : Word) : memRead (s.ramWrite a .word v) a .word = .ok v := by
  rw [memRead_of_ram (w := .word) (s := s.ramWrite a .word v) hp ha hal, State.ramWrite_mem, Memory.load_store_word hm]

theorem memRead_half_of_stored_word (v : Word) {i : Nat} (hi : i + 1 < 4) (part : i % 2 = 0) :
    memRead (s.ramWrite a .word v) (a + BitVec.ofNat 32 i) .half = .ok ((v.extractLsb' (8 * i) 16).zeroExtend 32) := by
  rw [memRead_part (w := .half) (s := s.ramWrite a .word v) hp ha hal (by omega) part, State.ramWrite_mem,
    Memory.load_half_store_word hm _ _ hi]

theorem memRead_byte_of_stored_word (v : Word) {i : Nat} (hi : i < 4) :
    memRead (s.ramWrite a .word v) (a + BitVec.ofNat 32 i) .byte = .ok ((v.extractLsb' (8 * i) 8).zeroExtend 32) := by
  rw [memRead_part (w := .byte) (s := s.ramWrite a .word v) hp ha hal hi (Nat.mod_one i), State.ramWrite_mem,
    Memory.load_byte_store_word hm _ _ hi]

end StoredWord

/-- Settles O19: every part of an aligned word is itself an aligned access inside RAM, so its read is a load of stored bytes. -/
theorem storedWordReadsBackAtEveryWidth : Obligations.StoredWordReadsBackAtEveryWidth := by
  intro s a v hp hm ha hal
  have low := memRead_half_of_stored_word hp hm ha hal v (i := 0) (by decide) rfl
  rw [BitVec.add_zero] at low
  exact ⟨_, memWrite_of_ram (w := .word) hp ha hal v, memRead_stored_word hp hm ha hal v, low,
    memRead_half_of_stored_word hp hm ha hal v (by decide) rfl, fun i hi => memRead_byte_of_stored_word hp hm ha hal v hi⟩

/-- Storing a value where it is stored changes nothing: canonical memories with equal bytes are equal. -/
theorem Memory.store_store {m : Memory} (hm : m.wf = true) (a : Nat) (w : Width) (v : Word) :
    (m.store a w v).store a w v = m.store a w v := by
  have hs := Memory.store_wf a w v hm
  refine Memory.eq_of_read (Memory.store_wf a w v hs) hs fun x => ?_
  rw [Memory.read_store a x w v hs, Memory.read_store a x w v hm]
  split <;> rfl

theorem ramWrite_ramWrite (hm : s.mem.wf = true) (a : Word) (w : Width) (v : Word) :
    (s.ramWrite a w v).ramWrite a w v = s.ramWrite a w v := by
  simp only [State.ramWrite, Memory.store_store hm]

/-- Settles O20: a write to RAM that succeeds is aligned, so it stores. -/
theorem ramWriteIsIdempotent : Obligations.RamWriteIsIdempotent := by
  intro s t a w v hp hm ha h
  by_cases hal : a.toNat % w.bytes = 0
  · obtain rfl : s.ramWrite a w v = t := by simpa [memWrite_of_ram hp ha hal] using h
    exact (memWrite_of_ram (s := s.ramWrite a w v) hp ha hal v).trans (congrArg Except.ok (ramWrite_ramWrite hm a w v))
  · simp [memWrite_of_misaligned hp ha hal] at h

theorem storeTo_of_ram (hp : s.platform.wf) (ha : InRam s.platform a) (hal : a.toNat % w.bytes = 0) (v : Word) :
    s.storeTo w a v = s.ramWrite a w v := by
  rw [State.storeTo, memWrite_of_ram hp ha hal]

/-- Settles O22: SW stores the word, and the fetch is a word read at the same address. -/
theorem storedWordIsFetched : Obligations.StoredWordIsFetched := by
  intro s rs1 rs2 imm hp hm ha hal
  refine ⟨_, rfl, ?_⟩
  rw [address_eq_effective, storeTo_of_ram (w := .word) hp ha hal]
  exact memRead_stored_word hp hm ha hal (s.readReg rs2)

/-! ### Accesses in neither range -/

theorem loadInto_of_unmapped (h : Unmapped s.platform a) (ext : Word → Word) (rd : RegIdx) :
    s.loadInto w ext rd a = s.report .loadFault .outOfRange a := by
  rw [State.loadInto, memRead_of_unmapped h]
  rfl

theorem storeTo_of_unmapped (h : Unmapped s.platform a) (v : Word) :
    s.storeTo w a v = s.report .storeFault .outOfRange a := by
  rw [State.storeTo, memWrite_of_unmapped h]
  rfl

/-- Settles O54: all such an access does is make its record. -/
theorem neitherRangeFailsWithoutEffect : Obligations.NeitherRangeFailsWithoutEffect := by
  intro s a w v hu
  refine ⟨memRead_of_unmapped hu, memWrite_of_unmapped hu v, fun ext rd => ?_, ?_⟩
  · rw [loadInto_of_unmapped hu]
    exact ⟨fun _ => rfl, fun _ => rfl, rfl⟩
  · rw [storeTo_of_unmapped hu]
    exact ⟨fun _ => rfl, fun _ => rfl, rfl⟩

/-! ### The loaded image -/

theorem boot_of_fits (hp : p.wf) {image : List Byte} (fits : image.length ≤ p.memorySize) :
    boot p image = .next ((State.resetFor p).loadImage image) := by
  rw [boot, if_pos hp, if_pos fits]

/-- A boot that answers a state had a legal configuration and an image that fits, and the state is reset with the image. -/
theorem boot_next {image : List Byte} (h : boot p image = .next s) :
    p.wf ∧ image.length ≤ p.memorySize ∧ s = (State.resetFor p).loadImage image := by
  unfold boot at h
  split at h
  · split at h
    · cases h
      exact ⟨‹_›, ‹_›, rfl⟩
    · cases h
  · cases h

/-- After the load byte `i` of RAM is byte `i` of the image, and zero past its end (20_memory R53). -/
theorem loadImage_read (p : Platform) (image : List Byte) (i : Nat) :
    ((State.resetFor p).loadImage image).mem.read (p.memoryBase.toNat + i) = image.getD i 0#8 := by
  rw [State.loadImage_mem]
  refine (Memory.read_writeBytes p.memoryBase.toNat _ image (State.resetFor_mem_wf p)).trans ?_
  by_cases hi : i < image.length
  · rw [if_pos (by omega), Nat.add_sub_cancel_left]
  · rw [if_neg (by omega), List.getD_eq_default _ _ (by omega)]
    rfl

/-- The entry point is an aligned address of RAM (00_scope R10). -/
theorem memoryBase_inRam (hp : p.wf) : InRam p p.memoryBase ∧ p.memoryBase.toNat % Width.word.bytes = 0 := by
  obtain ⟨-, -, -, base, -, size⟩ := hp
  exact ⟨⟨by omega, by omega⟩, base⟩

/-- Settles O27: the bytes are the load's, and the first fetch reads the first four of them at the entry point. -/
theorem bootLoadsTheImage : Obligations.BootLoadsTheImage := by
  intro p image hp
  refine ⟨fun fits => ⟨_, boot_of_fits hp fits, rfl, loadImage_read p image, ?_⟩, fun long => ?_⟩
  · obtain ⟨inRam, aligned⟩ := memoryBase_inRam hp
    refine (memRead_of_ram hp inRam aligned).trans (congrArg Except.ok ?_)
    have byte := loadImage_read p image
    have byte0 := byte 0
    rw [Nat.add_zero] at byte0
    rw [Memory.load, byte0, byte, byte, byte, wordOfBytes]
  · rw [boot, if_pos hp, if_neg (by omega)]

theorem State.Inv.loadImage (h : s.Inv) {image : List Byte} (fits : image.length ≤ s.platform.memorySize) :
    (s.loadImage image).Inv :=
  { h with
    memCanonical := Memory.writeBytes_wf _ image h.memCanonical
    memInRam := Memory.writeBytes_within ⟨Nat.le_refl _, by simpa using fits⟩ h.memInRam }

/-- Settles O30: the reset state has the invariant, and the load of an image that fits keeps it. -/
theorem bootHasTheInvariant : Obligations.BootHasTheInvariant := by
  intro p image s h
  obtain ⟨hp, fits, rfl⟩ := boot_next h
  exact (resetFor_inv hp).loadImage fits

/-! ### The instructions that reach RAM and the console -/

/-- An instruction's word is of the group it was decoded from. -/
theorem opcodeOf_encode_of_decodeWord {iw : Word} {i : Instr} (h : decodeWord iw = .ok i) :
    opcodeOf (encode i) = opcodeOf iw := by
  simp only [decodeWord, decodeJalr, decodeBranch, decodeLoad, decodeStore, decodeOpImm, decodeShiftLeft, decodeShiftRight,
    decodeOp, decodeOpBase, decodeOpAlt, decodeMulDiv, decodeMiscMem, decodeSystem] at h
  split at h
  case h_12 => cases h -- an unknown opcode
  case h_11 hop => -- ECALL and EBREAK
    rw [hop]
    repeat' split at h
    all_goals cases h <;> rfl
  all_goals
    rename_i hop
    rw [hop]
    repeat' split at h
    all_goals cases h <;> simp [encode]

/-- Only an instruction of the STORE group changes RAM or the console stream. -/
theorem Effect.keeps_ram_and_console {i : Instr} (e : Effect i s t) (hi : opcodeOf (encode i) ≠ 0b0100011#7) :
    t.mem = s.mem ∧ t.console = s.console := by
  cases e with
  | ram op | console op => exact absurd op hi
  | _ => exact ⟨rfl, rfl⟩

@[simp] theorem retire_mem (s : State) : s.retire.mem = s.mem := by
  unfold State.retire
  split <;> rfl

@[simp] theorem retire_console (s : State) : s.retire.console = s.console := by
  unfold State.retire
  split <;> rfl

/-- Settles O43: by the three ways a running machine steps. -/
theorem onlyStoresReachRamAndConsole : Obligations.OnlyStoresReachRamAndConsole := by
  intro s t hst hword
  obtain ⟨-, e⟩ | ⟨-, -, e⟩ | ⟨-, -, ⟨x, -, e⟩ | ⟨iw, x, -, -, e⟩ | ⟨iw, i, u, hf, hd, hx, e⟩⟩ := step_cases s <;>
    rw [e] at hst <;> cases hst
  · exact ⟨rfl, rfl⟩
  · exact ⟨rfl, rfl⟩
  · obtain ⟨u', hx', effect⟩ := exec_effect i (s.fetched iw)
    obtain rfl : u = u' := by simpa [hx] using hx'
    rw [retire_mem, retire_console]
    exact effect.keeps_ram_and_console (opcodeOf_encode_of_decodeWord hd ▸ hword iw hf)

end Sys2Proof.Machine
end

section
/-! The encoding family: decode after encode (O46), encode after decode (O47), the opcode table (O48, O49), the illegal words
(O50), the immediates (O51, O52), sample words (O53). What the decoder does is said once, group by group; `encode_of_decodeWord`
then turns a question about a decoded word into one about an encoded instruction. -/

namespace Sys2Proof

variable {iw : Word} {i : Instr}

/-! ### The groups of the decoder (30_encoding R105) -/

theorem decodeWord_lui (h : opcodeOf iw = 0x37#7) : decodeWord iw = .ok (.lui (rdOf iw) (immUField iw)) := by
  simp only [decodeWord, h]

theorem decodeWord_auipc (h : opcodeOf iw = 0x17#7) : decodeWord iw = .ok (.auipc (rdOf iw) (immUField iw)) := by
  simp only [decodeWord, h]

theorem decodeWord_jal (h : opcodeOf iw = 0x6F#7) : decodeWord iw = .ok (.jal (rdOf iw) (offsetJField iw)) := by
  simp only [decodeWord, h]

theorem decodeWord_jalr (h : opcodeOf iw = 0x67#7) : decodeWord iw = decodeJalr iw := by simp only [decodeWord, h]

theorem decodeWord_branch (h : opcodeOf iw = 0x63#7) : decodeWord iw = decodeBranch iw := by simp only [decodeWord, h]

theorem decodeWord_load (h : opcodeOf iw = 0x03#7) : decodeWord iw = decodeLoad iw := by simp only [decodeWord, h]

theorem decodeWord_store (h : opcodeOf iw = 0x23#7) : decodeWord iw = decodeStore iw := by simp only [decodeWord, h]

theorem decodeWord_opImm (h : opcodeOf iw = 0x13#7) : decodeWord iw = decodeOpImm iw := by simp only [decodeWord, h]

theorem decodeWord_op (h : opcodeOf iw = 0x33#7) : decodeWord iw = decodeOp iw := by simp only [decodeWord, h]

theorem decodeWord_miscMem (h : opcodeOf iw = 0x0F#7) : decodeWord iw = decodeMiscMem iw := by simp only [decodeWord, h]

theorem decodeWord_system (h : opcodeOf iw = 0x73#7) : decodeWord iw = decodeSystem iw := by simp only [decodeWord, h]

/-! ### Decoding an encoded instruction -/

theorem even_of_evenOffset13 {offset : BitVec 13} (h : evenOffset13 offset = true) : offset.getLsbD 0 = false := by
  simpa only [evenOffset13, Bool.not_eq_true'] using h

theorem even_of_evenOffset21 {offset : BitVec 21} (h : evenOffset21 offset = true) : offset.getLsbD 0 = false := by
  simpa only [evenOffset21, Bool.not_eq_true'] using h

/-- The fields of an encoded word are its operands; an offset is one of them when its bit 0 is zero, which is what `Instr.wf`
asks of JAL and the branches. -/
theorem decodeWord_encode (h : i.wf = true) : decodeWord (encode i) = .ok i := by
  cases i with
  | jal rd offset =>
    have even := even_of_evenOffset21 (offset := offset) h
    simp only [encode, decodeWord, opcodeOf_encodeJ, rdOf_encodeJ, offsetJField_encodeJ even]
  | beq rs1 rs2 offset | bne rs1 rs2 offset | blt rs1 rs2 offset | bge rs1 rs2 offset | bltu rs1 rs2 offset
  | bgeu rs1 rs2 offset =>
    have even := even_of_evenOffset13 (offset := offset) h
    simp only [encode, decodeWord, decodeBranch, opcodeOf_encodeB, funct3Of_encodeB, rs1Of_encodeB, rs2Of_encodeB,
      offsetBField_encodeB even]
  | ecall | ebreak => rfl
  | _ =>
    simp [encode, decodeWord, decodeJalr, decodeLoad, decodeStore, decodeOpImm, decodeShiftLeft, decodeShiftRight, decodeOp,
      decodeOpBase, decodeOpAlt, decodeMulDiv, decodeMiscMem]

/-- Settles O46, by the fields of an encoded word and the word of its bytes. -/
theorem decodeOfEncode : Obligations.DecodeOfEncode := by
  intro i rest h
  have hd := decodeWord_encode h
  refine ⟨hd, ?_⟩
  rw [encodeBytes, decode_bytesOfWord, hd]
  rfl

/-! ### Encoding a decoded word -/

/-- Each format rebuilds a word from its fields, and the matches that chose the instruction say what the fixed fields are. -/
theorem encode_of_decodeWord (h : decodeWord iw = .ok i) : encode i = iw := by
  simp only [decodeWord, decodeJalr, decodeBranch, decodeLoad, decodeStore, decodeOpImm, decodeShiftLeft, decodeShiftRight,
    decodeOp, decodeOpBase, decodeOpAlt, decodeMulDiv, decodeMiscMem, decodeSystem] at h
  split at h
  case h_1 hop | h_2 hop => -- LUI, AUIPC
    cases h
    rw [encode, ← hop, encodeU_fields]
  case h_3 hop => -- JAL
    cases h
    rw [encode, ← hop, encodeJ_fields]
  case h_5 hop => -- BRANCH
    split at h <;> cases h <;> (rename_i hf3; rw [encode, ← hop, ← hf3, encodeB_fields])
  case h_7 hop => -- STORE
    split at h <;> cases h <;> (rename_i hf3; rw [encode, ← hop, ← hf3, encodeS_fields])
  case h_4 hop | h_6 hop | h_10 hop => -- JALR, LOAD, MISC-MEM
    split at h <;> cases h <;> (rename_i hf3; rw [encode, ← hop, ← hf3, encodeI_fields])
  case h_8 hop => -- OP-IMM, where the shifts have format R
    split at h
    case h_2 hf3 | h_6 hf3 =>
      split at h <;> cases h <;> (rename_i hf7; rw [encode, ← hop, ← hf3, ← hf7]; exact encodeR_fields iw)
    all_goals
      rename_i hf3
      cases h
      rw [encode, ← hop, ← hf3, encodeI_fields]
  case h_9 hop => -- OP
    split at h
    case h_4 => cases h -- a `funct7` of no row
    all_goals
      rename_i hf7
      split at h <;> cases h <;> (rename_i hf3; rw [encode, ← hop, ← hf3, ← hf7, encodeR_fields])
  case h_11 => -- ECALL, EBREAK
    split at h
    case isTrue e => cases h; exact e.symm
    case isFalse =>
      split at h
      case isTrue e => cases h; exact e.symm
      case isFalse => cases h
  case h_12 => cases h -- an unknown opcode

/-- Settles O47: a decoded instruction is well formed, and its format gives the word back. -/
theorem encodeOfDecode : Obligations.EncodeOfDecode :=
  fun _ _ h => ⟨decodeWord_wf h, encode_of_decodeWord h⟩

/-! ### The opcode table (30_encoding R117) -/

theorem masked_opcode (iw : Word) : iw &&& 0x0000007F#32 = encodeU 0 0 (opcodeOf iw) := (masked_opcode_iff _ iw).2 rfl

theorem masked_funct3 (iw : Word) : iw &&& 0x0000707F#32 = encodeI 0 0 (funct3Of iw) 0 (opcodeOf iw) :=
  (masked_funct3_iff _ _ iw).2 ⟨rfl, rfl⟩

theorem masked_funct7 (iw : Word) : iw &&& 0xFE00707F#32 = encodeR (funct7Of iw) 0 0 (funct3Of iw) 0 (opcodeOf iw) :=
  (masked_funct7_iff _ _ _ iw).2 ⟨rfl, rfl, rfl⟩

/-- The bits that the format of an instruction fixes: the opcode, `funct3` and `funct7` too, or all 32. -/
def Instr.rowMask : Instr → Word
  | .lui .. | .auipc .. | .jal .. => 0x0000007F#32
  | .slli .. | .srli .. | .srai .. | .add .. | .sub .. | .sll .. | .slt .. | .sltu .. | .xor .. | .srl .. | .sra .. | .or ..
  | .and .. | .mul .. | .mulh .. | .mulhsu .. | .mulhu .. | .div .. | .divu .. | .rem .. | .remu .. => 0xFE00707F#32
  | .ecall | .ebreak => 0xFFFFFFFF#32
  | .jalr .. | .beq .. | .bne .. | .blt .. | .bge .. | .bltu .. | .bgeu .. | .lb .. | .lh .. | .lw .. | .lbu .. | .lhu .. | .sb ..
  | .sh .. | .sw .. | .addi .. | .slti .. | .sltiu .. | .xori .. | .ori .. | .andi .. | .fence .. => 0x0000707F#32

/-- The row of an instruction, from its encoding. -/
def Instr.row (i : Instr) : OpcodeRow := ⟨i.mnemonic, i.rowMask, encode i &&& i.rowMask⟩

/-- The row does not depend on the operands, so the 48 rows are compared with the table. -/
theorem Instr.row_mem (i : Instr) : i.row ∈ opcodeTable := by
  cases i <;> simp only [row, rowMask, encode, masked_opcode, masked_funct3, masked_funct7, opcodeOf_encodeU, opcodeOf_encodeJ,
    opcodeOf_encodeI, funct3Of_encodeI, opcodeOf_encodeB, funct3Of_encodeB, opcodeOf_encodeS, funct3Of_encodeS,
    opcodeOf_encodeR, funct3Of_encodeR, funct7Of_encodeR, mnemonic] <;> decide

/-- Every row of the table is the row of an instruction, of the one its fixed bits decode to when the others are zero. -/
theorem exists_row_eq {r : OpcodeRow} (hr : r ∈ opcodeTable) : ∃ i : Instr, i.row = r := by
  have rows : ∀ r ∈ opcodeTable, (decodeWord r.bits).map Instr.row = .ok r := by decide
  have h := rows r hr
  cases hd : decodeWord r.bits with
  | ok i =>
    rw [hd] at h
    exact ⟨i, Except.ok.inj h⟩
  | error e =>
    rw [hd] at h
    cases h

/-- The decoder looks at no more than the bits a row fixes to choose the instruction. -/
theorem decodeWord_of_row (h : iw &&& i.row.mask = i.row.bits) : ∃ j, decodeWord iw = .ok j ∧ j.mnemonic = i.mnemonic := by
  simp only [Instr.row, Instr.rowMask] at h
  cases i with
  | ecall | ebreak =>
    obtain rfl := (BitVec.and_allOnes (x := iw)).symm.trans h
    exact ⟨_, rfl, rfl⟩
  | lui rd imm | auipc rd imm | jal rd offset =>
    have hop := (masked_opcode_iff _ iw).1 (h.trans (masked_opcode _))
    simp only [encode, opcodeOf_encodeU, opcodeOf_encodeJ] at hop
    simp only [decodeWord, hop]
    exact ⟨_, rfl, rfl⟩
  | jalr rd rs1 imm | beq rs1 rs2 offset | bne rs1 rs2 offset | blt rs1 rs2 offset | bge rs1 rs2 offset | bltu rs1 rs2 offset
  | bgeu rs1 rs2 offset | lb rd rs1 imm | lh rd rs1 imm | lw rd rs1 imm | lbu rd rs1 imm | lhu rd rs1 imm | sb rs1 rs2 imm
  | sh rs1 rs2 imm | sw rs1 rs2 imm | addi rd rs1 imm | slti rd rs1 imm | sltiu rd rs1 imm | xori rd rs1 imm | ori rd rs1 imm
  | andi rd rs1 imm | fence rd rs1 imm =>
    obtain ⟨hop, hf3⟩ := (masked_funct3_iff _ _ iw).1 (h.trans (masked_funct3 _))
    simp only [encode, opcodeOf_encodeI, funct3Of_encodeI, opcodeOf_encodeB, funct3Of_encodeB, opcodeOf_encodeS,
      funct3Of_encodeS] at hop hf3
    simp only [decodeWord, decodeJalr, decodeBranch, decodeLoad, decodeStore, decodeOpImm, decodeMiscMem, hop, hf3]
    exact ⟨_, rfl, rfl⟩
  | _ =>
    obtain ⟨hop, hf3, hf7⟩ := (masked_funct7_iff _ _ _ iw).1 (h.trans (masked_funct7 _))
    simp only [encode, opcodeOf_encodeR, funct3Of_encodeR, funct7Of_encodeR] at hop hf3 hf7
    simp only [decodeWord, decodeOpImm, decodeShiftLeft, decodeShiftRight, decodeOp, decodeOpBase, decodeOpAlt, decodeMulDiv,
      hop, hf3, hf7]
    exact ⟨_, rfl, rfl⟩

/-- Settles O48: a decoded word, being the encoding of its instruction, matches that instruction's row; and every row of the table is
the row of an instruction, whose fixed bits the decoder goes by. -/
theorem decoderAcceptsExactlyTheTable : Obligations.DecoderAcceptsExactlyTheTable := by
  constructor
  · intro iw i h
    refine ⟨i.row, i.row_mem, ?_, rfl⟩
    rw [← encode_of_decodeWord h]
    rfl
  · intro iw r hr fits
    obtain ⟨i, rfl⟩ := exists_row_eq hr
    exact decodeWord_of_row fits

/-- Settles O49: any two rows differ in a bit that both fix. -/
theorem opcodeRowsAreDisjoint : Obligations.OpcodeRowsAreDisjoint := by
  have differ : opcodeTable.Pairwise fun r q => r.bits &&& q.mask ≠ q.bits &&& r.mask := by decide
  refine fun iw => differ.imp ?_
  rintro r q hne ⟨hr, hq⟩
  rw [← hr, ← hq, BitVec.and_assoc, BitVec.and_assoc, BitVec.and_comm r.mask] at hne
  exact hne rfl

/-! ### The illegal words (30_encoding R112, R113) -/

theorem decodeWord_unknownOpcode
    (h : opcodeOf iw ∉ [0x37#7, 0x17#7, 0x6F#7, 0x67#7, 0x63#7, 0x03#7, 0x23#7, 0x13#7, 0x33#7, 0x0F#7, 0x73#7]) :
    decodeWord iw = .error .unknownOpcode := by
  unfold decodeWord
  split <;> simp_all

theorem decodeJalr_illegal (h : funct3Of iw ≠ 0#3) : decodeJalr iw = .error .jalrFunct3 := by
  unfold decodeJalr
  split <;> simp_all

theorem decodeBranch_illegal (h : funct3Of iw ∈ [2#3, 3#3]) : decodeBranch iw = .error .branchFunct3 := by
  unfold decodeBranch
  split <;> simp_all

theorem decodeLoad_illegal (h : funct3Of iw ∈ [3#3, 6#3, 7#3]) : decodeLoad iw = .error .loadFunct3 := by
  unfold decodeLoad
  split <;> simp_all

theorem decodeStore_illegal (h : funct3Of iw ∈ [3#3, 4#3, 5#3, 6#3, 7#3]) : decodeStore iw = .error .storeFunct3 := by
  unfold decodeStore
  split <;> simp_all

theorem decodeOpImm_shiftLeft_illegal (h3 : funct3Of iw = 1#3) (h7 : funct7Of iw ≠ 0#7) :
    decodeOpImm iw = .error .shiftFunct7 := by
  simp only [decodeOpImm, h3]
  unfold decodeShiftLeft
  split <;> simp_all

theorem decodeOpImm_shiftRight_illegal (h3 : funct3Of iw = 5#3) (h7 : funct7Of iw ∉ [0#7, 0x20#7]) :
    decodeOpImm iw = .error .shiftFunct7 := by
  simp only [decodeOpImm, h3]
  unfold decodeShiftRight
  split <;> simp_all

theorem decodeOp_illegal (h : funct7Of iw ∉ [0#7, 0x20#7, 1#7]) : decodeOp iw = .error .opFunct7 := by
  unfold decodeOp
  split <;> simp_all

theorem decodeOp_alt_illegal (h7 : funct7Of iw = 0x20#7) (h3 : funct3Of iw ∉ [0#3, 5#3]) :
    decodeOp iw = .error .opFunct7 := by
  simp only [decodeOp, h7]
  unfold decodeOpAlt
  split <;> simp_all

theorem decodeMiscMem_illegal (h : funct3Of iw ≠ 0#3) : decodeMiscMem iw = .error .miscMemFunct3 := by
  unfold decodeMiscMem
  split <;> simp_all

theorem decodeSystem_illegal (hcall : iw ≠ 0x00000073#32) (hbreak : iw ≠ 0x00100073#32) :
    decodeSystem iw = .error .systemWord := by
  rw [decodeSystem, if_neg hcall, if_neg hbreak]

/-- Settles O50: a word is refused by the decoder of its group. -/
theorem illegalEncodingsByGroup : Obligations.IllegalEncodingsByGroup := by
  rintro iw _ _ _ rfl rfl rfl
  refine ⟨decodeWord_unknownOpcode, fun hop => ?_,
    fun hop h3 => (decodeWord_jalr hop).trans (decodeJalr_illegal h3),
    fun hop h3 => (decodeWord_branch hop).trans (decodeBranch_illegal h3),
    fun hop h3 => (decodeWord_load hop).trans (decodeLoad_illegal h3),
    fun hop h3 => (decodeWord_store hop).trans (decodeStore_illegal h3),
    fun hop h3 h7 => (decodeWord_opImm hop).trans (decodeOpImm_shiftLeft_illegal h3 h7),
    fun hop h3 h7 => (decodeWord_opImm hop).trans (decodeOpImm_shiftRight_illegal h3 h7),
    fun hop h7 => (decodeWord_op hop).trans (decodeOp_illegal h7),
    fun hop h7 h3 => (decodeWord_op hop).trans (decodeOp_alt_illegal h7 h3),
    fun hop h3 => (decodeWord_miscMem hop).trans (decodeMiscMem_illegal h3),
    fun hop hcall hbreak => (decodeWord_system hop).trans (decodeSystem_illegal hcall hbreak)⟩
  simp only [List.mem_cons, List.not_mem_nil, or_false] at hop
  obtain hop | hop | hop := hop
  · exact ⟨_, decodeWord_lui hop⟩
  · exact ⟨_, decodeWord_auipc hop⟩
  · exact ⟨_, decodeWord_jal hop⟩

/-! ### Immediates and offsets (30_encoding R96 to R100) -/

theorem toInt_signExtend_imm12 (x : BitVec 12) : (x.signExtend 32).toInt = x.toInt := BitVec.toInt_signExtend_of_le (by decide)

theorem toInt_imm12_range (x : BitVec 12) : -2048 ≤ (x.signExtend 32).toInt ∧ (x.signExtend 32).toInt ≤ 2047 := by
  rw [toInt_signExtend_imm12]
  have lower := BitVec.le_toInt x
  have upper := BitVec.toInt_lt (x := x)
  omega

theorem immU_eq_and (iw : Word) : immU iw = iw &&& 0xFFFFF000#32 := by
  have halves : iw.extractLsb' 12 20 ++ iw.extractLsb' 0 12 = iw := by
    rw [BitVec.extractLsb'_append_extractLsb'_eq_extractLsb' (by decide)]
    exact BitVec.extractLsb'_eq_self
  calc
    immU iw = (iw.extractLsb' 12 20 &&& BitVec.allOnes 20) ++ (iw.extractLsb' 0 12 &&& 0#12) := by
      rw [BitVec.and_allOnes, BitVec.and_zero]; rfl
    _ = (iw.extractLsb' 12 20 ++ iw.extractLsb' 0 12) &&& 0xFFFFF000#32 := BitVec.and_append.symm
    _ = iw &&& 0xFFFFF000#32 := by rw [halves]

/-- The immediate of an encoded instruction is its operand. -/
theorem usesImmediateOf_encode (i : Instr) : Machine.usesImmediateOf (encode i) i := by
  cases i with
  | lui rd imm | auipc rd imm => exact congrArg (· ++ 0#12) (immUField_encodeU ..).symm
  | sb rs1 rs2 imm | sh rs1 rs2 imm | sw rs1 rs2 imm => exact congrArg (BitVec.signExtend 32) (immSField_encodeS ..).symm
  | jalr rd rs1 imm | lb rd rs1 imm | lh rd rs1 imm | lw rd rs1 imm | lbu rd rs1 imm | lhu rd rs1 imm | addi rd rs1 imm
  | slti rd rs1 imm | sltiu rd rs1 imm | xori rd rs1 imm | ori rd rs1 imm | andi rd rs1 imm =>
    exact congrArg (BitVec.signExtend 32) (immIField_encodeI ..).symm
  | _ => exact trivial

/-- Settles O51: a decoded word is the encoding of its instruction, so the instruction's immediate is the word's. -/
theorem immediateRules : Obligations.ImmediateRules := by
  intro iw
  obtain ⟨lowerI, upperI⟩ := toInt_imm12_range (immIField iw)
  obtain ⟨lowerS, upperS⟩ := toInt_imm12_range (immSField iw)
  refine ⟨toInt_signExtend_imm12 _, lowerI, upperI, toInt_signExtend_imm12 _, lowerS, upperS, immU_eq_and iw, fun i h => ?_⟩
  have uses := usesImmediateOf_encode i
  rwa [encode_of_decodeWord h] at uses

theorem toInt_bit (b : BitVec 1) : b.toInt = -(b.toNat : Int) := by
  revert b
  decide

theorem toInt_append_of_pos {n m : Nat} (hn : 0 < n) (x : BitVec n) (y : BitVec m) :
    (x ++ y).toInt = 2 ^ m * x.toInt + y.toNat := by
  rw [BitVec.toInt_append, if_neg (by simpa using hn.ne')]

theorem immB_toInt (iw : Word) :
    (immB iw).toInt = -4096 * ((iw.extractLsb' 31 1).toNat : Int) + 2048 * (iw.extractLsb' 7 1).toNat +
      32 * (iw.extractLsb' 25 6).toNat + 2 * (iw.extractLsb' 8 4).toNat := by
  rw [immB, BitVec.toInt_signExtend_of_le (by decide), offsetBField]
  simp (disch := decide) only [toInt_append_of_pos, toInt_bit, BitVec.toNat_zero]
  ring

theorem immJ_toInt (iw : Word) :
    (immJ iw).toInt = -1048576 * ((iw.extractLsb' 31 1).toNat : Int) + 4096 * (iw.extractLsb' 12 8).toNat +
      2048 * (iw.extractLsb' 20 1).toNat + 2 * (iw.extractLsb' 21 10).toNat := by
  rw [immJ, BitVec.toInt_signExtend_of_le (by decide), offsetJField]
  simp (disch := decide) only [toInt_append_of_pos, toInt_bit, BitVec.toNat_zero]
  ring

/-- Settles O52: the offset is an append of bit fields, and its signed value is taken apart field by field. -/
theorem offsetBitWeights : Obligations.OffsetBitWeights := by
  intro iw
  refine ⟨immB_toInt iw, immJ_toInt iw, fun rs1 rs2 offset h => ?_, fun rd offset h => ?_⟩
  · have even := even_of_evenOffset13 (offset := offset) (decodeWord_wf h)
    rw [← encode_of_decodeWord h]
    exact congrArg (BitVec.signExtend 32) (offsetBField_encodeB even ..).symm
  · have even := even_of_evenOffset21 (offset := offset) (decodeWord_wf h)
    rw [← encode_of_decodeWord h]
    exact congrArg (BitVec.signExtend 32) (offsetJField_encodeJ even ..).symm

/-! ### Sample words -/

/-- Settles O53, by running the decoder on the ten words. -/
theorem sampleWordsDecode : Obligations.SampleWordsDecode := by
  unfold Obligations.SampleWordsDecode
  decide

end Sys2Proof
end

section
/-! The cycle family: the requests of an access (O23), the word placed for a fetch (O31), what a step does and when it halts
(O32, O33, O35, O36, O37, O39), and runs (O55, O56, O57). `step_halted_iff`, `step_commits` and `run_succ_cases` say once what
ends a machine's run, what a step that does not halt leaves, and what a unit of fuel does. -/

namespace Sys2Proof.Machine

variable {s t : State} {p : Platform} {a v iw : Word} {w : Width} {i : Instr}

/-! ### The requests of an access (40_cycle R151) -/

theorem inConsole_of_checkAccess (h : checkAccess p a w = .console) : InConsole p a := by
  unfold checkAccess at h
  split at h
  · exact regionOf_console_iff.1 ‹_›
  · cases h
  · split at h <;> cases h

/-- RAM's base and the offset of an address in RAM make the address again: the subtraction does not wrap. -/
theorem memoryBase_add_ramOffset (h : InRam p a) : p.memoryBase.toNat + (ramOffset p a).toNat = a.toNat := by
  obtain ⟨base, -⟩ := h
  rw [ramOffset, BitVec.toNat_sub_of_le base]
  exact Nat.add_sub_cancel' base

@[simp] theorem widthOfCode_code (w : Width) : widthOfCode w.code = w := by cases w <;> rfl

theorem Width.code_driven (w : Width) : w.code ≠ 0b11#2 := by cases w <;> decide

theorem ramReadRequest_eq (p : Platform) (a : Word) (w : Width) :
    ramReadRequest p a w = if checkAccess p a w = .ram then some ⟨false, w.code, ramOffset p a, 0#32⟩ else none := by
  unfold ramReadRequest
  split
  · rw [if_pos ‹_›]
  · rw [if_neg ‹_›]

theorem ramWriteRequest_eq (p : Platform) (a : Word) (w : Width) (v : Word) :
    ramWriteRequest p a w v = if checkAccess p a w = .ram then some ⟨true, w.code, ramOffset p a, v⟩ else none := by
  unfold ramWriteRequest
  split
  · rw [if_pos ‹_›]
  · rw [if_neg ‹_›]

theorem ramReadRequest_some {r : RamRequest} (h : ramReadRequest p a w = some r) :
    checkAccess p a w = .ram ∧ r = ⟨false, w.code, ramOffset p a, 0#32⟩ := by
  rw [ramReadRequest_eq, Option.ite_none_right_eq_some] at h
  exact h.imp id fun e => (Option.some.inj e).symm

theorem ramWriteRequest_some {r : RamRequest} (h : ramWriteRequest p a w v = some r) :
    checkAccess p a w = .ram ∧ r = ⟨true, w.code, ramOffset p a, v⟩ := by
  rw [ramWriteRequest_eq, Option.ite_none_right_eq_some] at h
  exact h.imp id fun e => (Option.some.inj e).symm

/-- A write that passed the checks leaves RAM as its request makes it. -/
theorem ramAfter_ramWriteRequest (h : checkAccess p a w = .ram) (m : Memory) (v : Word) :
    ramAfter p m (ramWriteRequest p a w v) = m.store a.toNat w v := by
  rw [ramWriteRequest_eq, if_pos h]
  simp [ramAfter, memoryBase_add_ramOffset (checkAccess_ram h).1]

/-- A read that passed the checks is answered the data of its request. -/
theorem ramRdata_ramReadRequest {r : RamRequest} (h : ramReadRequest p a w = some r) (m : Memory) :
    ramRdata p m r = m.load a.toNat w := by
  obtain ⟨checked, rfl⟩ := ramReadRequest_some h
  simp [ramRdata, memoryBase_add_ramOffset (checkAccess_ram checked).1]

theorem consoleRequest_of_not_inConsole (h : ¬ InConsole p a) (v : Word) : consoleRequest p a v = none := by
  rw [consoleRequest, if_neg (mt regionOf_console_iff.1 h)]

/-- A write in the window appends what its request emits: the text of offsets 0, 4 and 8, and nothing at another offset. -/
theorem consoleEmitted_consoleRequest (h : InConsole p a) (v : Word) :
    consoleEmitted (consoleRequest p a v) = consoleText (a.toNat - p.consoleBase.toNat) v := by
  simp only [consoleRequest, if_pos (regionOf_console_iff.2 h), consoleText]
  repeat' split
  all_goals rfl

/-- A console request is made at offset `4 * con_sel` of the window and carries the whole value. -/
theorem consoleRequest_some {r : ConsoleRequest} (h : consoleRequest p a v = some r) :
    r.value = v ∧ InConsole p a ∧ r.sel ≠ 0b11#2 ∧ a.toNat = p.consoleBase.toNat + 4 * r.sel.toNat := by
  by_cases hc : InConsole p a
  · obtain ⟨base, -⟩ := id hc
    simp only [consoleRequest, if_pos (regionOf_console_iff.2 hc)] at h
    repeat' split at h
    case isFalse.isFalse.isFalse => cases h
    all_goals
      cases h
      exact ⟨rfl, hc, by simp, by simp only [BitVec.toNat_ofNat]; omega⟩
  · rw [consoleRequest_of_not_inConsole hc] at h
    cases h

/-- The fields of every RAM request of an access that passed the checks (20_memory R63). -/
theorem ramRequest_in_ram (hp : p.wf) (checked : checkAccess p a w = .ram) :
    InRam p a ∧ a.toNat % w.bytes = 0 ∧ (ramOffset p a).toNat = a.toNat - p.memoryBase.toNat ∧
      (ramOffset p a).toNat + w.bytes ≤ p.memorySize ∧ w.code ≠ 0b11#2 := by
  obtain ⟨inRam, al⟩ := checkAccess_ram checked
  obtain ⟨-, fits⟩ := checkAccess_ram_fits hp checked
  have offset := memoryBase_add_ramOffset inRam
  exact ⟨inRam, al, by omega, by omega, w.code_driven⟩

theorem memWrite_ok_requests (h : memWrite s a w v = .ok t) :
    t.mem = ramAfter s.platform s.mem (ramWriteRequest s.platform a w v) ∧
      t.console = s.console ++ consoleEmitted (consoleRequest s.platform a v) := by
  obtain ⟨e, hc⟩ | ⟨e, hc⟩ | ⟨x, e, -⟩ := memWrite_cases s a w v <;> rw [e] at h <;> cases h
  · rw [ramWriteRequest_eq, hc, consoleEmitted_consoleRequest (inConsole_of_checkAccess hc)]
    exact ⟨rfl, rfl⟩
  · have outside : ¬ InConsole s.platform a := mt (checkAccess_of_console (w := w)) (by simp [hc])
    rw [ramAfter_ramWriteRequest hc, consoleRequest_of_not_inConsole outside]
    exact ⟨rfl, (List.append_nil _).symm⟩

theorem memWrite_error_requests {e : AccessError} (h : memWrite s a w v = .error e) :
    ramWriteRequest s.platform a w v = none ∧ consoleRequest s.platform a v = none := by
  obtain ⟨e', -⟩ | ⟨e', -⟩ | ⟨x, e', hc⟩ := memWrite_cases s a w v <;> rw [e'] at h <;> cases h
  have outside : ¬ InConsole s.platform a := mt (checkAccess_of_console (w := w)) (by simp [hc])
  exact ⟨by simp [ramWriteRequest_eq, hc], consoleRequest_of_not_inConsole outside v⟩

/-- A read that makes no RAM request and does not fail is in the console window. -/
theorem memRead_of_no_request {x : Word} (h : memRead s a w = .ok x) (hn : ramReadRequest s.platform a w = none) :
    x = 0#32 := by
  unfold memRead at h
  split at h
  · exact (Except.ok.inj h).symm
  · cases h
  · simp [ramReadRequest_eq, *] at hn

theorem memRead_of_request {x : Word} {r : RamRequest} (h : memRead s a w = .ok x)
    (hr : ramReadRequest s.platform a w = some r) : x = ramRdata s.platform s.mem r := by
  rw [memRead, (ramReadRequest_some hr).1] at h
  rw [ramRdata_ramReadRequest hr]
  exact (Except.ok.inj h).symm

/-- Settles O23: both requests of an access are decided by the checks its outcome is decided by. -/
theorem accessesAreTheirPortRequests : Obligations.AccessesAreTheirPortRequests := by
  intro s a w v hp
  refine ⟨fun t => memWrite_ok_requests, fun e => memWrite_error_requests, fun x h => ?_, fun e h => ?_, fun hc => ?_,
    fun r h => ?_, fun r h => ?_, fun r h => ?_, fun r => consoleRequest_some⟩
  · split
    · exact memRead_of_request h ‹_›
    · exact memRead_of_no_request h ‹_›
  · simp [ramReadRequest_eq, memRead_error_iff.1 h]
  · refine ⟨?_, ?_, memRead_of_console hc⟩
    · simp [ramReadRequest_eq, checkAccess_of_console hc]
    · simp [ramWriteRequest_eq, checkAccess_of_console hc]
  · obtain h | h := h
    · obtain ⟨checked, rfl⟩ := ramReadRequest_some h
      exact ramRequest_in_ram hp checked
    · obtain ⟨checked, rfl⟩ := ramWriteRequest_some h
      exact ramRequest_in_ram hp checked
  · rw [(ramReadRequest_some h).2]
  · rw [(ramWriteRequest_some h).2]
    exact ⟨rfl, rfl⟩

/-! ### The fetch -/

theorem fetch_of_ram (hp : s.platform.wf) (ha : InRam s.platform s.pc) (hal : s.pc.toNat % 4 = 0) :
    s.fetch = .ok (wordOfBytes (s.mem.read s.pc.toNat) (s.mem.read (s.pc.toNat + 1)) (s.mem.read (s.pc.toNat + 2))
      (s.mem.read (s.pc.toNat + 3))) :=
  memRead_of_ram (w := .word) hp ha hal

theorem withFetchWord_toNat (s : State) (iw : Word) : s.withFetchWord 32 iw.toNat = s.placeFetchWord iw := by
  rw [State.withFetchWord, Nat.mod_eq_of_lt iw.isLt, BitVec.ofNat_toNat, BitVec.setWidth_eq]

/-- The word is placed at an aligned address of RAM: at `pc` if that is one, else at the entry point. -/
theorem placeFetchWord_pc_inRam (hp : s.platform.wf) (iw : Word) :
    InRam s.platform (s.placeFetchWord iw).pc ∧ (s.placeFetchWord iw).pc.toNat % 4 = 0 := by
  by_cases h : s.pcInRam = true
  · simp only [State.placeFetchWord, if_pos h]
    exact checkAccess_ram (w := .word) (by simpa [State.pcInRam] using h)
  · simp only [State.placeFetchWord, if_neg h]
    exact memoryBase_inRam hp

/-- Settles O31: the fetch is a read of the word stored at `pc`. -/
theorem placedWordIsFetched : Obligations.PlacedWordIsFetched := by
  intro s iw hp hm
  rw [withFetchWord_toNat]
  obtain ⟨inRam, al⟩ := placeFetchWord_pc_inRam hp iw
  exact ⟨memRead_stored_word hp hm inRam al iw, rfl, fun _ => rfl⟩

/-! ### The step -/

theorem exists_step (hp : s.platform.wf) (hr : s.halted = false) : ∃ t, step s = .next t := by
  obtain ⟨hn, -⟩ | ⟨-, hh, -⟩ | ⟨-, -, ⟨_, _, e⟩ | ⟨_, _, _, _, e⟩ | ⟨_, _, _, _, _, _, e⟩⟩ := step_cases s
  · exact absurd hp hn
  · simp [hr] at hh
  all_goals exact ⟨_, e⟩

/-- Settles O33: the step asks for a legal configuration, then for a running machine, and then always completes. -/
theorem runningStepAlwaysCompletes : Obligations.RunningStepAlwaysCompletes :=
  fun _ => ⟨fun hp => if_neg hp, fun hp hh => (if_pos hp).trans (if_pos hh), exists_step⟩

/-- A word that the decoder reads from four bytes decodes. -/
theorem decodeWord_of_decode {b0 b1 b2 b3 : Byte} {bs rest : List Byte}
    (h : decode (b0 :: b1 :: b2 :: b3 :: bs) = .ok (i, rest)) : decodeWord (wordOfBytes b0 b1 b2 b3) = .ok i := by
  rw [decode] at h
  split at h <;> cases h
  assumption

/-- Settles O32: the bytes at `pc` are the word the fetch reads, and the word is the instruction's encoding. -/
theorem stepRunsTheDecodedInstruction : Obligations.StepRunsTheDecodedInstruction := by
  intro s i hp hr ha hal hbytes
  have hf := fetch_of_ram hp ha hal
  have hd := decodeWord_of_decode hbytes
  obtain ⟨t, hx⟩ := exec_next i (s.fetched (encode i))
  refine ⟨decodeWord_wf hd, t, hx, ?_⟩
  rw [← encode_of_decodeWord hd] at hf hd
  exact step_of_decode hp hr hf hd hx

/-- A word that matches no row of the opcode table does not decode. -/
theorem decodeWord_error_of_no_row (h : ∀ r ∈ opcodeTable, iw &&& r.mask ≠ r.bits) : ∃ e, decodeWord iw = .error e := by
  cases hd : decodeWord iw with
  | error e => exact ⟨e, rfl⟩
  | ok i =>
    obtain ⟨r, hr, fits, -⟩ := decoderAcceptsExactlyTheTable.1 iw i hd
    exact absurd fits (h r hr)

/-- Settles O35: such a word does not decode. -/
theorem illegalWordRule : Obligations.IllegalWordRule := by
  intro s iw hp hr hf hrows
  obtain ⟨e, hd⟩ := decodeWord_error_of_no_row hrows
  exact step_of_decode_error hp hr hf hd

/-- Settles O36: the console window reads 0, and the zero word does not decode. -/
theorem fetchFromConsoleIsADecodeError : Obligations.FetchFromConsoleIsADecodeError := by
  intro s hp hr hc
  have hd : decodeWord 0#32 = .error .unknownOpcode := by decide
  exact step_of_decode_error hp hr (memRead_of_console hc) hd

@[simp] theorem retire_halted (s : State) : s.retire.halted = s.halted := by
  unfold State.retire
  split <;> rfl

@[simp] theorem retire_platform (s : State) : s.retire.platform = s.platform := by
  unfold State.retire
  split <;> rfl

theorem effect_of_exec (hx : exec i s = .next t) : Effect i s t := by
  obtain ⟨t', hx', effect⟩ := exec_effect i s
  obtain rfl : t = t' := by simpa [hx] using hx'
  exact effect

/-- The two instructions that halt, and no other. -/
theorem exec_halted_iff (hr : s.halted = false) (hx : exec i s = .next t) :
    t.halted = true ↔ i = .ecall ∨ i = .ebreak := by
  by_cases hi : i = .ecall ∨ i = .ebreak
  · obtain rfl | rfl := hi <;> cases hx <;> simp
  · simp [(effect_of_exec hx).halted hi, hr, hi]

/-- The step of a word that decodes halts exactly for ECALL and EBREAK. -/
theorem step_halted_of_decode (hf : s.fetch = .ok iw) (hd : decodeWord iw = .ok i) (h : step s = .next t) :
    t.halted = true ↔ i = .ecall ∨ i = .ebreak := by
  obtain ⟨-, hr⟩ := running_of_step h
  obtain ⟨u, hx, rfl⟩ := exists_exec_of_step hf hd h
  rw [retire_halted]
  exact exec_halted_iff (s := s.fetched iw) hr hx

theorem decodeWord_ecall_iff : decodeWord iw = .ok .ecall ↔ iw = 0x00000073#32 :=
  ⟨fun h => (encode_of_decodeWord h).symm, fun h => h ▸ by decide⟩

theorem decodeWord_ebreak_iff : decodeWord iw = .ok .ebreak ↔ iw = 0x00100073#32 :=
  ⟨fun h => (encode_of_decodeWord h).symm, fun h => h ▸ by decide⟩

/-- The four causes of a halt. -/
theorem step_halted_iff (h : step s = .next t) :
    t.halted = true ↔
      (∃ e, s.fetch = .error e) ∨ (∃ iw e, s.fetch = .ok iw ∧ decodeWord iw = .error e) ∨
      s.fetch = .ok 0x00000073#32 ∨ s.fetch = .ok 0x00100073#32 := by
  obtain ⟨hp, hr⟩ := running_of_step h
  cases hf : s.fetch with
  | error e =>
    rw [step_of_fetch_error hp hr hf] at h
    cases h
    simp
  | ok iw =>
    cases hd : decodeWord iw with
    | error e =>
      rw [step_of_decode_error hp hr hf hd] at h
      cases h
      simp [hd]
    | ok i =>
      rw [step_halted_of_decode hf hd h]
      simp [hd, ← decodeWord_ecall_iff, ← decodeWord_ebreak_iff]

/-- Settles O39: only a running machine steps, and the reset machine runs. -/
theorem haltCauses : Obligations.HaltCauses := by
  refine ⟨fun s t => step_halted_iff, fun s t hh h => ?_, fun s => rfl⟩
  simp [(running_of_step h).2] at hh

/-- A step that does not halt ends with the commit (40_cycle R146). -/
theorem step_commits (h : step s = .next t) (ht : t.halted = false) :
    t.pc = t.nextPc ∧ t.instructionsExecuted = s.instructionsExecuted + 1#64 := by
  obtain ⟨-, e⟩ | ⟨-, -, e⟩ | ⟨-, -, ⟨x, -, e⟩ | ⟨iw, x, -, -, e⟩ | ⟨iw, i, u, -, -, hx, e⟩⟩ := step_cases s <;>
    rw [e] at h <;> cases h
  · simp at ht
  · simp at ht
  · rw [retire_halted] at ht
    rw [retire_of_running ht]
    exact ⟨rfl, congrArg (· + 1#64) (effect_of_exec hx).instructionsExecuted⟩

/-- Settles O37: the counter is 64 bits wide, so its sum wraps. -/
theorem commitRule : Obligations.CommitRule := by
  intro s t h ht
  obtain ⟨hpc, hcount⟩ := step_commits h ht
  refine ⟨hpc, ?_, rfl⟩
  rw [hcount, BitVec.toNat_add]
  rfl

theorem Effect.platform (e : Effect i s t) : t.platform = s.platform := by
  cases e <;> rfl

/-- No step changes the configuration (00_scope R9). -/
theorem step_platform (h : step s = .next t) : t.platform = s.platform := by
  obtain ⟨-, e⟩ | ⟨-, -, e⟩ | ⟨-, -, ⟨x, -, e⟩ | ⟨iw, x, -, -, e⟩ | ⟨iw, i, u, -, -, hx, e⟩⟩ := step_cases s <;>
    rw [e] at h <;> cases h
  · rfl
  · rfl
  · exact (retire_platform u).trans (effect_of_exec hx).platform

/-! ### Runs (40_cycle R149) -/

/-- A run with fuel that arrives stayed at a halted state, or took a step and ran on. -/
theorem run_succ_cases {n : Nat} (h : run (n + 1) s = .next t) :
    (s.halted = true ∧ t = s) ∨ ∃ u, step s = .next u ∧ run n u = .next t := by
  cases hh : s.halted with
  | true =>
    rw [run_of_halted _ hh] at h
    cases h
    exact .inl ⟨rfl, rfl⟩
  | false =>
    rw [run, hh] at h
    cases hst : step s with
    | next u => exact .inr ⟨u, rfl, by simpa [hst] using h⟩
    | fault f => simp [hst] at h
    | refused r => simp [hst] at h

/-- A run can be cut into parts. -/
theorem run_add {m : Nat} (h : run m s = .next t) (n : Nat) : run (m + n) s = run n t := by
  induction m generalizing s with
  | zero =>
    cases h
    rw [Nat.zero_add]
  | succ m ih =>
    obtain ⟨hh, rfl⟩ | ⟨u, hst, h⟩ := run_succ_cases h
    · rw [run_of_halted _ hh, run_of_halted _ hh]
    · rw [Nat.add_right_comm, run_of_step _ hst, ih h]

theorem run_platform {n : Nat} (h : run n s = .next t) : t.platform = s.platform :=
  run_keeps (P := fun u => u.platform = s.platform) (fun _ _ hu hst => (step_platform hst).trans hu) n rfl h

/-- In a legal configuration a run arrives at a state, whatever the fuel. -/
theorem exists_run (hp : s.platform.wf) (n : Nat) : ∃ t, run n s = .next t := by
  induction n generalizing s with
  | zero => exact ⟨s, rfl⟩
  | succ n ih =>
    cases hh : s.halted with
    | true => exact ⟨s, run_of_halted _ hh⟩
    | false =>
      obtain ⟨u, hst⟩ := exists_step hp hh
      rw [run_of_step n hst]
      exact ih (step_platform hst ▸ hp)

/-- A machine that at no point of its run meets a cause of a halt still runs after any fuel. -/
theorem run_forever (hp : s.platform.wf) (hr : s.halted = false)
    (noCause : ∀ (n : Nat) (t : State), run n s = .next t →
      ∃ iw i, t.fetch = .ok iw ∧ decodeWord iw = .ok i ∧ i ≠ .ecall ∧ i ≠ .ebreak) (n : Nat) :
    ∃ t, run n s = .next t ∧ t.halted = false := by
  induction n with
  | zero => exact ⟨s, rfl, hr⟩
  | succ n ih =>
    obtain ⟨t, ht, htr⟩ := ih
    obtain ⟨iw, i, hf, hd, hcall, hbreak⟩ := noCause n t ht
    obtain ⟨u, hst⟩ := exists_step (run_platform ht ▸ hp) htr
    have running : u.halted = false := by
      rw [← Bool.not_eq_true, step_halted_of_decode hf hd hst]
      simp [hcall, hbreak]
    exact ⟨u, (run_add ht 1).trans (run_of_step 0 hst), running⟩

/-- The run of an image that fits starts at reset with the image in RAM. -/
theorem runImage_of_fits (hp : p.wf) {image : List Byte} (fits : image.length ≤ p.memorySize) (n : Nat) :
    runImage p image n = run n ((State.resetFor p).loadImage image) := by
  rw [runImage, boot_of_fits hp fits]

/-- Settles O55: one lemma for each clause. -/
theorem runRule : Obligations.RunRule :=
  ⟨fun _ _ hp fits => ⟨_, boot_of_fits hp fits, runImage_of_fits hp fits⟩, fun _ _ h n => run_of_step n h,
    fun _ h n => run_of_halted n h, fun _ _ _ n h => run_add h n, fun _ n hp => exists_run hp n, fun _ => run_forever⟩

/-- A run arrives with some fuel, no more than it had, that leaves no halted state on the way. -/
theorem exists_fuel_without_halt {n : Nat} (h : run n s = .next t) :
    ∃ m, m ≤ n ∧ run m s = .next t ∧ ∀ k u, k < m → run k s = .next u → u.halted = false := by
  induction n generalizing s with
  | zero => exact ⟨0, le_rfl, h, fun k _ hk => absurd hk (Nat.not_lt_zero k)⟩
  | succ n ih =>
    obtain ⟨-, rfl⟩ | ⟨s', hst, h⟩ := run_succ_cases h
    · exact ⟨0, Nat.zero_le _, rfl, fun k _ hk => absurd hk (Nat.not_lt_zero k)⟩
    · obtain ⟨m, hm, hrun, running⟩ := ih h
      refine ⟨m + 1, Nat.succ_le_succ hm, (run_of_step m hst).trans hrun, fun k u hk hu => ?_⟩
      cases k with
      | zero =>
        cases hu
        exact (running_of_step hst).2
      | succ k => exact running k u (Nat.lt_of_succ_lt_succ hk) ((run_of_step k hst).symm.trans hu)

theorem add_one_add_ofNat (c : Count) (n : Nat) : c + 1#64 + BitVec.ofNat 64 n = c + BitVec.ofNat 64 (n + 1) := by
  rw [BitVec.add_assoc, Nat.add_comm n 1, BitVec.ofNat_add]

/-- A machine that still runs has committed a step for every unit of fuel. -/
theorem run_counter {n : Nat} (h : run n s = .next t) (ht : t.halted = false) :
    t.instructionsExecuted = s.instructionsExecuted + BitVec.ofNat 64 n := by
  induction n generalizing s with
  | zero =>
    cases h
    exact (BitVec.add_zero _).symm
  | succ n ih =>
    obtain ⟨hh, rfl⟩ | ⟨u, hst, h⟩ := run_succ_cases h
    · simp [ht] at hh
    · have running : u.halted = false := by
        by_contra hu
        rw [run_of_halted n (by simpa using hu), Host.Outcome.next.injEq] at h
        exact hu (h ▸ ht)
      rw [ih h, (step_commits hst running).2, add_one_add_ofNat]

/-- Settles O56, by the two inductions over the fuel. -/
theorem runEndsAtTheFirstHalt : Obligations.RunEndsAtTheFirstHalt :=
  fun _ _ _ h => ⟨fun _ => exists_fuel_without_halt h, run_counter h⟩

/-- What the step of `JAL x0, 0` makes of a state: its target is `pc`, and its link goes to x0. -/
def State.selfJumped (s : State) : State := { (s.fetched 0x0000006F#32).setNextPc s.pc with
  instructionsExecuted := s.instructionsExecuted + 1#64 }

theorem step_selfJump (hp : s.platform.wf) (hr : s.halted = false) (hf : s.fetch = .ok 0x0000006F#32) :
    step s = .next s.selfJumped := by
  have hd : decodeWord 0x0000006F#32 = .ok (.jal 0#5 0#21) := by decide
  have target : s.pc + offset21 0#21 = s.pc := BitVec.add_zero s.pc
  have hx : exec (.jal 0#5 0#21) (s.fetched 0x0000006F#32) = .next ((s.fetched 0x0000006F#32).setNextPc s.pc) :=
    congrArg (fun a => Host.Outcome.next ((s.fetched 0x0000006F#32).setNextPc a)) target
  exact (step_of_decode hp hr hf hd hx).trans (congrArg Host.Outcome.next (retire_of_running hr))

/-- Settles O57: by induction on the fuel; the state after a step meets the hypotheses again. -/
theorem selfJumpNeverHalts : Obligations.SelfJumpNeverHalts := by
  intro s hp hr hf n
  induction n generalizing s with
  | zero => exact ⟨s, rfl, hr, rfl, fun _ => rfl, rfl, rfl, rfl, (BitVec.add_zero _).symm⟩
  | succ n ih =>
    have hst := step_selfJump hp hr hf
    obtain ⟨t, hrun, htr, hpc, hregs, hmem, hconsole, hreports, hcount⟩ := ih s.selfJumped hp hr hf
    exact ⟨t, (run_of_step n hst).trans hrun, htr, hpc, hregs, hmem, hconsole, hreports,
      hcount.trans (add_one_add_ofNat _ n)⟩

end Sys2Proof.Machine
end

section
/-! The upper immediates (O1). `writeReg_writesRegister` says of every register write what it changes and what it leaves;
`opcodeOf_of_masked` says what a row that fixes only the opcode tells of its words. -/

namespace Sys2Proof

theorem opcodeOf_of_masked {iw : Word} {op : BitVec 7} {bits : Word} (row : bits = encodeU 0 0 op)
    (h : iw &&& 0x0000007F#32 = bits) : opcodeOf iw = op :=
  (masked_opcode_iff op iw).1 (h.trans row)

end Sys2Proof

namespace Sys2Proof.Machine

/-- The other fields of a state do not depend on its registers, so their equations hold by definition. -/
theorem writeReg_writesRegister (s : State) (rd : RegIdx) (v : Word) : WritesRegister s (s.writeReg rd v) rd v where
  reg r := writeReg_readReg s rd r v
  nextPc := rfl
  control := ⟨rfl, rfl, rfl, rfl, rfl⟩
  bytes _ := rfl
  streams := ⟨rfl, rfl⟩

/-- The upper immediate is the operand shifted up by 12 bits (30_encoding R99). -/
theorem imm20_eq (imm : BitVec 20) : imm20 imm = BitVec.ofNat 32 (imm.toNat * 4096) := by
  have shifted : (imm20 imm).toNat = imm.toNat * 4096 :=
    (BitVec.toNat_append imm 0#12).trans (by simp [Nat.shiftLeft_eq])
  rw [← shifted, BitVec.ofNat_toNat, BitVec.setWidth_eq]

theorem pc_add_imm20 (s : State) (imm : BitVec 20) :
    s.pc + imm20 imm = BitVec.ofNat 32 (s.pc.toNat + imm.toNat * 4096) := by
  rw [imm20_eq, BitVec.ofNat_add, BitVec.ofNat_toNat, BitVec.setWidth_eq]

theorem exec_lui_writesRegister (s : State) (rd : RegIdx) (imm : BitVec 20) : ∃ t, exec (.lui rd imm) s = .next t ∧
    WritesRegister s t rd (BitVec.ofNat 32 (imm.toNat * 4096)) :=
  ⟨_, rfl, imm20_eq imm ▸ writeReg_writesRegister s rd (imm20 imm)⟩

theorem exec_auipc_writesRegister (s : State) (rd : RegIdx) (imm : BitVec 20) : ∃ t, exec (.auipc rd imm) s = .next t ∧
    WritesRegister s t rd (BitVec.ofNat 32 (s.pc.toNat + imm.toNat * 4096)) :=
  ⟨_, rfl, pc_add_imm20 s imm ▸ writeReg_writesRegister s rd (s.pc + imm20 imm)⟩

/-- Settles O1: the rows fix the opcode, and each instruction is one register write of the value the rule gives. -/
theorem upperImmediateRules : Obligations.UpperImmediateRules :=
  ⟨fun _ h => decodeWord_lui (opcodeOf_of_masked (by decide) h),
    fun _ h => decodeWord_auipc (opcodeOf_of_masked (by decide) h),
    exec_lui_writesRegister, exec_auipc_writesRegister⟩

end Sys2Proof.Machine
end

section
/-! The jumps (O2). `WritesRegister.setNextPc` gets the frame of a jump from the frame of its link's register write;
`decodeWord_of_masked_jalr` reads JALR's row. -/

namespace Sys2Proof

/-- What a row that fixes the opcode and `funct3` tells of its words. -/
theorem opcodeOf_funct3Of_of_masked {iw : Word} {op : BitVec 7} {f3 : BitVec 3} {bits : Word}
    (row : bits = encodeI 0 0 f3 0 op) (h : iw &&& 0x0000707F#32 = bits) : opcodeOf iw = op ∧ funct3Of iw = f3 :=
  (masked_funct3_iff f3 op iw).1 (h.trans row)

theorem decodeJalr_of_funct3 {iw : Word} (h : funct3Of iw = 0#3) :
    decodeJalr iw = .ok (.jalr (rdOf iw) (rs1Of iw) (immIField iw)) := by
  simp only [decodeJalr, h]

theorem decodeWord_of_masked_jalr {iw : Word} (h : iw &&& 0x0000707F#32 = 0x00000067#32) :
    decodeWord iw = .ok (.jalr (rdOf iw) (rs1Of iw) (immIField iw)) := by
  obtain ⟨hop, hf3⟩ := opcodeOf_funct3Of_of_masked (op := 0x67#7) (f3 := 0#3) (by decide) h
  rw [decodeWord_jalr hop, decodeJalr_of_funct3 hf3]

end Sys2Proof

namespace Sys2Proof.Machine

variable {s t : State}

/-- A register write followed by a write of `next_pc` is a jump: the second write reaches nothing but `next_pc`. -/
theorem WritesRegister.setNextPc {rd : RegIdx} {v : Word} (h : WritesRegister s t rd v) (target : Word) :
    JumpsTo s (t.setNextPc target) rd v target where
  reg := h.reg
  nextPc := rfl
  control := ⟨h.control.platform, h.control.pc, h.control.instructionWord, h.control.halted,
    h.control.instructionsExecuted⟩
  bytes := h.bytes
  streams := ⟨h.streams.console, h.streams.reports⟩

theorem link_eq (s : State) : s.link = BitVec.ofNat 32 (s.pc.toNat + 4) := by
  rw [State.link, BitVec.ofNat_add, BitVec.ofNat_toNat, BitVec.setWidth_eq]

/-- The frame the two jumps share: the link in `x[rd]` and the target in `next_pc`. -/
theorem writeReg_link_jumpsTo (s : State) (rd : RegIdx) (target : Word) :
    JumpsTo s ((s.writeReg rd s.link).setNextPc target) rd (BitVec.ofNat 32 (s.pc.toNat + 4)) target :=
  link_eq s ▸ (writeReg_writesRegister s rd s.link).setNextPc target

theorem exec_jal_jumpsTo (s : State) (rd : RegIdx) (offset : BitVec 21) : ∃ t, exec (.jal rd offset) s = .next t ∧
    JumpsTo s t rd (BitVec.ofNat 32 (s.pc.toNat + 4)) (relative s.pc offset.toInt) :=
  ⟨_, rfl, pc_add_offset21 s offset ▸ writeReg_link_jumpsTo s rd (s.pc + offset21 offset)⟩

theorem exec_jalr_jumpsTo (s : State) (rd rs1 : RegIdx) (imm : BitVec 12) : ∃ t, exec (.jalr rd rs1 imm) s = .next t ∧
    JumpsTo s t rd (BitVec.ofNat 32 (s.pc.toNat + 4)) (BitVec.ofNat 32 ((effective s rs1 imm).toNat / 2 * 2)) :=
  ⟨_, rfl, jalrTarget_eq s rs1 imm ▸ writeReg_link_jumpsTo s rd (s.jalrTarget rs1 imm)⟩

/-- Settles O2: the rows fix the opcode, JALR's also `funct3`, and each jump is the link's register write and then the write of a
target computed from the state before both. -/
theorem jumpRules : Obligations.JumpRules :=
  ⟨fun _ h => decodeWord_jal (opcodeOf_of_masked (by decide) h), fun _ h => decodeWord_of_masked_jalr h,
    exec_jal_jumpsTo, exec_jalr_jumpsTo⟩

end Sys2Proof.Machine
end

section
/-! The branches (O3). `rowB_of_decodeBranch` reads a branch's row through the decoder of the group, and
`branchResult_of_branchIf` says what a branch does from its condition; each of the six is then one row and one comparison. -/

namespace Sys2Proof

variable {iw : Word}

/-! ### The legal rows of the BRANCH group (30_encoding R106) -/

theorem decodeBranch_beq (h : funct3Of iw = 0#3) : decodeBranch iw = .ok (.beq (rs1Of iw) (rs2Of iw) (offsetBField iw)) := by
  simp only [decodeBranch, h]

theorem decodeBranch_bne (h : funct3Of iw = 1#3) : decodeBranch iw = .ok (.bne (rs1Of iw) (rs2Of iw) (offsetBField iw)) := by
  simp only [decodeBranch, h]

theorem decodeBranch_blt (h : funct3Of iw = 4#3) : decodeBranch iw = .ok (.blt (rs1Of iw) (rs2Of iw) (offsetBField iw)) := by
  simp only [decodeBranch, h]

theorem decodeBranch_bge (h : funct3Of iw = 5#3) : decodeBranch iw = .ok (.bge (rs1Of iw) (rs2Of iw) (offsetBField iw)) := by
  simp only [decodeBranch, h]

theorem decodeBranch_bltu (h : funct3Of iw = 6#3) : decodeBranch iw = .ok (.bltu (rs1Of iw) (rs2Of iw) (offsetBField iw)) := by
  simp only [decodeBranch, h]

theorem decodeBranch_bgeu (h : funct3Of iw = 7#3) : decodeBranch iw = .ok (.bgeu (rs1Of iw) (rs2Of iw) (offsetBField iw)) := by
  simp only [decodeBranch, h]

end Sys2Proof

namespace Sys2Proof.Machine

/-- A row of the B format fixes the opcode, which chooses the group, and `funct3`, which chooses the branch. -/
theorem rowB_of_decodeBranch {f3 : BitVec 3} {bits : Word} {mk : RegIdx → RegIdx → BitVec 13 → Instr}
    (row : bits = encodeI 0 0 f3 0 0x63#7)
    (h : ∀ {iw}, funct3Of iw = f3 → decodeBranch iw = .ok (mk (rs1Of iw) (rs2Of iw) (offsetBField iw))) : RowB bits mk := by
  intro iw masked
  obtain ⟨hop, hf3⟩ := opcodeOf_funct3Of_of_masked row masked
  exact (decodeWord_branch hop).trans (h hf3)

/-! ### The comparisons (43_branches R181 to R186) -/

variable {a b : Word}

theorem equal_iff : equal a b = true ↔ a = b := beq_iff_eq

theorem not_equal_iff : (!equal a b) = true ↔ a ≠ b := by rw [Bool.not_eq_true', ← Bool.not_eq_true, equal_iff]

theorem lessSigned_iff : lessSigned a b = true ↔ a.toInt < b.toInt := decide_eq_true_iff

theorem not_lessSigned_iff : (!lessSigned a b) = true ↔ b.toInt ≤ a.toInt := by
  rw [Bool.not_eq_true', ← Bool.not_eq_true, lessSigned_iff, Int.not_lt]

theorem lessUnsigned_iff : lessUnsigned a b = true ↔ a.toNat < b.toNat := decide_eq_true_iff

theorem not_lessUnsigned_iff : (!lessUnsigned a b) = true ↔ b.toNat ≤ a.toNat := by
  rw [Bool.not_eq_true', ← Bool.not_eq_true, lessUnsigned_iff, Nat.not_lt]

/-! ### The frame of a branch (43_branches R180) -/

/-- The other fields of a state do not depend on its `next_pc`, so their equations hold by definition. -/
theorem setNextPc_setsNextPc (s : State) (target : Word) : SetsNextPc s (s.setNextPc target) target where
  regs _ := rfl
  nextPc := rfl
  control := ⟨rfl, rfl, rfl, rfl, rfl⟩
  bytes _ := rfl
  streams := ⟨rfl, rfl⟩

theorem branchIf_of_taken {cond : Word → Word → Bool} {rs1 rs2 : RegIdx} {s : State} (offset : BitVec 13)
    (h : cond (s.readReg rs1) (s.readReg rs2) = true) :
    branchIf cond rs1 rs2 offset s = s.setNextPc (relative s.pc offset.toInt) := by
  rw [branchIf, if_pos h, pc_add_offset13]

theorem branchIf_of_not_taken {cond : Word → Word → Bool} {rs1 rs2 : RegIdx} {s : State} (offset : BitVec 13)
    (h : ¬ cond (s.readReg rs1) (s.readReg rs2) = true) : branchIf cond rs1 rs2 offset s = s := if_neg h

/-- An instruction that executes as `branchIf` of a condition is a branch on what the condition decides. A branch not taken leaves
the whole state, which is setting `next_pc` to what it was. -/
theorem branchResult_of_branchIf {mk : RegIdx → RegIdx → BitVec 13 → Instr} {cond : Word → Word → Bool}
    {p : Word → Word → Prop} (hx : ∀ rs1 rs2 offset s, exec (mk rs1 rs2 offset) s = .next (branchIf cond rs1 rs2 offset s))
    (h : ∀ {a b}, cond a b = true ↔ p a b) : BranchResult mk p := by
  intro s rs1 rs2 offset
  refine ⟨_, hx rs1 rs2 offset s, fun taken => ?_, fun notTaken => ?_⟩
  · rw [branchIf_of_taken offset (h.2 taken)]
    exact setNextPc_setsNextPc s _
  · rw [branchIf_of_not_taken offset (mt h.1 notTaken)]
    exact setNextPc_setsNextPc s s.nextPc

/-- Settles O3: each branch by its row in the BRANCH group and by the comparison it executes with. -/
theorem branchRules : Obligations.BranchRules :=
  ⟨⟨rowB_of_decodeBranch (by decide) decodeBranch_beq, branchResult_of_branchIf (fun _ _ _ _ => rfl) equal_iff⟩,
    ⟨rowB_of_decodeBranch (by decide) decodeBranch_bne, branchResult_of_branchIf (fun _ _ _ _ => rfl) not_equal_iff⟩,
    ⟨rowB_of_decodeBranch (by decide) decodeBranch_blt, branchResult_of_branchIf (fun _ _ _ _ => rfl) lessSigned_iff⟩,
    ⟨rowB_of_decodeBranch (by decide) decodeBranch_bge, branchResult_of_branchIf (fun _ _ _ _ => rfl) not_lessSigned_iff⟩,
    ⟨rowB_of_decodeBranch (by decide) decodeBranch_bltu, branchResult_of_branchIf (fun _ _ _ _ => rfl) lessUnsigned_iff⟩,
    ⟨rowB_of_decodeBranch (by decide) decodeBranch_bgeu, branchResult_of_branchIf (fun _ _ _ _ => rfl) not_lessUnsigned_iff⟩⟩

end Sys2Proof.Machine
end

section
/-! The loads (O4). `rowI_of_decodeLoad` reads a load's row through the decoder of the group, and `loadResult_of_loadInto` says
what a load does from how it extends; each of the five is then one row and one value, said byte by byte. -/

namespace Sys2Proof

variable {iw : Word}

/-! ### The legal rows of the LOAD group (30_encoding R106) -/

theorem decodeLoad_lb (h : funct3Of iw = 0#3) : decodeLoad iw = .ok (.lb (rdOf iw) (rs1Of iw) (immIField iw)) := by
  simp only [decodeLoad, h]

theorem decodeLoad_lh (h : funct3Of iw = 1#3) : decodeLoad iw = .ok (.lh (rdOf iw) (rs1Of iw) (immIField iw)) := by
  simp only [decodeLoad, h]

theorem decodeLoad_lw (h : funct3Of iw = 2#3) : decodeLoad iw = .ok (.lw (rdOf iw) (rs1Of iw) (immIField iw)) := by
  simp only [decodeLoad, h]

theorem decodeLoad_lbu (h : funct3Of iw = 4#3) : decodeLoad iw = .ok (.lbu (rdOf iw) (rs1Of iw) (immIField iw)) := by
  simp only [decodeLoad, h]

theorem decodeLoad_lhu (h : funct3Of iw = 5#3) : decodeLoad iw = .ok (.lhu (rdOf iw) (rs1Of iw) (immIField iw)) := by
  simp only [decodeLoad, h]

/-- The value of a word, from the lowest byte up (20_memory R59). -/
theorem wordOfBytes_eq_ofNat (b0 b1 b2 b3 : Byte) : wordOfBytes b0 b1 b2 b3 =
    BitVec.ofNat 32 (b0.toNat + 256 * b1.toNat + 65536 * b2.toNat + 16777216 * b3.toNat) := by
  have value : (wordOfBytes b0 b1 b2 b3).toNat =
      b0.toNat + 256 * b1.toNat + 65536 * b2.toNat + 16777216 * b3.toNat := by
    simp only [wordOfBytes, Machine.toNat_append_byte]
    omega
  rw [← value, BitVec.ofNat_toNat, BitVec.setWidth_eq]

end Sys2Proof

namespace Sys2Proof.Machine

variable {s : State} {a : Word} {w : Width}

/-- A row of the LOAD group fixes the opcode, which chooses the group, and `funct3`, which chooses the load. -/
theorem rowI_of_decodeLoad {f3 : BitVec 3} {bits : Word} {mk : RegIdx → RegIdx → BitVec 12 → Instr}
    (row : bits = encodeI 0 0 f3 0 0x03#7)
    (h : ∀ {iw}, funct3Of iw = f3 → decodeLoad iw = .ok (mk (rdOf iw) (rs1Of iw) (immIField iw))) : RowI bits mk := by
  intro iw masked
  obtain ⟨hop, hf3⟩ := opcodeOf_funct3Of_of_masked row masked
  exact (decodeWord_load hop).trans (h hf3)

/-! ### The extensions (00_scope R14) -/

/-- The low bits of a zero-extended value are the value. -/
theorem extractLsb'_zeroExtend {n : Nat} (hn : n ≤ 32) (x : BitVec n) : (x.zeroExtend 32).extractLsb' 0 n = x :=
  (BitVec.extractLsb'_setWidth_of_le ((Nat.zero_add n).trans_le hn)).trans BitVec.extractLsb'_eq_self

theorem signExtend8_zeroExtend (b : Byte) : signExtend8 (b.zeroExtend 32) = BitVec.ofInt 32 b.toInt :=
  congrArg (BitVec.signExtend 32) (extractLsb'_zeroExtend (by decide) b)

theorem signExtend16_zeroExtend (x : BitVec 16) : signExtend16 (x.zeroExtend 32) = BitVec.ofInt 32 x.toInt :=
  congrArg (BitVec.signExtend 32) (extractLsb'_zeroExtend (by decide) x)

theorem zeroExtend8_zeroExtend (b : Byte) : zeroExtend8 (b.zeroExtend 32) = BitVec.ofNat 32 b.toNat := by
  rw [zeroExtend8, extractLsb'_zeroExtend (by decide), BitVec.ofNat_toNat]

theorem zeroExtend16_zeroExtend (high low : Byte) :
    zeroExtend16 ((high ++ low).zeroExtend 32) = BitVec.ofNat 32 (low.toNat + 256 * high.toNat) := by
  rw [zeroExtend16, extractLsb'_zeroExtend (by decide), ← toNat_append_byte, BitVec.ofNat_toNat]

/-! ### The outcomes of a load (44_loads R195, R196) -/

/-- The other fields of a state do not depend on its reports, so their equations hold by definition. -/
theorem report_appends_one (s : State) (k : ReportKind) (e : ReportError) (info : Word) :
    Reports s (s.report k e info) k e info where
  reports := rfl
  console := rfl
  regs _ := rfl
  nextPc := rfl
  control := ⟨rfl, rfl, rfl, rfl, rfl⟩
  bytes _ := rfl

theorem loadInto_writesRegister {v : Word} (h : memRead s a w = .ok v) (ext : Word → Word) (rd : RegIdx) :
    WritesRegister s (s.loadInto w ext rd a) rd (ext v) := by
  rw [State.loadInto, h]
  exact writeReg_writesRegister s rd (ext v)

theorem loadInto_reports {e : AccessError} (h : memRead s a w = .error e) (ext : Word → Word) (rd : RegIdx) :
    Reports s (s.loadInto w ext rd a) .loadFault e.toReport a := by
  rw [State.loadInto, h]
  exact report_appends_one s .loadFault e.toReport a

/-- An instruction that executes as `loadInto` at its effective address is a load: each clause is one outcome of the read. -/
theorem loadResult_of_loadInto {mk : RegIdx → RegIdx → BitVec 12 → Instr} {ext : Word → Word}
    {value : Memory → Nat → Word}
    (hx : ∀ rd rs1 imm s, exec (mk rd rs1 imm) s = .next (s.loadInto w ext rd (s.address rs1 imm)))
    (zero : ext 0#32 = 0#32) (h : ∀ m b, ext (m.load b w) = value m b) : LoadResult mk w.bytes value := by
  intro s rd rs1 imm hp
  refine ⟨_, hx rd rs1 imm s, ?_⟩
  rw [address_eq_effective]
  refine ⟨fun inConsole => ?_, fun inRam aligned => ?_, fun inRam misaligned => ?_, fun unmapped => ?_⟩
  · exact zero ▸ loadInto_writesRegister (memRead_of_console inConsole) ext rd
  · exact h s.mem _ ▸ loadInto_writesRegister (memRead_of_ram hp inRam aligned) ext rd
  · exact loadInto_reports (memRead_of_misaligned hp inRam misaligned) ext rd
  · exact loadInto_reports (memRead_of_unmapped unmapped) ext rd

/-- Settles O4: each load by its row in the LOAD group and by what its extension makes of the bytes read. -/
theorem loadRules : Obligations.LoadRules :=
  ⟨⟨rowI_of_decodeLoad (by decide) decodeLoad_lb,
      loadResult_of_loadInto (w := .byte) (fun _ _ _ _ => rfl) (by decide) fun _ _ => signExtend8_zeroExtend _⟩,
    ⟨rowI_of_decodeLoad (by decide) decodeLoad_lh,
      loadResult_of_loadInto (w := .half) (fun _ _ _ _ => rfl) (by decide) fun _ _ => signExtend16_zeroExtend _⟩,
    ⟨rowI_of_decodeLoad (by decide) decodeLoad_lw,
      loadResult_of_loadInto (w := .word) (fun _ _ _ _ => rfl) rfl fun _ _ => wordOfBytes_eq_ofNat ..⟩,
    ⟨rowI_of_decodeLoad (by decide) decodeLoad_lbu,
      loadResult_of_loadInto (w := .byte) (fun _ _ _ _ => rfl) (by decide) fun _ _ => zeroExtend8_zeroExtend _⟩,
    ⟨rowI_of_decodeLoad (by decide) decodeLoad_lhu,
      loadResult_of_loadInto (w := .half) (fun _ _ _ _ => rfl) (by decide) fun _ _ => zeroExtend16_zeroExtend ..⟩⟩

end Sys2Proof.Machine
end

section
/-! The stores (O5, O6). `rowS_of_decodeStore` reads a store's row through the decoder of the group; `storeTo` has one lemma for
each outcome of its write, and at the console the one lemma `storeTo_emits` serves every offset. Each of the three stores is then
one row and one width. -/

namespace Sys2Proof

variable {iw : Word}

/-! ### The legal rows of the STORE group (30_encoding R106) -/

theorem decodeStore_sb (h : funct3Of iw = 0#3) : decodeStore iw = .ok (.sb (rs1Of iw) (rs2Of iw) (immSField iw)) := by
  simp only [decodeStore, h]

theorem decodeStore_sh (h : funct3Of iw = 1#3) : decodeStore iw = .ok (.sh (rs1Of iw) (rs2Of iw) (immSField iw)) := by
  simp only [decodeStore, h]

theorem decodeStore_sw (h : funct3Of iw = 2#3) : decodeStore iw = .ok (.sw (rs1Of iw) (rs2Of iw) (immSField iw)) := by
  simp only [decodeStore, h]

end Sys2Proof

namespace Sys2Proof.Machine

variable {s : State} {a : Word} {w : Width} {mk : RegIdx → RegIdx → BitVec 12 → Instr}

/-- A row of the S format fixes the opcode, which chooses the group, and `funct3`, which chooses the store. -/
theorem rowS_of_decodeStore {f3 : BitVec 3} {bits : Word} (row : bits = encodeI 0 0 f3 0 0x23#7)
    (h : ∀ {iw}, funct3Of iw = f3 → decodeStore iw = .ok (mk (rs1Of iw) (rs2Of iw) (immSField iw))) : RowS bits mk := by
  intro iw masked
  obtain ⟨hop, hf3⟩ := opcodeOf_funct3Of_of_masked row masked
  exact (decodeWord_store hop).trans (h hf3)

/-! ### The outcomes of a store (45_stores R210, R211) -/

theorem storeTo_storesBytes (hp : s.platform.wf) (hm : s.mem.wf = true) (inRam : InRam s.platform a)
    (aligned : a.toNat % w.bytes = 0) (v : Word) : StoresBytes s (s.storeTo w a v) a w.bytes v := by
  rw [storeTo_of_ram hp inRam aligned]
  exact ramWrite_storesBytes hm a w v

theorem storeTo_reports {v : Word} {e : AccessError} (h : memWrite s a w v = .error e) :
    Reports s (s.storeTo w a v) .storeFault e.toReport a := by
  rw [State.storeTo, h]
  exact report_appends_one s .storeFault e.toReport a

/-- In the console window neither the width nor the alignment matters (20_memory R55). -/
theorem storeTo_emits {o : Nat} (ho : o < 12) (h : a.toNat = s.platform.consoleBase.toNat + o) (v : Word) :
    Emits s (s.storeTo w a v) (consoleText o v) := by
  have inConsole : InConsole s.platform a := ⟨by omega, by omega⟩
  have offset : a.toNat - s.platform.consoleBase.toNat = o := by omega
  rw [State.storeTo, memWrite_of_console inConsole, offset]
  exact consoleWrite_emits s o v

/-- Only the offsets 0, 4 and 8 of the console window have a text (60_exceptions R320). -/
theorem consoleText_eq_nil {o : Nat} (h0 : o ≠ 0) (h4 : o ≠ 4) (h8 : o ≠ 8) (v : Word) : consoleText o v = [] := by
  rw [consoleText, if_neg h0, if_neg h4, if_neg h8]

/-! ### The three stores -/

/-- An instruction that executes as `storeTo` at its effective address is a store: each clause is one outcome of the write. -/
theorem storeResult_of_storeTo
    (hx : ∀ rs1 rs2 imm s, exec (mk rs1 rs2 imm) s = .next (s.storeTo w (s.address rs1 imm) (s.readReg rs2))) :
    StoreResult mk w.bytes := by
  intro s rs1 rs2 imm hp hm
  refine ⟨_, hx rs1 rs2 imm s, ?_⟩
  rw [address_eq_effective]
  refine ⟨fun inRam aligned => ?_, fun inRam misaligned => ?_, fun unmapped => ?_, fun atBase => ?_,
    fun o ho h0 h4 h8 atOffset => ?_⟩
  · exact storeTo_storesBytes hp hm inRam aligned _
  · exact storeTo_reports (memWrite_of_misaligned hp inRam misaligned _)
  · exact storeTo_reports (memWrite_of_unmapped unmapped _)
  · exact storeTo_emits (o := 0) (by decide) (congrArg BitVec.toNat atBase) _
  · exact consoleText_eq_nil h0 h4 h8 (s.readReg rs2) ▸ storeTo_emits ho atOffset _

/-- Settles O5: each store by its row in the STORE group and by the width it executes with. -/
theorem storeRules : Obligations.StoreRules :=
  ⟨⟨rowS_of_decodeStore (by decide) decodeStore_sb, storeResult_of_storeTo (w := .byte) fun _ _ _ _ => rfl⟩,
    ⟨rowS_of_decodeStore (by decide) decodeStore_sh, storeResult_of_storeTo (w := .half) fun _ _ _ _ => rfl⟩,
    ⟨rowS_of_decodeStore (by decide) decodeStore_sw, storeResult_of_storeTo (w := .word) fun _ _ _ _ => rfl⟩⟩

/-- The text at an offset is of the whole register, so the width does not enter. -/
theorem consoleNumber_of_storeTo
    (hx : ∀ rs1 rs2 imm s, exec (mk rs1 rs2 imm) s = .next (s.storeTo w (s.address rs1 imm) (s.readReg rs2))) :
    ConsoleNumber mk := by
  intro s rs1 rs2 imm _
  refine ⟨_, hx rs1 rs2 imm s, ?_⟩
  rw [address_eq_effective]
  exact ⟨fun atDecimal => storeTo_emits (o := 4) (by decide) atDecimal _,
    fun atHex => storeTo_emits (o := 8) (by decide) atHex _⟩

/-- Settles O6: each store writes its register at the effective address, at its own width. -/
theorem storesToConsoleEmitTheWholeRegister : Obligations.StoresToConsoleEmitTheWholeRegister :=
  ⟨consoleNumber_of_storeTo (w := .byte) fun _ _ _ _ => rfl, consoleNumber_of_storeTo (w := .half) fun _ _ _ _ => rfl,
    consoleNumber_of_storeTo (w := .word) fun _ _ _ _ => rfl⟩

end Sys2Proof.Machine
end

section
/-! The ALU operations with an immediate (O7, O8). `rowI_of_decodeOpImm` and `shiftRow_of_decodeOpImm` read a row through the
decoder of the group; `immediateResult_of_aluImm` and `shiftResult_of_shiftImm` say what an operation writes from the function it
executes with. Each of the nine is then one row and one value, said in integer arithmetic. -/

namespace Sys2Proof

/-- What a row that fixes the opcode, `funct3` and `funct7` tells of its words. -/
theorem opcodeOf_funct3Of_funct7Of_of_masked {iw : Word} {op f7 : BitVec 7} {f3 : BitVec 3} {bits : Word}
    (row : bits = encodeR f7 0 0 f3 0 op) (h : iw &&& 0xFE00707F#32 = bits) :
    opcodeOf iw = op ∧ funct3Of iw = f3 ∧ funct7Of iw = f7 :=
  (masked_funct7_iff f7 f3 op iw).1 (h.trans row)

variable {iw : Word}

/-! ### The legal rows of the OP-IMM group (30_encoding R109) -/

theorem decodeOpImm_addi (h : funct3Of iw = 0#3) : decodeOpImm iw = .ok (.addi (rdOf iw) (rs1Of iw) (immIField iw)) := by
  simp only [decodeOpImm, h]

theorem decodeOpImm_slti (h : funct3Of iw = 2#3) : decodeOpImm iw = .ok (.slti (rdOf iw) (rs1Of iw) (immIField iw)) := by
  simp only [decodeOpImm, h]

theorem decodeOpImm_sltiu (h : funct3Of iw = 3#3) : decodeOpImm iw = .ok (.sltiu (rdOf iw) (rs1Of iw) (immIField iw)) := by
  simp only [decodeOpImm, h]

theorem decodeOpImm_xori (h : funct3Of iw = 4#3) : decodeOpImm iw = .ok (.xori (rdOf iw) (rs1Of iw) (immIField iw)) := by
  simp only [decodeOpImm, h]

theorem decodeOpImm_ori (h : funct3Of iw = 6#3) : decodeOpImm iw = .ok (.ori (rdOf iw) (rs1Of iw) (immIField iw)) := by
  simp only [decodeOpImm, h]

theorem decodeOpImm_andi (h : funct3Of iw = 7#3) : decodeOpImm iw = .ok (.andi (rdOf iw) (rs1Of iw) (immIField iw)) := by
  simp only [decodeOpImm, h]

theorem decodeOpImm_slli (h3 : funct3Of iw = 1#3) (h7 : funct7Of iw = 0#7) :
    decodeOpImm iw = .ok (.slli (rdOf iw) (rs1Of iw) (shamtOf iw)) := by
  simp only [decodeOpImm, h3, decodeShiftLeft, h7]

theorem decodeOpImm_srli (h3 : funct3Of iw = 5#3) (h7 : funct7Of iw = 0#7) :
    decodeOpImm iw = .ok (.srli (rdOf iw) (rs1Of iw) (shamtOf iw)) := by
  simp only [decodeOpImm, h3, decodeShiftRight, h7]

theorem decodeOpImm_srai (h3 : funct3Of iw = 5#3) (h7 : funct7Of iw = 0x20#7) :
    decodeOpImm iw = .ok (.srai (rdOf iw) (rs1Of iw) (shamtOf iw)) := by
  simp only [decodeOpImm, h3, decodeShiftRight, h7]

end Sys2Proof

namespace Sys2Proof.Machine

/-- A row of the OP-IMM group fixes the opcode, which chooses the group, and `funct3`, which chooses the operation. -/
theorem rowI_of_decodeOpImm {f3 : BitVec 3} {bits : Word} {mk : RegIdx → RegIdx → BitVec 12 → Instr}
    (row : bits = encodeI 0 0 f3 0 0x13#7)
    (h : ∀ {iw}, funct3Of iw = f3 → decodeOpImm iw = .ok (mk (rdOf iw) (rs1Of iw) (immIField iw))) : RowI bits mk := by
  intro iw masked
  obtain ⟨hop, hf3⟩ := opcodeOf_funct3Of_of_masked row masked
  exact (decodeWord_opImm hop).trans (h hf3)

/-- The row of a shift also fixes `iw[31:25]`, all of it (30_encoding R101, 92_eei_decisions D5). -/
theorem shiftRow_of_decodeOpImm {f7 : BitVec 7} {f3 : BitVec 3} {bits : Word} {mk : RegIdx → RegIdx → BitVec 5 → Instr}
    (row : bits = encodeR f7 0 0 f3 0 0x13#7)
    (h : ∀ {iw}, funct3Of iw = f3 → funct7Of iw = f7 → decodeOpImm iw = .ok (mk (rdOf iw) (rs1Of iw) (shamtOf iw))) :
    RowDecodes 0xFE00707F#32 bits fun iw => mk (iw.extractLsb' 7 5) (iw.extractLsb' 15 5) (iw.extractLsb' 20 5) := by
  intro iw masked
  obtain ⟨hop, hf3, hf7⟩ := opcodeOf_funct3Of_funct7Of_of_masked row masked
  exact (decodeWord_opImm hop).trans (h hf3 hf7)

/-! ### The values in integer arithmetic (00_scope R13, 46_alu_immediate R221 to R229) -/

theorem setLess_eq (a b : Word) : setLess a b = if a.toInt < b.toInt then 1#32 else 0#32 := if_congr lessSigned_iff rfl rfl

theorem setLessUnsigned_eq (a b : Word) : setLessUnsigned a b = if a.toNat < b.toNat then 1#32 else 0#32 :=
  if_congr lessUnsigned_iff rfl rfl

theorem setLess_imm12 (a : Word) (imm : BitVec 12) :
    setLess a (imm12 imm) = if a.toInt < imm.toInt then 1#32 else 0#32 := by
  rw [setLess_eq, imm12, toInt_signExtend_imm12]

theorem shiftLeft_eq_mul_pow (a : Word) (n : BitVec 5) : shiftLeft a n = BitVec.ofNat 32 (a.toNat * 2 ^ n.toNat) :=
  congrArg (BitVec.ofNat 32) (Nat.shiftLeft_eq a.toNat n.toNat)

theorem shiftRightLogical_eq_div_pow (a : Word) (n : BitVec 5) :
    shiftRightLogical a n = BitVec.ofNat 32 (a.toNat / 2 ^ n.toNat) := by
  rw [← Nat.shiftRight_eq_div_pow, ← BitVec.toNat_ushiftRight, BitVec.ofNat_toNat, BitVec.setWidth_eq, shiftRightLogical]

/-- Integer division by a positive number rounds down, as an arithmetic shift does. -/
theorem shiftRightArith_eq_div_pow (a : Word) (n : BitVec 5) :
    shiftRightArith a n = BitVec.ofInt 32 (a.toInt / 2 ^ n.toNat) := by
  rw [shiftRightArith, BitVec.sshiftRight, Int.shiftRight_eq_div_pow, Nat.cast_pow, Nat.cast_ofNat]

/-! ### The nine operations -/

/-- An instruction that executes as `aluImm` on its sign-extended immediate is one register write of the function's value. -/
theorem immediateResult_of_aluImm {mk : RegIdx → RegIdx → BitVec 12 → Instr} {op : Word → Word → Word}
    {f : Word → BitVec 12 → Word} (hx : ∀ rd rs1 imm s, exec (mk rd rs1 imm) s = .next (aluImm op rd rs1 (imm12 imm) s))
    (h : ∀ a imm, op a (imm12 imm) = f a imm) : ImmediateResult mk f := by
  intro s rd rs1 imm
  refine ⟨_, hx rd rs1 imm s, ?_⟩
  rw [aluImm, h]
  exact writeReg_writesRegister s rd _

/-- An instruction that executes as `shiftImm` is one register write of the shifted value. -/
theorem shiftResult_of_shiftImm {mk : RegIdx → RegIdx → BitVec 5 → Instr} {op : Word → BitVec 5 → Word}
    {f : Word → Nat → Word} (hx : ∀ rd rs1 n s, exec (mk rd rs1 n) s = .next (shiftImm op rd rs1 n s))
    (h : ∀ a n, op a n = f a n.toNat) : ShiftResult mk f := by
  intro s rd rs1 n
  refine ⟨_, hx rd rs1 n s, ?_⟩
  rw [shiftImm, h]
  exact writeReg_writesRegister s rd _

/-- Settles O7: each operation by its row in the OP-IMM group and by its value on the sign-extended immediate. For the last three
the statement's value is the model's by definition, `imm12` being that sign extension. -/
theorem aluImmediateRules : Obligations.AluImmediateRules :=
  ⟨⟨rowI_of_decodeOpImm (by decide) decodeOpImm_addi, immediateResult_of_aluImm (fun _ _ _ _ => rfl) add_signExtend⟩,
    ⟨rowI_of_decodeOpImm (by decide) decodeOpImm_slti, immediateResult_of_aluImm (fun _ _ _ _ => rfl) setLess_imm12⟩,
    ⟨rowI_of_decodeOpImm (by decide) decodeOpImm_sltiu,
      immediateResult_of_aluImm (fun _ _ _ _ => rfl) fun a imm => setLessUnsigned_eq a (imm12 imm)⟩,
    ⟨rowI_of_decodeOpImm (by decide) decodeOpImm_xori, immediateResult_of_aluImm (fun _ _ _ _ => rfl) fun _ _ => rfl⟩,
    ⟨rowI_of_decodeOpImm (by decide) decodeOpImm_ori, immediateResult_of_aluImm (fun _ _ _ _ => rfl) fun _ _ => rfl⟩,
    ⟨rowI_of_decodeOpImm (by decide) decodeOpImm_andi, immediateResult_of_aluImm (fun _ _ _ _ => rfl) fun _ _ => rfl⟩⟩

/-- Settles O8: each shift by its row in the OP-IMM group and by its value as a product or a quotient. -/
theorem shiftImmediateRules : Obligations.ShiftImmediateRules :=
  ⟨⟨shiftRow_of_decodeOpImm (by decide) decodeOpImm_slli,
      shiftResult_of_shiftImm (fun _ _ _ _ => rfl) shiftLeft_eq_mul_pow⟩,
    ⟨shiftRow_of_decodeOpImm (by decide) decodeOpImm_srli,
      shiftResult_of_shiftImm (fun _ _ _ _ => rfl) shiftRightLogical_eq_div_pow⟩,
    ⟨shiftRow_of_decodeOpImm (by decide) decodeOpImm_srai,
      shiftResult_of_shiftImm (fun _ _ _ _ => rfl) shiftRightArith_eq_div_pow⟩⟩

end Sys2Proof.Machine
end

section
/-! The operations on two registers: ALU (O9), multiplication (O10), division (O11, O12, O15). `rowR_of_encode` reads a row of the
R format from the encoder, whose word the decoder reads back; `registerResult_of_aluReg` says what an operation writes from the
function it executes with, and `rowR_and_registerResult` is both. Each of the eighteen is then one row and one value, said in integer
arithmetic. -/

namespace Sys2Proof.Machine

/-! ### Rows and results -/

/-- A word that matches a row of the OP group is rebuilt from its fields, so it is the word of the row's instruction. -/
theorem rowR_of_encode {f7 : BitVec 7} {f3 : BitVec 3} {bits : Word} {mk : RegIdx → RegIdx → RegIdx → Instr}
    (row : bits = encodeR f7 0 0 f3 0 0x33#7) (word : ∀ rd rs1 rs2, encode (mk rd rs1 rs2) = encodeR f7 rs2 rs1 f3 rd 0x33#7)
    (wf : ∀ rd rs1 rs2, (mk rd rs1 rs2).wf = true) : RowR bits mk := by
  intro iw masked
  obtain ⟨hop, hf3, hf7⟩ := opcodeOf_funct3Of_funct7Of_of_masked row masked
  have decoded := decodeWord_encode (wf (rdOf iw) (rs1Of iw) (rs2Of iw))
  rwa [word, ← hop, ← hf3, ← hf7, encodeR_fields] at decoded

/-- An instruction that executes as `aluReg` is one register write of the function's value. -/
theorem registerResult_of_aluReg {mk : RegIdx → RegIdx → RegIdx → Instr} {op f : Word → Word → Word}
    (hx : ∀ rd rs1 rs2 s, exec (mk rd rs1 rs2) s = .next (aluReg op rd rs1 rs2 s)) (h : ∀ a b, op a b = f a b) :
    RegisterResult mk f := by
  intro s rd rs1 rs2
  refine ⟨_, hx rd rs1 rs2 s, ?_⟩
  rw [aluReg, h]
  exact writeReg_writesRegister s rd _

/-- A rule of the OP group: the row of an operation and what it writes. -/
theorem rowR_and_registerResult {f7 : BitVec 7} {f3 : BitVec 3} {bits : Word} {mk : RegIdx → RegIdx → RegIdx → Instr}
    {op f : Word → Word → Word} (row : bits = encodeR f7 0 0 f3 0 0x33#7)
    (word : ∀ rd rs1 rs2, encode (mk rd rs1 rs2) = encodeR f7 rs2 rs1 f3 rd 0x33#7)
    (wf : ∀ rd rs1 rs2, (mk rd rs1 rs2).wf = true)
    (hx : ∀ rd rs1 rs2 s, exec (mk rd rs1 rs2) s = .next (aluReg op rd rs1 rs2 s)) (h : ∀ a b, op a b = f a b) :
    RowR bits mk ∧ RegisterResult mk f :=
  ⟨rowR_of_encode row word wf, registerResult_of_aluReg hx h⟩

/-! ### The ALU in integer arithmetic (00_scope R13, 47_alu_register R240 to R251) -/

theorem sub_eq_ofInt (a b : Word) : a - b = BitVec.ofInt 32 (a.toInt - b.toInt) := by
  rw [Int.sub_eq_add_neg, BitVec.ofInt_add, BitVec.ofInt_neg, BitVec.ofInt_toInt, BitVec.ofInt_toInt, BitVec.sub_eq_add_neg]

theorem shiftAmount_toNat (b : Word) : (shiftAmount b).toNat = b.toNat % 32 := BitVec.extractLsb'_toNat 0 5 b

theorem shiftLeft_shiftAmount (a b : Word) :
    shiftLeft a (shiftAmount b) = BitVec.ofNat 32 (a.toNat * 2 ^ (b.toNat % 32)) := by
  rw [shiftLeft_eq_mul_pow, shiftAmount_toNat]

theorem shiftRightLogical_shiftAmount (a b : Word) :
    shiftRightLogical a (shiftAmount b) = BitVec.ofNat 32 (a.toNat / 2 ^ (b.toNat % 32)) := by
  rw [shiftRightLogical_eq_div_pow, shiftAmount_toNat]

theorem shiftRightArith_shiftAmount (a b : Word) :
    shiftRightArith a (shiftAmount b) = BitVec.ofInt 32 (a.toInt / 2 ^ (b.toNat % 32)) := by
  rw [shiftRightArith_eq_div_pow, shiftAmount_toNat]

/-- Settles O9: each operation by its row in the OP group and by its value. The sum modulo `2^32` and the three bitwise results are
the statement's by definition. -/
theorem aluRegisterRules : Obligations.AluRegisterRules :=
  ⟨rowR_and_registerResult (by decide) (fun _ _ _ => rfl) (fun _ _ _ => rfl) (fun _ _ _ _ => rfl) fun _ _ => rfl,
    rowR_and_registerResult (by decide) (fun _ _ _ => rfl) (fun _ _ _ => rfl) (fun _ _ _ _ => rfl) sub_eq_ofInt,
    rowR_and_registerResult (by decide) (fun _ _ _ => rfl) (fun _ _ _ => rfl) (fun _ _ _ _ => rfl) shiftLeft_shiftAmount,
    rowR_and_registerResult (by decide) (fun _ _ _ => rfl) (fun _ _ _ => rfl) (fun _ _ _ _ => rfl) setLess_eq,
    rowR_and_registerResult (by decide) (fun _ _ _ => rfl) (fun _ _ _ => rfl) (fun _ _ _ _ => rfl) setLessUnsigned_eq,
    rowR_and_registerResult (by decide) (fun _ _ _ => rfl) (fun _ _ _ => rfl) (fun _ _ _ _ => rfl) fun _ _ => rfl,
    rowR_and_registerResult (by decide) (fun _ _ _ => rfl) (fun _ _ _ => rfl) (fun _ _ _ _ => rfl) shiftRightLogical_shiftAmount,
    rowR_and_registerResult (by decide) (fun _ _ _ => rfl) (fun _ _ _ => rfl) (fun _ _ _ _ => rfl) shiftRightArith_shiftAmount,
    rowR_and_registerResult (by decide) (fun _ _ _ => rfl) (fun _ _ _ => rfl) (fun _ _ _ _ => rfl) fun _ _ => rfl,
    rowR_and_registerResult (by decide) (fun _ _ _ => rfl) (fun _ _ _ => rfl) (fun _ _ _ _ => rfl) fun _ _ => rfl⟩

/-! ### Products (48_muldiv R261 to R264) -/

/-- The low word is the same for both readings of the operands, since they agree modulo `2^32`. -/
theorem mulLow_eq_ofInt (a b : Word) : mulLow a b = BitVec.ofInt 32 (a.toInt * b.toInt) := by
  rw [BitVec.ofInt_mul, BitVec.ofInt_toInt, BitVec.ofInt_toInt, mulLow]

/-- The upper half of the 64 bits of a product is its quotient by `2^32`, rounded down. -/
theorem highWord_eq (product : Int) : highWord product = BitVec.ofInt 32 (product / 2 ^ 32) := by
  refine BitVec.eq_of_toNat_eq ?_
  rw [highWord, BitVec.extractLsb'_toNat, Nat.shiftRight_eq_div_pow, BitVec.toNat_ofInt, BitVec.toNat_ofInt]
  omega

theorem mulHigh_eq (a b : Word) : mulHigh a b = BitVec.ofInt 32 (a.toInt * b.toInt / 2 ^ 32) := highWord_eq _

theorem mulHighSignedUnsigned_eq (a b : Word) :
    mulHighSignedUnsigned a b = BitVec.ofInt 32 (a.toInt * (b.toNat : Int) / 2 ^ 32) := highWord_eq _

theorem mulHighUnsigned_eq (a b : Word) : mulHighUnsigned a b = BitVec.ofNat 32 (a.toNat * b.toNat / 2 ^ 32) := by
  rw [mulHighUnsigned, highWord_eq, ← BitVec.ofInt_natCast]
  norm_cast

/-- Settles O10: each multiplication by its row in the OP group and by its value. -/
theorem multiplyRules : Obligations.MultiplyRules :=
  ⟨⟨rowR_of_encode (by decide) (fun _ _ _ => rfl) fun _ _ _ => rfl,
      registerResult_of_aluReg (fun _ _ _ _ => rfl) mulLow_eq_ofInt,
      registerResult_of_aluReg (fun _ _ _ _ => rfl) fun _ _ => rfl⟩,
    rowR_and_registerResult (by decide) (fun _ _ _ => rfl) (fun _ _ _ => rfl) (fun _ _ _ _ => rfl) mulHigh_eq,
    rowR_and_registerResult (by decide) (fun _ _ _ => rfl) (fun _ _ _ => rfl) (fun _ _ _ _ => rfl) mulHighSignedUnsigned_eq,
    rowR_and_registerResult (by decide) (fun _ _ _ => rfl) (fun _ _ _ => rfl) (fun _ _ _ _ => rfl) mulHighUnsigned_eq⟩

/-! ### Quotients and remainders (48_muldiv R265 to R269) -/

/-- Settles O11: the model's quotient and remainder are the statement's by definition. -/
theorem unsignedDivisionRules : Obligations.UnsignedDivisionRules :=
  ⟨rowR_and_registerResult (op := divUnsigned) (by decide) (fun _ _ _ => rfl) (fun _ _ _ => rfl) (fun _ _ _ _ => rfl)
      fun _ _ => rfl,
    rowR_and_registerResult (op := remUnsigned) (by decide) (fun _ _ _ => rfl) (fun _ _ _ => rfl) (fun _ _ _ _ => rfl)
      fun _ _ => rfl⟩

theorem remSigned_eq (a b : Word) : remSigned a b =
    if b = 0#32 then a
    else if a = 0x80000000#32 ∧ b = 0xFFFFFFFF#32 then 0#32
    else BitVec.ofInt 32 (a.toInt.tmod b.toInt) := by
  rw [Int.tmod_def]
  rfl

/-- Settles O12: the model's quotient is the statement's by definition, and its remainder is the dividend less the divisor times the
quotient, which is `Int.tmod`. -/
theorem signedDivisionRules : Obligations.SignedDivisionRules :=
  ⟨rowR_and_registerResult (op := divSigned) (by decide) (fun _ _ _ => rfl) (fun _ _ _ => rfl) (fun _ _ _ _ => rfl)
      fun _ _ => rfl,
    rowR_and_registerResult (by decide) (fun _ _ _ => rfl) (fun _ _ _ => rfl) (fun _ _ _ _ => rfl) remSigned_eq⟩

section NonZeroDivisor

variable {a b : Word} (hb : b ≠ 0#32)
include hb

/-- The overflow pair is no exception to the quotient's rule modulo `2^32` (92_eei_decisions D9). -/
theorem divSigned_eq_ofInt : divSigned a b = BitVec.ofInt 32 (a.toInt.tdiv b.toInt) := by
  rw [divSigned, if_neg hb]
  split
  · rename_i overflow
    obtain ⟨rfl, rfl⟩ := overflow
    decide
  · rfl

/-- Nor is it one to the remainder's rule: no remainder is left. -/
theorem remSigned_eq_ofInt : remSigned a b = BitVec.ofInt 32 (a.toInt.tmod b.toInt) := by
  rw [remSigned_eq, if_neg hb]
  split
  · rename_i overflow
    obtain ⟨rfl, rfl⟩ := overflow
    decide
  · rfl

theorem divSigned_mul_add_remSigned : divSigned a b * b + remSigned a b = a := by
  rw [divSigned_eq_ofInt hb, remSigned_eq_ofInt hb]
  calc
    BitVec.ofInt 32 (a.toInt.tdiv b.toInt) * b + BitVec.ofInt 32 (a.toInt.tmod b.toInt)
      = BitVec.ofInt 32 (a.toInt.tdiv b.toInt * b.toInt + a.toInt.tmod b.toInt) := by
        rw [BitVec.ofInt_add, BitVec.ofInt_mul, BitVec.ofInt_toInt]
    _ = a := by rw [Int.tdiv_mul_add_tmod, BitVec.ofInt_toInt]

theorem tmod_natAbs_lt : (a.toInt.tmod b.toInt).natAbs < b.toInt.natAbs := by
  rw [Int.natAbs_tmod]
  exact Nat.mod_lt _ (Int.natAbs_pos.2 (BitVec.toInt_ne.2 hb))

/-- A remainder smaller than the divisor fits a word, so nothing is lost when it is narrowed. -/
theorem remSigned_toInt : (remSigned a b).toInt = a.toInt.tmod b.toInt := by
  rw [remSigned_eq_ofInt hb]
  have small := tmod_natAbs_lt (a := a) hb
  have lower := BitVec.le_toInt b
  have upper := BitVec.toInt_lt (x := b)
  exact BitVec.toInt_ofInt_eq_self (by decide) (by omega) (by omega)

theorem divUnsigned_mul_add_remUnsigned : divUnsigned a b * b + remUnsigned a b = a := by
  rw [divUnsigned, remUnsigned, if_neg hb, if_neg hb]
  calc
    BitVec.ofNat 32 (a.toNat / b.toNat) * b + BitVec.ofNat 32 (a.toNat % b.toNat)
      = BitVec.ofNat 32 (a.toNat / b.toNat * b.toNat + a.toNat % b.toNat) := by
        rw [BitVec.ofNat_add, BitVec.ofNat_mul _ b.toNat, BitVec.ofNat_toNat, BitVec.setWidth_eq]
    _ = a := by rw [Nat.div_add_mod', BitVec.ofNat_toNat, BitVec.setWidth_eq]

theorem remUnsigned_lt : (remUnsigned a b).toNat < b.toNat := by
  rw [remUnsigned, if_neg hb, BitVec.toNat_ofNat]
  exact (Nat.mod_le _ _).trans_lt (Nat.mod_lt _ (BitVec.toNat_pos_of_ne_zero hb))

end NonZeroDivisor

theorem tmod_nonpos {a : Int} (b : Int) (ha : a ≤ 0) : a.tmod b ≤ 0 := by
  have key := Int.tmod_nonneg b (Int.neg_nonneg_of_nonpos ha)
  rw [Int.neg_tmod] at key
  exact Int.nonpos_of_neg_nonneg key

/-- Settles O15: both kinds of division narrow an exact quotient and remainder, and the remainder survives the narrowing. -/
theorem quotientAndRemainderRebuildTheDividend : Obligations.QuotientAndRemainderRebuildTheDividend := by
  intro a b hb
  rw [remSigned_toInt hb]
  exact ⟨divSigned_mul_add_remSigned hb, tmod_natAbs_lt hb, Int.tmod_nonneg b.toInt, tmod_nonpos b.toInt,
    divUnsigned_mul_add_remUnsigned hb, remUnsigned_lt hb⟩

end Sys2Proof.Machine
end

section
/-! FENCE, ECALL and EBREAK (O13, O14), the two failures of a fetch (O34), and reset (O26, O28). -/

namespace Sys2Proof.Machine

variable {s : State} {iw : Word}

/-- The row of MISC-MEM fixes the opcode and `funct3`; the other bits are the ignored ones (92_eei_decisions D7). -/
theorem decodeWord_of_masked_fence (h : iw &&& 0x0000707F#32 = 0x0000000F#32) :
    decodeWord iw = .ok (.fence (rdOf iw) (rs1Of iw) (immIField iw)) := by
  obtain ⟨hop, hf3⟩ := opcodeOf_funct3Of_of_masked (op := 0x0F#7) (f3 := 0#3) (by decide) h
  rw [decodeWord_miscMem hop]
  simp only [decodeMiscMem, hf3]

/-- Settles O13: the row decodes to FENCE, whose meaning is the state itself. -/
theorem fenceHasNoEffect : Obligations.FenceHasNoEffect :=
  ⟨fun _ h => decodeWord_of_masked_fence h, fun _ _ _ _ => rfl⟩

/-- The step of an instruction that does nothing but halt makes no commit. -/
theorem step_of_halt {i : Instr} (hp : s.platform.wf) (hr : s.halted = false) (hf : s.fetch = .ok iw)
    (hd : decodeWord iw = .ok i) (hx : exec i (s.fetched iw) = .next (s.fetched iw).halt) :
    step s = .next (s.fetched iw).halt :=
  (step_of_decode hp hr hf hd hx).trans (congrArg Host.Outcome.next (retire_of_halted rfl))

/-- Settles O14: both instructions are `State.halt`, between the fetch and a commit that is not made. -/
theorem ecallAndEbreakHalt : Obligations.EcallAndEbreakHalt := by
  refine ⟨fun s => rfl, fun s => rfl, fun s iw hp hr hf hword => ?_⟩
  obtain hcall | hbreak := hword
  · exact step_of_halt hp hr hf (decodeWord_ecall_iff.2 hcall) rfl
  · exact step_of_halt hp hr hf (decodeWord_ebreak_iff.2 hbreak) rfl

/-- Settles O34: the fetch is a word read at `pc`, and its two failures are the read's. -/
theorem fetchFaultRule : Obligations.FetchFaultRule := by
  intro s hp hr
  exact ⟨fun unmapped => step_of_fetch_error hp hr (memRead_of_unmapped unmapped),
    fun inRam misaligned => step_of_fetch_error hp hr (memRead_of_misaligned hp inRam misaligned)⟩

/-- Settles O26: a warm reset is the reset state with RAM and the streams put back, so its registers are the reset state's. -/
theorem warmResetKeepsRamAndStreams : Obligations.WarmResetKeepsRamAndStreams :=
  fun s => ⟨rfl, rfl, rfl, rfl, rfl, resetFor_readReg s.platform, rfl, rfl, rfl, rfl⟩

/-- Settles O28: the first four bytes of the empty image are zero, and the zero word does not decode. -/
theorem emptyImageHaltsAtOnce : Obligations.EmptyImageHaltsAtOnce := by
  intro p hp
  obtain ⟨s, hboot, -, -, hf⟩ := (bootLoadsTheImage p [] hp).1 (Nat.zero_le _)
  obtain ⟨-, -, rfl⟩ := boot_next hboot
  have hd : decodeWord 0#32 = .error .unknownOpcode := by decide
  exact ⟨_, _, hboot, step_of_decode_error hp rfl hf hd, rfl, rfl, rfl, rfl⟩

end Sys2Proof.Machine
end

section
/-! The console's numbers (O24). `Spells base ds n` says that `ds` are the digits of `n`; `digits_spells` is the induction over the
fuel of `digits`, and the two texts are its cases of base 10 and base 16. -/

namespace Sys2Proof.Machine

variable {base n : Nat} {ds : List Nat}

/-- `ds` are the digits of `n` in base `base`, the most significant first and not 0, but for the number 0. -/
structure Spells (base : Nat) (ds : List Nat) (n : Nat) : Prop where
  nonempty : ds ≠ []
  digit : ∀ d ∈ ds, d < base
  noLeadingZero : ds.head? = some 0 → ds = [0]
  value : ds.foldl (fun m d => base * m + d) 0 = n

theorem spells_singleton (h : n < base) : Spells base [n] n where
  nonempty := by simp
  digit := by simpa
  noLeadingZero := by simp
  value := by simp

/-- A last digit can be added to the digits of a number that is not 0. -/
theorem Spells.append (h : Spells base ds n) (hn : n ≠ 0) {d : Nat} (hd : d < base) :
    Spells base (ds ++ [d]) (base * n + d) where
  nonempty := by simp
  digit := by
    intro x hx
    obtain hx | rfl := by simpa using hx
    · exact h.digit x hx
    · exact hd
  noLeadingZero := by
    intro hz
    rw [List.head?_append_of_ne_nil _ h.nonempty] at hz
    have zero := h.value
    rw [h.noLeadingZero hz] at zero
    simp [← zero] at hn
  value := by simp [h.value]

/-- With fuel for every digit, `digits` gives the digits. -/
theorem digits_spells (hbase : 0 < base) (fuel : Nat) (h : n < base ^ (fuel + 1)) :
    Spells base (digits base (fuel + 1) n) n := by
  induction fuel generalizing n with
  | zero =>
    have single : n < base := by simpa using h
    rw [digits, if_pos single]
    exact spells_singleton single
  | succ fuel ih =>
    rw [digits]
    split
    · exact spells_singleton ‹_›
    · have rest : n / base < base ^ (fuel + 1) := Nat.div_lt_of_lt_mul (by rwa [pow_succ'] at h)
      have nonzero : n / base ≠ 0 := (Nat.div_pos (Nat.le_of_not_lt ‹_›) hbase).ne'
      have key := (ih rest).append nonzero (Nat.mod_lt n hbase)
      rwa [Nat.div_add_mod] at key

/-! ### The two texts (60_exceptions R322, R323) -/

/-- The largest absolute value of a signed word is `2^31`, which has ten decimal digits. -/
theorem decimal_spells (v : Word) : Spells 10 (digits 10 10 v.toInt.natAbs) v.toInt.natAbs := by
  refine digits_spells (by decide) 9 ?_
  have lower := BitVec.le_toInt v
  have upper := BitVec.toInt_lt (x := v)
  omega

theorem hex_spells (v : Word) : Spells 16 (digits 16 8 v.toNat) v.toNat := digits_spells (by decide) 7 v.isLt

theorem decimalText_eq (v : Word) :
    decimalText v = (if v.toInt < 0 then [45#8] else []) ++ (digits 10 10 v.toInt.natAbs).map fun d => BitVec.ofNat 8 (48 + d) := by
  have codes : decimalDigits v.toInt.natAbs = (digits 10 10 v.toInt.natAbs).map fun d => BitVec.ofNat 8 (48 + d) :=
    List.map_congr_left fun d hd => if_pos ((decimal_spells v).digit d hd)
  rw [decimalText, codes]
  split <;> rfl

theorem hexText_eq (v : Word) :
    hexText v = (digits 16 8 v.toNat).map fun d => BitVec.ofNat 8 (if d < 10 then 48 + d else 87 + d) := by
  refine List.map_congr_left fun d _ => ?_
  rw [digitCode]
  split <;> rfl

/-- Settles O24: the digits are those of `digits`, each with its ASCII code. -/
theorem consoleTextsSpellTheValue : Obligations.ConsoleTextsSpellTheValue := by
  intro v
  have dec := decimal_spells v
  have hex := hex_spells v
  exact ⟨⟨_, dec.nonempty, dec.digit, dec.noLeadingZero, dec.value, decimalText_eq v⟩,
    ⟨_, hex.nonempty, hex.digit, hex.noLeadingZero, hex.value, hexText_eq v⟩⟩

end Sys2Proof.Machine
end

section
/-! The streams: what a step appends (O41, O58), records that halt (O59, O60), and the cause of a halt (O40). `StepRecord` is the
table of events of 60_exceptions R302, and `step_streams` says once what a step makes of the two streams. -/

namespace Sys2Proof.Machine

variable {s t : State} {p : Platform}

/-- All a step can do: a failed fetch, an illegal word, or the effect of an instruction and then the commit. -/
theorem step_next_cases (h : step s = .next t) :
    (∃ e, s.fetch = .error e ∧ t = s.fetchFault e) ∨
    (∃ iw e, s.fetch = .ok iw ∧ decodeWord iw = .error e ∧ t = (s.fetched iw).decodeError iw) ∨
    (∃ iw i u, s.fetch = .ok iw ∧ decodeWord iw = .ok i ∧ Effect i (s.fetched iw) u ∧ t = u.retire) := by
  obtain ⟨-, e⟩ | ⟨-, -, e⟩ | ⟨-, -, ⟨x, hf, e⟩ | ⟨iw, x, hf, hd, e⟩ | ⟨iw, i, u, hf, hd, hx, e⟩⟩ := step_cases s <;>
    rw [e] at h <;> cases h
  · exact .inl ⟨x, hf, rfl⟩
  · exact .inr (.inl ⟨iw, x, hf, hd, rfl⟩)
  · exact .inr (.inr ⟨iw, i, u, hf, hd, effect_of_exec hx, rfl⟩)

@[simp] theorem retire_reports (s : State) : s.retire.reports = s.reports := by
  unfold State.retire
  split <;> rfl

/-! ### The table of events (60_exceptions R302) -/

/-- The record of a step from `s` to `t`, one constructor for each row of the table. -/
inductive StepRecord (s t : State) : Report → Prop where
  | fetchFault {e : AccessError} (fetch : s.fetch = .error e) (halts : t.halted = true) :
    StepRecord s t ⟨.fetchFault, e.toReport, s.pc, s.pc⟩
  | decodeError {iw : Word} {e : Illegal} (fetch : s.fetch = .ok iw) (illegal : decodeWord iw = .error e)
    (halts : t.halted = true) : StepRecord s t ⟨.decodeError, .unknownOpcode, s.pc, iw⟩
  | loadFault {iw : Word} {w : Width} {e : AccessError} (fetch : s.fetch = .ok iw) (group : opcodeOf iw = 0b0000011#7)
    (width : w.bytes = 2 ^ ((funct3Of iw).toNat % 4))
    (checked : checkAccess s.platform (s.address (rs1Of iw) (immIField iw)) w = .fails e) (runs : t.halted = false) :
    StepRecord s t ⟨.loadFault, e.toReport, s.pc, s.address (rs1Of iw) (immIField iw)⟩
  | storeFault {iw : Word} {w : Width} {e : AccessError} (fetch : s.fetch = .ok iw) (group : opcodeOf iw = 0b0100011#7)
    (width : w.bytes = 2 ^ ((funct3Of iw).toNat % 4))
    (checked : checkAccess s.platform (s.address (rs1Of iw) (immSField iw)) w = .fails e) (runs : t.halted = false) :
    StepRecord s t ⟨.storeFault, e.toReport, s.pc, s.address (rs1Of iw) (immSField iw)⟩

/-- A step makes no record, or one row of the table and then nothing else on RAM and the console. -/
theorem step_streams (h : step s = .next t) :
    (t.reports = s.reports ∧ ∃ text, t.console = s.console ++ text) ∨
    (∃ r, StepRecord s t r ∧ t.reports = s.reports ++ [r] ∧ t.console = s.console ∧ t.mem = s.mem) := by
  obtain ⟨-, hr⟩ := running_of_step h
  obtain ⟨e, hf, rfl⟩ | ⟨iw, e, hf, hd, rfl⟩ | ⟨iw, i, u, hf, hd, effect, rfl⟩ := step_next_cases h
  · exact .inr ⟨_, .fetchFault hf rfl, rfl, rfl, rfl⟩
  · exact .inr ⟨_, .decodeError hf hd rfl, rfl, rfl, rfl⟩
  · obtain rfl := encode_of_decodeWord hd
    rw [retire_reports, retire_console, retire_mem]
    cases effect with
    | loadFailed group w width e checked =>
      exact .inr ⟨_, .loadFault hf group width checked ((retire_halted _).trans hr), rfl, rfl, rfl⟩
    | storeFailed group w width e checked =>
      exact .inr ⟨_, .storeFault hf group width checked ((retire_halted _).trans hr), rfl, rfl, rfl⟩
    | console _ o v => exact .inl ⟨rfl, consoleText o v, rfl⟩
    | _ => exact .inl ⟨rfl, [], (List.append_nil _).symm⟩

theorem StepRecord.pc {r : Report} (h : StepRecord s t r) : r.pc = s.pc := by
  cases h <;> rfl

/-- Settles O41: the step's record, if any, is one, and it is made by a step that touches neither RAM nor the console. -/
theorem streamsAreAppendOnly : Obligations.StreamsAreAppendOnly := by
  intro s t h
  refine ⟨step_platform h, ?_⟩
  obtain ⟨hreports, text, hconsole⟩ | ⟨r, record, hreports, hconsole, hmem⟩ := step_streams h
  · exact ⟨text, [], hconsole, by simp [hreports], by simp, by simp, by simp⟩
  · exact ⟨[], [r], by simp [hconsole], hreports, by simp, by simp [hmem], by simp [record.pc]⟩

/-! ### Records on the report port (40_cycle R151) -/

/-- The error code of a failed access: 0 outside both ranges, 1 for a misaligned address of RAM. -/
theorem accessFails_of_checkAccess {a : Word} {w : Width} {e : AccessError} (h : checkAccess p a w = .fails e) :
    AccessFails p a w.bytes e.toReport.code := by
  obtain ⟨rfl, unmapped⟩ | ⟨rfl, inRam, misaligned⟩ := checkAccess_fails h
  · exact .inl ⟨rfl, unmapped⟩
  · exact .inr ⟨rfl, inRam, misaligned⟩

/-- Settles O58: the row of the table that the step's record is, with its codes. -/
theorem recordsLeaveOnTheReportPort : Obligations.RecordsLeaveOnTheReportPort := by
  intro s t h
  obtain ⟨hreports, -⟩ | ⟨r, record, hreports, -⟩ := step_streams h
  · exact .inl hreports
  · refine .inr ⟨r, hreports, record.pc, ?_⟩
    cases record with
    | fetchFault fetch halts =>
      exact .inl ⟨rfl, rfl, halts, accessFails_of_checkAccess (w := .word) (memRead_error_iff.1 fetch)⟩
    | decodeError fetch illegal halts => exact .inr (.inl ⟨rfl, rfl, halts, _, fetch, illegal⟩)
    | loadFault fetch group width checked runs =>
      exact .inr (.inr ⟨runs, _, fetch, width ▸ accessFails_of_checkAccess checked,
        .inl ⟨rfl, group, address_eq_effective s _ _⟩⟩)
    | storeFault fetch group width checked runs =>
      exact .inr (.inr ⟨runs, _, fetch, width ▸ accessFails_of_checkAccess checked,
        .inr ⟨rfl, group, address_eq_effective s _ _⟩⟩)

/-! ### Records that halt (60_exceptions R305, R306) -/

/-- A step that does not halt makes a record of a failed load or store, or none. -/
theorem StepRecord.kind_of_running {r : Report} (h : StepRecord s t r) (ht : t.halted = false) :
    r.kind ≠ .fetchFault ∧ r.kind ≠ .decodeError := by
  cases h with
  | fetchFault _ halts | decodeError _ _ halts => simp [ht] at halts
  | loadFault | storeFault => simp

/-- Settles O59: the step's record is the only new one. -/
theorem runningHasNoHaltRecord : Obligations.RunningHasNoHaltRecord := by
  intro s t hs h ht r hr
  obtain ⟨-, running⟩ := running_of_step h
  obtain ⟨hreports, -⟩ | ⟨r', record, hreports, -⟩ := step_streams h
  · exact hs running r (hreports ▸ hr)
  · rw [hreports, List.mem_append, List.mem_singleton] at hr
    obtain hr | rfl := hr
    · exact hs running r hr
    · exact record.kind_of_running ht

theorem haltRecordsMeanHalted_of_no_reports (h : s.reports = []) : s.HaltRecordsMeanHalted := by
  intro _ r hr
  simp [h] at hr

/-- Settles O60: reset clears the report stream, and the load of an image makes no record. -/
theorem resetHasNoHaltRecord : Obligations.ResetHasNoHaltRecord := by
  refine ⟨fun p => haltRecordsMeanHalted_of_no_reports rfl, fun p image s h => ?_⟩
  obtain ⟨-, -, rfl⟩ := boot_next h
  exact haltRecordsMeanHalted_of_no_reports rfl

/-! ### The cause of a halt (60_exceptions R307) -/

/-- A step that halts is a failed fetch, an illegal word, or ECALL or EBREAK. -/
theorem halting_step_cases (h : step s = .next t) (ht : t.halted = true) :
    (∃ e, s.fetch = .error e ∧ t = s.fetchFault e) ∨
    (∃ iw e, s.fetch = .ok iw ∧ decodeWord iw = .error e ∧ t = (s.fetched iw).decodeError iw) ∨
    (∃ iw, s.fetch = .ok iw ∧ (iw = 0x00000073#32 ∨ iw = 0x00100073#32) ∧ t = (s.fetched iw).halt) := by
  obtain hfault | hillegal | ⟨iw, i, u, hf, hd, -, -⟩ := step_next_cases h
  · exact .inl hfault
  · exact .inr (.inl hillegal)
  · obtain ⟨u, hx, rfl⟩ := exists_exec_of_step hf hd h
    refine .inr (.inr ⟨iw, hf, ?_⟩)
    obtain rfl | rfl := (step_halted_of_decode hf hd h).1 ht <;> cases hx
    · exact ⟨.inl (decodeWord_ecall_iff.1 hd), retire_of_halted rfl⟩
    · exact ⟨.inr (decodeWord_ebreak_iff.1 hd), retire_of_halted rfl⟩

/-- After an exception the last record is of its kind, at the `pc` of the step. -/
theorem raise_lastRecordIs_iff (s : State) (k : ReportKind) (e : ReportError) (info : Word) (k' : ReportKind) :
    (s.raise k e info).LastRecordIs k' ↔ k = k' := by
  simp [State.LastRecordIs]

theorem not_lastRecordIs_of_noHaltRecord (h : t.NoHaltRecord) :
    ¬ t.LastRecordIs .fetchFault ∧ ¬ t.LastRecordIs .decodeError := by
  constructor <;> rintro ⟨r, last, kind, -⟩
  · exact (h r (List.mem_of_getLast? last)).1 kind
  · exact (h r (List.mem_of_getLast? last)).2 kind

theorem causeReadFrom_fetchFault {e : AccessError} (hf : s.fetch = .error e) : CauseReadFrom s (s.fetchFault e) := by
  have last := raise_lastRecordIs_iff s .fetchFault e.toReport s.pc
  simp only [CauseReadFrom, State.fetchFault, last, hf]
  simp

theorem causeReadFrom_decodeError {iw : Word} {e : Illegal} (hf : s.fetch = .ok iw) (hd : decodeWord iw = .error e) :
    CauseReadFrom s ((s.fetched iw).decodeError iw) := by
  have last := raise_lastRecordIs_iff (s.fetched iw) .decodeError .unknownOpcode iw
  simp only [CauseReadFrom, State.decodeError, last, hf, Except.ok.injEq, ← decodeWord_ecall_iff, ← decodeWord_ebreak_iff]
  simp [hd]

/-- ECALL and EBREAK make no record, so none of a halt stands in the stream when none stood there before. -/
theorem causeReadFrom_halt {iw : Word} (hs : s.NoHaltRecord) (hf : s.fetch = .ok iw)
    (hword : iw = 0x00000073#32 ∨ iw = 0x00100073#32) : CauseReadFrom s (s.fetched iw).halt := by
  obtain ⟨noFault, noIllegal⟩ := not_lastRecordIs_of_noHaltRecord (t := (s.fetched iw).halt) hs
  have legal : ∃ i, decodeWord iw = .ok i :=
    hword.elim (fun h => ⟨_, decodeWord_ecall_iff.2 h⟩) fun h => ⟨_, decodeWord_ebreak_iff.2 h⟩
  obtain ⟨i, hd⟩ := legal
  simp [CauseReadFrom, noFault, noIllegal, hf, hd, hword]

theorem causeReadFrom_of_step (h : step s = .next t) (ht : t.halted = true) (hs : s.NoHaltRecord) : CauseReadFrom s t := by
  obtain ⟨e, hf, rfl⟩ | ⟨iw, e, hf, hd, rfl⟩ | ⟨iw, hf, hword, rfl⟩ := halting_step_cases h ht
  · exact causeReadFrom_fetchFault hf
  · exact causeReadFrom_decodeError hf hd
  · exact causeReadFrom_halt hs hf hword

theorem record_or_word_of_halting_step (h : step s = .next t) (ht : t.halted = true) :
    (∃ r, t.reports = s.reports ++ [r] ∧ (r.kind = .fetchFault ∨ r.kind = .decodeError) ∧ r.pc = t.pc) ∨
    (t.reports = s.reports ∧ (t.instructionWord = 0x00000073#32 ∨ t.instructionWord = 0x00100073#32)) := by
  obtain ⟨e, -, rfl⟩ | ⟨iw, e, -, -, rfl⟩ | ⟨iw, -, hword, rfl⟩ := halting_step_cases h ht
  · exact .inl ⟨_, rfl, .inl rfl, rfl⟩
  · exact .inl ⟨_, rfl, .inr rfl, rfl⟩
  · exact .inr ⟨rfl, hword⟩

/-- A run that arrives at a state starts where the boot of its image arrived, and so does every run of that image. -/
theorem runImage_next {image : List Byte} {n : Nat} (h : runImage p image n = .next t) :
    ∃ s, boot p image = .next s ∧ ∀ m, runImage p image m = run m s := by
  cases hb : boot p image with
  | next s => exact ⟨s, rfl, fun m => by rw [runImage, hb]⟩
  | fault f => simp [runImage, hb] at h
  | refused r => simp [runImage, hb] at h

/-- A run of a running machine that arrives at a halted state took a step to it. -/
theorem exists_halting_step {n : Nat} (h : run n s = .next t) (hr : s.halted = false) (ht : t.halted = true) :
    ∃ m u, m < n ∧ run m s = .next u ∧ step u = .next t := by
  induction n generalizing s with
  | zero =>
    cases h
    simp [hr] at ht
  | succ n ih =>
    obtain ⟨hh, -⟩ | ⟨v, hst, h⟩ := run_succ_cases h
    · simp [hr] at hh
    · cases hv : v.halted with
      | true =>
        obtain rfl : v = t := by simpa [run_of_halted n hv] using h
        exact ⟨0, s, Nat.succ_pos n, rfl, hst⟩
      | false =>
        obtain ⟨m, u, hm, hrun, hlast⟩ := ih h hv
        exact ⟨m + 1, u, Nat.succ_lt_succ hm, (run_of_step m hst).trans hrun, hlast⟩

/-- Settles O40: a halting step is one of three, each with its own record or word; along a run no record of a halt stands in the
stream before its last step. -/
theorem haltCauseIsReadable : Obligations.HaltCauseIsReadable := by
  refine ⟨fun s t h ht => ⟨record_or_word_of_halting_step h ht, causeReadFrom_of_step h ht⟩, fun p image n t h ht => ?_⟩
  obtain ⟨s₀, hboot, hrun⟩ := runImage_next h
  have reset : s₀.HaltRecordsMeanHalted := resetHasNoHaltRecord.2 p image s₀ hboot
  have running : s₀.halted = false := by
    obtain ⟨-, -, rfl⟩ := boot_next hboot
    rfl
  obtain ⟨m, s, hm, hs, hst⟩ := exists_halting_step ((hrun n).symm.trans h) running ht
  obtain ⟨-, hsr⟩ := running_of_step hst
  have noRecord : s.NoHaltRecord := run_keeps runningHasNoHaltRecord m reset hs hsr
  exact ⟨m, s, hm, (hrun m).trans hs, hsr, hst, causeReadFrom_of_step hst ht noRecord⟩

end Sys2Proof.Machine
end
